-- ==== Sys2Proof/Word.lean ====
section
/-! DEFINITION. The word types of the block: the command word, its fields, a byte, a packed colour.
Every value is unsigned and bit 0 is the least significant bit (R8). -/

namespace Sys2Proof

/-- One byte: a buffer byte, a colour channel, a level, the word on a GPIO write port (R31, R52). -/
abbrev Byte := BitVec 8

/-- The 48-bit command word of format C (R45). -/
abbrev CmdWord := BitVec 48

/-- Field `A`: a pixel index or a pixel count, `IDX_W = 16` bits (R7, R45). -/
abbrev Index := BitVec 16

/-- Field `V`, and a packed colour or a response: 24 bits (R36, R45, R51). -/
abbrev Colour := BitVec 24

/-- `CNT_W = 21` bits: a DMA transfer counter, `ENG.PTR`, `ENG.LEN`, `DMA[D].SRC` (R7). -/
abbrev Count := BitVec 21

/-- `TMR_W = OVF_W = 16` bits: the timer registers and the overflow counter (R7). -/
abbrev Ticks := BitVec 16

end Sys2Proof
end

