-- ==== Sys2Proof/Syntax.lean ====
section
/-! DEFINITION. The twelve commands of NMX-1, one constructor per row of spec/opcode_table.json
(R47). The engine-side events have no encoding (R55) and are no instructions; `Color(r, g, b)` has no
word (R54). -/

namespace Sys2Proof

/-- A command with the operands its word carries (R46, R47). `tf` are the type flags `V[7:0]` (R49);
only those with `tf[7:2] = 0` are commands at all (R48), which `Instr.wf` checks. -/
inductive Instr where
  /-- `STRIP n, tf` (R110). -/
  | strip (n : Index) (tf : Byte)
  /-- `ULEN n` (R66). -/
  | ulen (n : Index)
  /-- `UTYPE tf` (R67). -/
  | utype (tf : Byte)
  /-- `BEGIN` (R111). -/
  | begin_
  /-- `SHOW` (R112). -/
  | show_
  /-- `POLL` (R113). -/
  | poll
  /-- `NUMPIX` (R73). -/
  | numpix
  /-- `SETRGB index, r, g, b` (R68). -/
  | setrgb (index : Index) (r g b : Byte)
  /-- `SETPK index, c` (R69). -/
  | setpk (index : Index) (c : Colour)
  /-- `GETPIX index` (R70). -/
  | getpix (index : Index)
  /-- `CLEAR` (R71). -/
  | clear
  /-- `SETBRT level` (R72). -/
  | setbrt (level : Byte)
  deriving DecidableEq, Repr

end Sys2Proof
end

