-- ==== Sys2Proof/WellFormed.lean ====
section
/-! DEFINITION. Which terms of `Instr` are commands of NMX-1. The widths of the operands are in the types;
what is left are the must-be-zero bits of the type flags (R48, R49). -/

namespace Sys2Proof

/-- `tf[2]`, the speed class, is 0 (800 kHz); 1 is reserved (R49). -/
def speedClassOk (tf : Byte) : Bool := tf.extractLsb' 2 1 == 0

/-- `tf[7:3]` are reserved, zero (R49). -/
def flagsReservedOk (tf : Byte) : Bool := tf.extractLsb' 3 5 == 0

/-- The commands that have a word: STRIP and UTYPE need `tf[7:2] = 0` (R48, R49). -/
def Instr.wf : Instr → Bool
  | .strip _ tf => speedClassOk tf && flagsReservedOk tf
  | .ulen _ => true
  | .utype tf => speedClassOk tf && flagsReservedOk tf
  | .begin_ => true
  | .show_ => true
  | .poll => true
  | .numpix => true
  | .setrgb _ _ _ _ => true
  | .setpk _ _ => true
  | .getpix _ => true
  | .clear => true
  | .setbrt _ => true

end Sys2Proof
end

