-- ==== Sys2Proof/Decode.lean ====
section
/-! DEFINITION. From command words to commands and back: the fields of format C (R45, R46), the opcode
map (R47), the total decoder that rejects reserved words by name (R48), and the encoder. -/

namespace Sys2Proof

/-! ### The fields of a command word (R45) -/

/-- `OPC = w[47:40]`. -/
def fieldOpc (w : CmdWord) : BitVec 8 := w.extractLsb' 40 8

/-- `A = w[39:24]`. -/
def fieldA (w : CmdWord) : Index := w.extractLsb' 24 16

/-- `V = w[23:0]`. -/
def fieldV (w : CmdWord) : Colour := w.extractLsb' 0 24

/-- `V[23:16]`: `r` of SETRGB and of a packed colour (R36, R46). -/
def redOf (v : Colour) : Byte := v.extractLsb' 16 8

/-- `V[15:8]`: `g` of SETRGB and of a packed colour (R36, R46). -/
def greenOf (v : Colour) : Byte := v.extractLsb' 8 8

/-- `V[7:0]`: `b` of SETRGB and of a packed colour, the level of SETBRT, the type flags (R36, R46). -/
def blueOf (v : Colour) : Byte := v.extractLsb' 0 8

/-- `Color(r, g, b) = (r << 16) | (g << 8) | b`, a pure function of three bytes (R54, R116). -/
def packColour (r g b : Byte) : Colour := r ++ g ++ b

/-! ### The opcode map (R47) -/

/-- One row of the table of R47: a word `w` is this command exactly when `w AND mask = pat`. -/
structure OpRow where
  mnemonic : String
  pat : CmdWord
  mask : CmdWord
  deriving DecidableEq, Repr

/-- The row of the table of R47 that a command belongs to. -/
def opRow : Instr → OpRow
  | .strip _ _ => ⟨"STRIP", 0x010000000000, 0xFF0000FFFFFC⟩
  | .ulen _ => ⟨"ULEN", 0x020000000000, 0xFF0000FFFFFF⟩
  | .utype _ => ⟨"UTYPE", 0x030000000000, 0xFFFFFFFFFFFC⟩
  | .begin_ => ⟨"BEGIN", 0x040000000000, 0xFFFFFFFFFFFF⟩
  | .show_ => ⟨"SHOW", 0x050000000000, 0xFFFFFFFFFFFF⟩
  | .poll => ⟨"POLL", 0x060000000000, 0xFFFFFFFFFFFF⟩
  | .numpix => ⟨"NUMPIX", 0x070000000000, 0xFFFFFFFFFFFF⟩
  | .setrgb _ _ _ _ => ⟨"SETRGB", 0x100000000000, 0xFF0000000000⟩
  | .setpk _ _ => ⟨"SETPK", 0x110000000000, 0xFF0000000000⟩
  | .getpix _ => ⟨"GETPIX", 0x120000000000, 0xFF0000FFFFFF⟩
  | .clear => ⟨"CLEAR", 0x130000000000, 0xFFFFFFFFFFFF⟩
  | .setbrt _ => ⟨"SETBRT", 0x140000000000, 0xFFFFFFFFFF00⟩

/-- The twelve rows of the table of R47, in its order. -/
def opcodeTable : List OpRow :=
  [opRow (.strip 0 0), opRow (.ulen 0), opRow (.utype 0), opRow .begin_, opRow .show_, opRow .poll,
   opRow .numpix, opRow (.setrgb 0 0 0 0), opRow (.setpk 0 0), opRow (.getpix 0), opRow .clear,
   opRow (.setbrt 0)]

/-- `(w AND mask) = match` (R47). -/
def OpRow.matches (row : OpRow) (w : CmdWord) : Bool := w &&& row.mask == row.pat

/-! ### Decoding (R46 to R48) -/

/-- Why a word is reserved (R48). -/
inductive DecodeError where
  /-- `OPC` is 0x00, 0x08 to 0x0F or 0x15 to 0xFF. -/
  | unknownOpcode
  /-- `OPC` is in the table, but a must-be-zero bit is set (the reserved speed class included). -/
  | mustBeZero
  deriving DecidableEq, Repr

/-- A command whose must-be-zero bits `zero` decide whether the word is reserved (R47, R48). -/
def needZero {k : Nat} (zero : BitVec k) (i : Instr) : Except DecodeError Instr :=
  if zero = 0 then .ok i else .error .mustBeZero

/-- The decoder, total on the 48-bit words: the columns `OPC`, `A`, `V` and "must be zero" of R47. -/
def decode (w : CmdWord) : Except DecodeError Instr :=
  let a := fieldA w
  let v := fieldV w
  match (fieldOpc w).toNat with
  | 0x01 => needZero (v.extractLsb' 2 22) (.strip a (blueOf v))
  | 0x02 => needZero v (.ulen a)
  | 0x03 => needZero (w.extractLsb' 2 38) (.utype (blueOf v))
  | 0x04 => needZero (w.extractLsb' 0 40) .begin_
  | 0x05 => needZero (w.extractLsb' 0 40) .show_
  | 0x06 => needZero (w.extractLsb' 0 40) .poll
  | 0x07 => needZero (w.extractLsb' 0 40) .numpix
  | 0x10 => .ok (.setrgb a (redOf v) (greenOf v) (blueOf v))
  | 0x11 => .ok (.setpk a v)
  | 0x12 => needZero v (.getpix a)
  | 0x13 => needZero (w.extractLsb' 0 40) .clear
  | 0x14 => needZero (w.extractLsb' 8 32) (.setbrt (blueOf v))
  | _ => .error .unknownOpcode

/-- The word of a row whose bits are `w`, numbered as spec/opcode_table.json numbers them: a command is
one 48-bit word, so the bits above `nbits` are zero and a longer word is no command (R45). -/
def decodeTableWord (nbits w : Nat) : Option Instr :=
  if nbits ≤ 48 then
    match decode (BitVec.ofNat 48 (w % 2 ^ nbits)) with
    | .ok i => some i
    | .error _ => none
  else none

/-! ### Encoding (R45 to R47) -/

/-- The word of format C with the three fields given (R45). -/
def formatC (opc : BitVec 8) (a : Index) (v : Colour) : CmdWord := opc ++ a ++ v

/-- The word of a command, with the unused operand bits zero (R47). -/
def encode : Instr → CmdWord
  | .strip n tf => formatC 0x01 n (packColour 0 0 tf)
  | .ulen n => formatC 0x02 n 0
  | .utype tf => formatC 0x03 0 (packColour 0 0 tf)
  | .begin_ => formatC 0x04 0 0
  | .show_ => formatC 0x05 0 0
  | .poll => formatC 0x06 0 0
  | .numpix => formatC 0x07 0 0
  | .setrgb index r g b => formatC 0x10 index (packColour r g b)
  | .setpk index c => formatC 0x11 index c
  | .getpix index => formatC 0x12 index 0
  | .clear => formatC 0x13 0 0
  | .setbrt level => formatC 0x14 0 (packColour 0 0 level)

end Sys2Proof
end

