-- ==== Sys2Proof/Config.lean ====
section
/-! DEFINITION. The OPEN parameters of the block with their constraints (R7, the table of R7).
"Constraints are normative: a model instance that breaks one is not an instance of this hardware", so a
`Config` carries them. The block leaves no result undefined, so there is no opaque free value here. -/

namespace Sys2Proof

/-- One instance of the hardware: the five OPEN parameters of R7 and their constraints. -/
structure Config where
  /-- `MAX_PIXELS`, the largest pixel count the buffer memory can hold. -/
  maxPixels : Nat
  /-- `PERIOD_TICKS`, timer ticks in one bit period. -/
  periodTicks : Nat
  /-- `C1_TICKS`, the count of compare event 1. -/
  c1Ticks : Nat
  /-- `C2_TICKS`, the count of compare event 2. -/
  c2Ticks : Nat
  /-- `DEAD_OVERFLOWS`, timer overflows counted in DeadTime. -/
  deadOverflows : Nat
  maxPixels_pos : 1 ≤ maxPixels
  maxPixels_le : maxPixels ≤ 65535
  periodTicks_ge : 3 ≤ periodTicks
  periodTicks_le : periodTicks ≤ 65536
  c1Ticks_pos : 0 < c1Ticks
  c1Ticks_lt : c1Ticks < c2Ticks
  c2Ticks_lt : c2Ticks < periodTicks
  deadOverflows_pos : 1 ≤ deadOverflows
  deadOverflows_le : deadOverflows ≤ 65535
  deriving DecidableEq, Repr

/-- `BUF_BYTES = 24 * MAX_PIXELS` (R7). -/
def Config.bufBytes (c : Config) : Nat := 24 * c.maxPixels

/-- The defaults of R7. -/
def Config.default : Config where
  maxPixels := 1024
  periodTicks := 90
  c1Ticks := 29
  c2Ticks := 58
  deadOverflows := 41
  maxPixels_pos := by decide
  maxPixels_le := by decide
  periodTicks_ge := by decide
  periodTicks_le := by decide
  c1Ticks_pos := by decide
  c1Ticks_lt := by decide
  c2Ticks_lt := by decide
  deadOverflows_pos := by decide
  deadOverflows_le := by decide

/-- The small parameter set of 93_implementation_defined.md G3, used by the traces of
95_test_vectors.md; it corresponds to no real device. -/
def Config.small : Config where
  maxPixels := 4
  periodTicks := 10
  c1Ticks := 3
  c2Ticks := 6
  deadOverflows := 2
  maxPixels_pos := by decide
  maxPixels_le := by decide
  periodTicks_ge := by decide
  periodTicks_le := by decide
  c1Ticks_pos := by decide
  c1Ticks_lt := by decide
  c2Ticks_lt := by decide
  deadOverflows_pos := by decide
  deadOverflows_le := by decide

end Sys2Proof
end

