-- ==== Sys2Proof/Machine/State.lean ====
section
/-! DEFINITION. The complete state of the block as plain data (the table of R13), its reset value (R142),
the reasons a step can stop, and the names of the model faults (R118). -/

namespace Sys2Proof.Machine

/-- `ENG.STATE`: "one of {Idle, Transmitting, DeadTime}"; code 3 is never held (R19). -/
inductive EngState where
  | idle
  | transmitting
  | deadTime
  deriving DecidableEq, Repr

/-- `ORDER`, the channel order used by read-back (R15). -/
inductive Order where
  | grb
  | rgb
  | brg
  | rbg
  deriving DecidableEq, Repr

/-- The three DMA streams: `H` go high, `D` data, `L` force low (R25). -/
inductive StreamId where
  | h
  | d
  | l
  deriving DecidableEq, Repr

/-- The three write ports of the GPIO driver (R52). -/
inductive Port where
  | set
  | and
  | clr
  deriving DecidableEq, Repr

/-- What the new count of a TICK raises: at most one event (R82). -/
inductive TimerEvent where
  | update
  | cc1
  | cc2
  | none
  deriving DecidableEq, Repr

/-- The seven model faults (the table of R118). -/
inductive ModelFault where
  /-- Command decode, a reserved word (R119). -/
  | illegalCommand
  /-- SHOW with `N > 0` and `BEGUN = 0` (R120). -/
  | showBeforeBegin
  /-- BEGIN with `BEGUN = 1` (R121). -/
  | beginTwice
  /-- STRIP, ULEN, UTYPE with `BEGUN = 1` (R122). -/
  | reconfigAfterBegin
  /-- SHOW with `N > 0`, `BEGUN = 1`, engine not Idle (R123). -/
  | sendWhileBusy
  /-- A command that would write the buffer, engine not Idle (R124). -/
  | bufferWriteInFlight
  /-- TICK, stream `D` reads a byte with `d[7:1] != 0` (R125). -/
  | nonBinaryBufferByte
  deriving DecidableEq, Repr

/-- The buffer memory: address and byte pairs, addresses strictly rising, no byte equal to what an
unlisted address reads as (Machine/Ops.lean; R17, R31). -/
abbrev Memory := List Host.Cell

/-- The engine registers (R19 to R22). -/
structure Engine where
  /-- `ENG.STATE`. -/
  state : EngState
  /-- `ENG.TC`, the completion flag. -/
  tc : Bool
  /-- `ENG.OVF`, the overflow counter of the dead-time generator. -/
  ovf : Ticks
  /-- `ENG.PTR`. -/
  ptr : Count
  /-- `ENG.LEN`. -/
  len : Count
  deriving DecidableEq, Repr

/-- The timer registers (R23, R24). -/
structure Timer where
  /-- `TIM.RUN`. -/
  run : Bool
  /-- `TIM.CNT`. -/
  cnt : Ticks
  /-- `TIM.ARR`. -/
  arr : Ticks
  /-- `TIM.CCR1`. -/
  ccr1 : Ticks
  /-- `TIM.CCR2`. -/
  ccr2 : Ticks
  /-- `TIM.UDE`. -/
  ude : Bool
  /-- `TIM.CC1DE`. -/
  cc1de : Bool
  /-- `TIM.CC2DE`. -/
  cc2de : Bool
  /-- `TIM.UIE`. -/
  uie : Bool
  deriving DecidableEq, Repr

/-- The registers every DMA stream has (R25). -/
structure Stream where
  /-- `DMA[s].EN`. -/
  en : Bool
  /-- `DMA[s].CNT`, transfers still to do. -/
  cnt : Count
  /-- `DMA[s].TCF`, set when `CNT` reaches 0. -/
  tcf : Bool
  deriving DecidableEq, Repr

/-- The three streams, and `DMA[D].SRC`, the buffer address of stream `D`'s next read (R25). -/
structure Dma where
  h : Stream
  d : Stream
  l : Stream
  src : Count
  deriving DecidableEq, Repr

/-- The GPIO driver (R26). -/
structure Gpio where
  /-- `GPIO.MODE`: false, the pin is not driven; true, `dout` shows `GPIO.OUT`. -/
  mode : Bool
  /-- `GPIO.OUT`, the output latch. -/
  out : Bool
  deriving DecidableEq, Repr

/-- What can happen to the block at its ports (R5, R30, R141). The spec leaves the program and the
interleaving free (R29); the model holds them as a list of these (DESIGN CHOICE, safe, log 2). -/
inductive Event where
  /-- The host's command word is accepted on the command port. -/
  | cmd (w : CmdWord)
  /-- A rising edge of `clk`: a TICK while `TIM.RUN = 1`. -/
  | clk
  /-- A rising edge of `clk` with `rst = 1`. -/
  | rst
  deriving DecidableEq, Repr

/-- The complete state: every row of the table of R13, the response port of R30, and the model's own two
fields, the parameters of R7 (log 1) and the events to come (log 2). -/
structure State where
  /-- The model's own: the parameters of this instance, never changed by a step (R7, R29). -/
  cfg : Config
  /-- `N`, the pixel count (R14). -/
  n : Index
  /-- `ORDER` (R15). -/
  order : Order
  /-- `BRT`, the stored brightness (R16). -/
  brt : Byte
  /-- `BUF` (R17). -/
  buf : Memory
  /-- `BEGUN` (R18). -/
  begun : Bool
  /-- `ENG.*`. -/
  eng : Engine
  /-- `TIM.*`. -/
  tim : Timer
  /-- `DMA[s].*`. -/
  dma : Dma
  /-- `GPIO.*`. -/
  gpio : Gpio
  /-- `FAULT`, the record of the first model fault (R27). -/
  fault : BitVec 8
  /-- The response port: `none` is `rsp_valid = 0`, `some v` is `rsp_data = v` (R30, R51; log 9). -/
  rsp : Option Colour
  /-- The model's own: the events still to come, the next one first (R29; log 2). -/
  schedule : List Event
  deriving DecidableEq, Repr

/-- Why the machine stops. -/
inductive Fault where
  /-- Raised by `step` alone: a model fault is recorded and the next event is no reset, so "no step is
  enabled: the model stops" (R118). Safe: no claim is made about what the hardware does next. -/
  | stopped (code : BitVec 8)
  /-- Raised by a command or by stream `D` for an access at or above `BUF_BYTES`, an address that does not
  exist (R31). No state that meets the size invariant of R62 reaches it. Safe: the model stops (log 8). -/
  | noSuchBufferAddress
  deriving DecidableEq, Repr

/-- Why the model gives an instruction no meaning. -/
inductive Refusal where
  /-- Raised by an arm of `exec` whose instruction has no meaning yet. Safe: the model stops. No arm of
  this model raises it. -/
  | notModelled (mnemonic : String)
  deriving DecidableEq, Repr

/-- What a step, a command or a clock edge answers. -/
abbrev Result := Host.Outcome State Fault Refusal

/-- The engine registers at reset: `ENG.TC = 1`, the rest 0 (R142). -/
def Engine.reset : Engine := { state := .idle, tc := true, ovf := 0, ptr := 0, len := 0 }

/-- The timer registers at reset (R142). -/
def Timer.reset : Timer :=
  { run := false, cnt := 0, arr := 0, ccr1 := 0, ccr2 := 0,
    ude := false, cc1de := false, cc2de := false, uie := false }

/-- A stream at reset (R142). -/
def Stream.reset : Stream := { en := false, cnt := 0, tcf := false }

/-- The DMA registers at reset (R142). -/
def Dma.reset : Dma := { h := .reset, d := .reset, l := .reset, src := 0 }

/-- The GPIO driver at reset: the pin is not driven (R142). -/
def Gpio.reset : Gpio := { mode := false, out := false }

/-- The reset values of R142 for an instance with the parameters `cfg`. The contents of `BUF` are
unspecified at reset (R143); nothing is listed (log 5). -/
def State.resetWith (cfg : Config) : State where
  cfg := cfg
  n := 0
  order := .grb
  brt := 0
  buf := []
  begun := false
  eng := .reset
  tim := .reset
  dma := .reset
  gpio := .reset
  fault := 0
  rsp := none
  schedule := []

/-- The machine right after reset, with the default parameters of R7. -/
def State.reset : State := State.resetWith Config.default

end Sys2Proof.Machine
end

