-- ==== Sys2Proof/Machine/Ops.lean ====
section
/-! DEFINITION. The named operations: reading and writing the buffer memory, the response, raising a model
fault (R118), the two interrupt handlers (R91, R103), the reset edge (R141), the pins (R30), and taking
the next event. -/

namespace Sys2Proof.Machine

/-! ### The buffer memory (R9, R17, R31) -/

/-- What a byte that is not listed reads as. R143: the contents at reset are unspecified and "a model may
take any contents, or all zero". DESIGN CHOICE, unsafe, log 5. -/
def Memory.unlisted : Byte := 0

/-- `BUF[a]` (R9). -/
def Memory.read : Memory → Nat → Byte
  | [], _ => Memory.unlisted
  | (x, b) :: m, a => if x = a then b else Memory.read m a

/-- `BUF[a] <- v` (R9), keeping the canonical form. -/
def Memory.write : Memory → Nat → Byte → Memory
  | [], a, v => if v = Memory.unlisted then [] else [(a, v)]
  | (x, b) :: m, a, v =>
    if a < x then (if v = Memory.unlisted then (x, b) :: m else (a, v) :: (x, b) :: m)
    else if x = a then (if v = Memory.unlisted then m else (a, v) :: m)
    else (x, b) :: Memory.write m a v

/-- `for a in 0 .. len - 1: BUF[a] <- 0x00` (R65, R71). Zero is what an unlisted byte reads as, so the
entries below `len` go; Laws/Memory.lean shows that this is the loop of single writes. -/
def Memory.zeroBelow (m : Memory) (len : Nat) : Memory := m.filter (fun c => len ≤ c.1)

/-- The canonical form: addresses strictly rising, no listed byte equal to what an unlisted one reads as. -/
abbrev Memory.wf (m : Memory) : Prop :=
  m.Pairwise (fun x y => x.1 < y.1) ∧ ∀ c ∈ m, c.2 ≠ Memory.unlisted

/-- The byte for position `i` of `v`, "MSB first, one output byte = one bit (value 0 or 1)" (R56). -/
def bitByte (v : Byte) (i : Nat) : Byte := if v.getLsbD (7 - i) then 0x01 else 0x00

/-- `expand8(base, v)` (R56). -/
def expand8 (m : Memory) (base : Nat) (v : Byte) : Memory :=
  (List.range 8).foldl (fun m i => m.write (base + i) (bitByte v i)) m

/-- `collapse8(base)`, the logical byte at `base` (R57). -/
def collapse8 (m : Memory) (base : Nat) : Byte :=
  BitVec.ofNat 8 ((List.range 8).foldl
    (fun acc i => acc + ((m.read (base + i)).getLsbD 0).toNat <<< (7 - i)) 0)

/-- An access to the `len` bytes at `base`: `k` where they lie below `BUF_BYTES`, else the named fault for
an address that does not exist (R31; log 8). -/
def State.withRange (s : State) (base len : Nat) (k : Result) : Result :=
  if base + len ≤ s.cfg.bufBytes then k else .fault .noSuchBufferAddress

/-! ### Responses (R9, R51) -/

/-- `Respond(v)` (R9). -/
def State.respond (s : State) (v : Colour) : State := { s with rsp := some v }

/-! ### Model faults (R118) -/

/-- The code of a model fault (the table of R118). -/
def ModelFault.code : ModelFault → BitVec 8
  | .illegalCommand => 0x01
  | .showBeforeBegin => 0x02
  | .beginTwice => 0x03
  | .reconfigAfterBegin => 0x04
  | .sendWhileBusy => 0x05
  | .bufferWriteInFlight => 0x06
  | .nonBinaryBufferByte => 0x07

/-- `raise Fault(name)`: "if `FAULT = 0` then `FAULT <- code(name)`", and nothing else (R118). -/
def State.raise (s : State) (f : ModelFault) : State :=
  if s.fault = 0 then { s with fault := f.code } else s

/-! ### The interrupt handlers (R131: zero latency, nothing saved, fixed handlers) -/

/-- IRQ_DMA, Transmitting to DeadTime (R91). -/
def irqDma (s : State) : State :=
  { s with
    dma := { s.dma with
      h := { s.dma.h with en := false }
      d := { s.dma.d with en := false }
      l := { s.dma.l with en := false } }
    tim := { s.tim with ude := false, cc1de := false, cc2de := false, uie := true }
    eng := { s.eng with state := .deadTime } }

/-- The end of the dead time, DeadTime to Idle (R103, R104). -/
def endDeadTime (s : State) : State :=
  { s with
    tim := { s.tim with run := false, uie := false, cnt := 0 }
    eng := { s.eng with ovf := 0, tc := true, state := .idle } }

/-- `ENG.OVF <- ENG.OVF + 1` (R103). -/
def countOverflow (s : State) : State := { s with eng := { s.eng with ovf := s.eng.ovf + 1 } }

/-- IRQ_OVF: count, and at `DEAD_OVERFLOWS` end the dead time (R103). -/
def irqOvf (s : State) : State :=
  if (countOverflow s).eng.ovf.toNat = s.cfg.deadOverflows then endDeadTime (countOverflow s)
  else countOverflow s

/-! ### The reset edge (R141) -/

/-- "every piece of state takes the reset value of rule R142, whatever it held"; the memory is not cleared
(R143), and the parameters and the events to come are no state of the block (log 4). -/
def resetEdge (s : State) : State :=
  { State.resetWith s.cfg with buf := s.buf, schedule := s.schedule }

/-! ### The pins (R30) -/

/-- Pin `tc`: equals `ENG.TC` at all times (R30). -/
def State.tcPin (s : State) : Bool := s.eng.tc

/-- Pin `dout`: `none` (high impedance) while `GPIO.MODE = 0`, else `GPIO.OUT` (R26, R30). -/
def State.dout (s : State) : Option Bool := if s.gpio.mode then some s.gpio.out else none

/-! ### The next event (R5, R29; log 2) -/

/-- The next event: the head of the schedule; a clock edge where nothing is scheduled (log 2). -/
def State.nextEvent (s : State) : Event :=
  match s.schedule with
  | [] => .clk
  | e :: _ => e

/-- The state as the next event finds it: the event is taken from the schedule, and the response of the step
before is gone, since a response stands only "in the step that executes it" (R51; log 9). -/
def State.takeEvent (s : State) : State := { s with schedule := s.schedule.tail, rsp := none }

end Sys2Proof.Machine
end

