-- ==== Sys2Proof/Machine/Operands.lean ====
section
/-! DEFINITION. Every operand form (R46, R49), the range test of a pixel index (R37), the arithmetic of
brightness (R58 to R61), and the codes of the named registers (R15, R19, R50). -/

namespace Sys2Proof.Machine

/-! ### Codes (R15, R49, R50) -/

/-- The code of `ORDER`: 0 = GRB, 1 = RGB, 2 = BRG, 3 = RBG (R15, R49). -/
def Order.code : Order → BitVec 2
  | .grb => 0
  | .rgb => 1
  | .brg => 2
  | .rbg => 3

/-- `ORDER <- c` for a 2-bit code (R15, R49). -/
def Order.ofCode (c : BitVec 2) : Order :=
  match c.toNat with
  | 0 => .grb
  | 1 => .rgb
  | 2 => .brg
  | _ => .rbg

/-- The code of `ENG.STATE`: 0 = Idle, 1 = Transmitting, 2 = DeadTime (R19, R50). -/
def EngState.code : EngState → BitVec 2
  | .idle => 0
  | .transmitting => 1
  | .deadTime => 2

/-- `tf[1:0]`, the channel order of the type flags (R49). -/
def orderOfFlags (tf : Byte) : Order := Order.ofCode (tf.extractLsb' 0 2)

/-! ### Pixel indices (R32, R37) -/

/-- "an index `>= N` is out of range" (R37). -/
def State.inRange (s : State) (index : Index) : Bool := index.toNat < s.n.toNat

/-- The base address of a pixel's slot, `24 * index` (R32, R37). -/
def slotBase (index : Index) : Nat := 24 * index.toNat

/-- The size of the valid region, `24 * N` bytes (R32). -/
def State.validBytes (s : State) : Nat := 24 * s.n.toNat

/-! ### Brightness (R16, R58 to R61) -/

/-- `(level + 1) mod 256`, the stored brightness of a level (R16, R72). -/
def storedLevel (level : Byte) : Byte := level + 1

/-- `Feff(B) = 256 if B = 0 else B` (R58). -/
def feff (b : Byte) : Nat := if b = 0 then 256 else b.toNat

/-- `scale_in(ch, B) = (ch * Feff(B)) >> 8` (R59). -/
def scaleIn (ch b : Byte) : Byte := BitVec.ofNat 8 ((ch.toNat * feff b) >>> 8)

/-- `scale_out(c, B) = min(255, (c << 8) / Feff(B))` (R60). -/
def scaleOut (c b : Byte) : Byte := BitVec.ofNat 8 (min 255 ((c.toNat <<< 8) / feff b))

/-- `rescale_factor(Bold, Bnew) = min(65535, Feff(Bnew) << 8) / Feff(Bold)` (R61). -/
def rescaleFactor (bold bnew : Byte) : Nat := min 65535 (feff bnew <<< 8) / feff bold

/-- `rescale(c, s) = min(255, (c * s) >> 8)` (R61). -/
def rescale (c : Byte) (s : Nat) : Byte := BitVec.ofNat 8 (min 255 ((c.toNat * s) >>> 8))

/-! ### Channel order on read-back (the table of R70) -/

/-- `rOff`: the position of red among the logical bytes (R70). -/
def rOff : Order → Nat
  | .grb => 1
  | .rgb => 0
  | .brg => 1
  | .rbg => 0

/-- `gOff`: the position of green among the logical bytes (R70). -/
def gOff : Order → Nat
  | .grb => 0
  | .rgb => 1
  | .brg => 2
  | .rbg => 2

/-- `bOff`: the position of blue among the logical bytes (R70). -/
def bOff : Order → Nat
  | .grb => 2
  | .rgb => 2
  | .brg => 0
  | .rbg => 1

/-! ### Streams by name (R25) -/

/-- `DMA[s]`, read. -/
def Dma.stream (x : Dma) : StreamId → Stream
  | .h => x.h
  | .d => x.d
  | .l => x.l

/-- `DMA[s]`, written. -/
def Dma.setStream (x : Dma) (i : StreamId) (v : Stream) : Dma :=
  match i with
  | .h => { x with h := v }
  | .d => { x with d := v }
  | .l => { x with l := v }

end Sys2Proof.Machine
end

