-- ==== Sys2Proof/Machine/Flags.lean ====
section
/-! DEFINITION. The flags of the block and the rules that set and clear them: the completion flag `ENG.TC`
(R20), the three stream flags `DMA[s].TCF` (R25, R80, R86), and the flag test of a stream request. -/

namespace Sys2Proof.Machine

/-- POLL's value, `zext_24(ENG.TC)` (R51, R113). -/
def tcWord (tc : Bool) : Colour := if tc then 0x000001 else 0x000000

/-- A request to stream `s` is dropped when `DMA[s].EN = 0 or DMA[s].CNT = 0` (R86). -/
def Stream.drops (x : Stream) : Bool := !x.en || x.cnt == 0

/-- After a transfer: `CNT <- CNT - 1`, and `TCF <- 1` when that is 0 (R86). -/
def Stream.countDown (x : Stream) : Stream :=
  { x with cnt := x.cnt - 1, tcf := x.tcf || x.cnt - 1 == 0 }

/-- `TCF <- 0`, `CNT <- len`, `EN <- 1` (R80, steps 2, 3 and 5). -/
def Stream.arm (len : Count) : Stream := { en := true, cnt := len, tcf := false }

end Sys2Proof.Machine
end

