-- ==== Sys2Proof/Machine/PixelBuffer.lean ====
section
/-! DEFINITION. The pixel-buffer encoder and its commands (40_pixel_buffer.md): ULEN, UTYPE, SETRGB, SETPK,
GETPIX, CLEAR, SETBRT, NUMPIX, with `resize` (R65), the slot writer and reader, and `rawView` (R74). Each
command tests its conditions in the order of R139. -/

namespace Sys2Proof.Machine

/-! ### The operations behind the commands -/

/-- `resize(n)`: allocation failure leaves `N = 0`, else `N <- n` and the whole new valid region is zeroed
(R65). Bytes outside it are kept (log 6). -/
def resize (n : Index) (s : State) : State :=
  if s.cfg.maxPixels < n.toNat then { s with n := 0 }
  else { s with n := n, buf := s.buf.zeroBelow (24 * n.toNat) }

/-- The three `expand8` of SETRGB: green, red, blue at offsets 0, 8, 16, scaled on the way in (R33, R68). -/
def writeSlot (m : Memory) (base : Nat) (brt r g b : Byte) : Memory :=
  expand8 (expand8 (expand8 m base (scaleIn g brt)) (base + 8) (scaleIn r brt)) (base + 16) (scaleIn b brt)

/-- A colour role on read-back: the logical byte at position `off`, inverse-scaled (R70). -/
def readRole (m : Memory) (base off : Nat) (brt : Byte) : Byte :=
  scaleOut (collapse8 m (base + 8 * off)) brt

/-- The packed colour GETPIX responds for the slot at `base` (R70). -/
def readSlot (m : Memory) (base : Nat) (order : Order) (brt : Byte) : Colour :=
  packColour (readRole m base (rOff order) brt) (readRole m base (gOff order) brt)
    (readRole m base (bOff order) brt)

/-- `expand8(base, rescale(collapse8(base), s))` (R72). -/
def rescaleRegion (factor : Nat) (m : Memory) (base : Nat) : Memory :=
  expand8 m base (rescale (collapse8 m base) factor)

/-- SETBRT's inner loop `for k in 0..2` over the sub-regions of pixel `p` (R72). -/
def rescaleSlot (factor : Nat) (m : Memory) (p : Nat) : Memory :=
  (List.range 3).foldl (fun m k => rescaleRegion factor m (24 * p + 8 * k)) m

/-- SETBRT's outer loop `for p in 0 .. N - 1` (R72). -/
def rescaleAll (factor : Nat) (m : Memory) (n : Nat) : Memory :=
  (List.range n).foldl (rescaleSlot factor) m

/-- `rawView()` = `(0, 24 * N)`, the engine's view of the buffer (R74). -/
def rawView (s : State) : Count × Nat := (0, s.validBytes)

/-! ### The commands -/

/-- ULEN (R66). -/
def execUlen (n : Index) (s : State) : Result :=
  if s.begun then .next (s.raise .reconfigAfterBegin) else .next (resize n s)

/-- UTYPE (R67). -/
def execUtype (tf : Byte) (s : State) : Result :=
  if s.begun then .next (s.raise .reconfigAfterBegin) else .next { s with order := orderOfFlags tf }

/-- The body of SETRGB (R68), which SETPK forwards to (R69). -/
def setPixel (index : Index) (r g b : Byte) (s : State) : Result :=
  if s.inRange index then
    if s.eng.state ≠ .idle then .next (s.raise .bufferWriteInFlight)
    else s.withRange (slotBase index) 24
      (.next { s with buf := writeSlot s.buf (slotBase index) s.brt r g b })
  else .next s

/-- SETRGB (R68). -/
def execSetrgb (index : Index) (r g b : Byte) (s : State) : Result := setPixel index r g b s

/-- SETPK: "unpacks a 24-bit value" and forwards to SETRGB (R69). -/
def execSetpk (index : Index) (c : Colour) (s : State) : Result :=
  setPixel index (redOf c) (greenOf c) (blueOf c) s

/-- GETPIX (R70). -/
def execGetpix (index : Index) (s : State) : Result :=
  if s.inRange index then
    s.withRange (slotBase index) 24
      (.next (s.respond (readSlot s.buf (slotBase index) s.order s.brt)))
  else .next (s.respond 0x000000)

/-- CLEAR (R71). -/
def execClear (s : State) : Result :=
  if s.n = 0 then .next s
  else if s.eng.state ≠ .idle then .next (s.raise .bufferWriteInFlight)
  else s.withRange 0 s.validBytes (.next { s with buf := s.buf.zeroBelow s.validBytes })

/-- SETBRT (R72). -/
def execSetbrt (level : Byte) (s : State) : Result :=
  let bnew := storedLevel level
  if bnew = s.brt then .next s
  else if s.n ≠ 0 ∧ s.eng.state ≠ .idle then .next (s.raise .bufferWriteInFlight)
  else s.withRange 0 s.validBytes
    (.next { s with
      buf := rescaleAll (rescaleFactor s.brt bnew) s.buf s.n.toNat
      brt := bnew })

/-- NUMPIX (R73). -/
def execNumpix (s : State) : Result := .next (s.respond (s.n.setWidth 24))

end Sys2Proof.Machine
end

