-- ==== Sys2Proof/Machine/Engine.lean ====
section
/-! DEFINITION. The bit-timing engine (41_transmission_engine.md) and the dead-time generator
(42_dead_time.md): `hardware_init`, `hardware_send`, `send`, and the TICK with its events, DMA requests, GPIO
writes and interrupt handlers. -/

namespace Sys2Proof.Machine

/-! ### The boundary operations (R78 to R80) -/

/-- `hardware_init(ptr)` (R78). -/
def hardwareInit (ptr : Count) (s : State) : State :=
  { s with
    gpio := { out := false, mode := true }
    tim := { s.tim with
      arr := BitVec.ofNat 16 (s.cfg.periodTicks - 1)
      ccr1 := BitVec.ofNat 16 s.cfg.c1Ticks
      ccr2 := BitVec.ofNat 16 s.cfg.c2Ticks }
    eng := { s.eng with ptr := ptr } }

/-- `hardware_send(ptr, len)`, Idle to Transmitting, as one state update (R80, R81). -/
def hardwareSend (ptr len : Count) (s : State) : State :=
  { s with
    eng := { s.eng with tc := false, ptr := ptr, len := len, state := .transmitting }
    dma := { h := .arm len, d := .arm len, l := .arm len, src := ptr }
    tim := { s.tim with cnt := s.tim.arr, ude := true, cc1de := true, cc2de := true, run := true } }

/-- `send(ptr, len)` (R79). -/
def send (ptr : Count) (len : Nat) (s : State) : Result :=
  if len = 0 then .next s
  else if s.eng.state ≠ .idle then .next (s.raise .sendWhileBusy)
  else .next (hardwareSend ptr (BitVec.ofNat 21 len) s)

/-! ### The GPIO driver (R90) -/

/-- `W_HIGH` (R52, R87). -/
def wHigh : Byte := 0x01

/-- `W_LOW` (R52, R89). -/
def wLow : Byte := 0x01

/-- What a write of `d` to a port leaves in the latch: bits `d[7:1]` have no effect (R90). -/
def portValue (port : Port) (d : Byte) (out : Bool) : Bool :=
  match port with
  | .set => out || d.getLsbD 0
  | .and => out && d.getLsbD 0
  | .clr => out && !d.getLsbD 0

/-- `GPIOWRITE(port, d)` (R90). -/
def gpioWrite (port : Port) (d : Byte) (s : State) : State :=
  { s with gpio := { s.gpio with out := portValue port d s.gpio.out } }

/-! ### The DMA gate (R86 to R89) -/

/-- Why a TICK is discarded as a whole: a model fault raised inside it (R118, R125), or a read of an
address that does not exist (log 8). -/
inductive Discard where
  | raised (f : ModelFault)
  | outside
  deriving DecidableEq, Repr

/-- What an event inside a TICK answers: the state after it, or why the TICK is discarded. -/
abbrev Effect := Except Discard State

/-- `DMA[D].SRC <- DMA[D].SRC + 1` (R88). -/
def advanceSrc (s : State) : State := { s with dma := { s.dma with src := s.dma.src + 1 } }

/-- `d <- BUF[DMA[D].SRC]`, the byte stream `D` reads next (R88). -/
def nextByte (s : State) : Byte := s.buf.read s.dma.src.toNat

/-- The transfer of stream `D`: read a buffer byte, advance `SRC`, write the byte to port `AND`; a byte
with `d[7:1] != 0` raises NonBinaryBufferByte (R88, R125). -/
def transferD (s : State) : Effect :=
  if s.dma.src.toNat < s.cfg.bufBytes then
    if (nextByte s).extractLsb' 1 7 ≠ 0 then .error (.raised .nonBinaryBufferByte)
    else .ok (gpioWrite .and (nextByte s) (advanceSrc s))
  else .error .outside

/-- `transfer(s)`: exactly one GPIOWRITE (R87 to R89). -/
def transfer (i : StreamId) (s : State) : Effect :=
  match i with
  | .h => .ok (gpioWrite .set wHigh s)
  | .d => transferD s
  | .l => .ok (gpioWrite .clr wLow s)

/-- After a transfer: count down, and set the stream's flag at 0 (R86). -/
def countStream (i : StreamId) (s : State) : State :=
  { s with dma := s.dma.setStream i (s.dma.stream i).countDown }

/-- Count a transfer, and run IRQ_DMA when it was the last one of stream `L` (R86). -/
def countTransfer (i : StreamId) (s : State) : State :=
  if ((countStream i s).dma.stream i).cnt = 0 ∧ i = .l then irqDma (countStream i s) else countStream i s

/-- `DMAREQ(s)` (R86). -/
def dmaReq (i : StreamId) (s : State) : Effect :=
  if (s.dma.stream i).drops then .ok s
  else match transfer i s with
    | .ok s' => .ok (countTransfer i s')
    | .error e => .error e

/-! ### The timer tick (R82 to R85) -/

/-- The counter after a tick: it wraps at the reload value (R82). -/
def nextCount (t : Timer) : Ticks := if t.cnt = t.arr then 0 else t.cnt + 1

/-- The first part of a TICK: the counter advances (R82). -/
def advance (s : State) : State := { s with tim := { s.tim with cnt := nextCount s.tim } }

/-- The event of a TICK, chosen by the new count; the three tests in the order of R82. -/
def timerEvent (t : Timer) : TimerEvent :=
  if t.cnt = 0 then .update
  else if t.cnt = t.ccr1 then .cc1
  else if t.cnt = t.ccr2 then .cc2
  else .none

/-- The second half of UPDATE: IRQ_OVF while `TIM.UIE = 1` (R83). -/
def overflow (s : State) : State := if s.tim.uie then irqOvf s else s

/-- UPDATE (R83). -/
def updateEvent (s : State) : Effect :=
  match (if s.tim.ude then dmaReq .h s else .ok s) with
  | .ok s' => .ok (overflow s')
  | .error e => .error e

/-- CC1 (R84). -/
def cc1Event (s : State) : Effect := if s.tim.cc1de then dmaReq .d s else .ok s

/-- CC2 (R85). -/
def cc2Event (s : State) : Effect := if s.tim.cc2de then dmaReq .l s else .ok s

/-- TICK (R82). -/
def tick (s : State) : Effect :=
  let advanced := advance s
  match timerEvent advanced.tim with
  | .update => updateEvent advanced
  | .cc1 => cc1Event advanced
  | .cc2 => cc2Event advanced
  | .none => .ok advanced

/-- The outcome of a TICK: where a model fault is raised "the whole TICK is discarded, including the counter
advance" and only FAULT is written (R118, R125). -/
def settle (before : State) : Effect → Result
  | .ok s => .next s
  | .error (.raised f) => .next (before.raise f)
  | .error .outside => .fault .noSuchBufferAddress

/-- A rising edge of `clk`: a TICK while `TIM.RUN = 1` (R30, R82); nothing while the timer is stopped
(log 3). -/
def clockEdge (s : State) : Result := if s.tim.run then settle s (tick s) else .next s

end Sys2Proof.Machine
end

