-- ==== Sys2Proof/Machine/Controller.lean ====
section
/-! DEFINITION. The strip controller (43_strip_controller.md): STRIP, BEGIN, SHOW, POLL. -/

namespace Sys2Proof.Machine

/-- STRIP, construction (R110). -/
def execStrip (n : Index) (tf : Byte) (s : State) : Result :=
  if s.begun then .next (s.raise .reconfigAfterBegin)
  else .next (resize n { s with order := orderOfFlags tf, brt := 0 })

/-- BEGIN, hardware bring-up (R111). -/
def execBegin (s : State) : Result :=
  if s.begun then .next (s.raise .beginTwice)
  else .next { hardwareInit 0 s with begun := true }

/-- SHOW, start a frame (R112). -/
def execShow (s : State) : Result :=
  if s.n = 0 then .next s
  else if s.begun = false then .next (s.raise .showBeforeBegin)
  else send (rawView s).1 (rawView s).2 s

/-- POLL, read the completion flag (R113). -/
def execPoll (s : State) : Result := .next (s.respond (tcWord s.eng.tc))

end Sys2Proof.Machine
end

