-- ==== Sys2Proof/Machine/Dispatch.lean ====
section
/-! DEFINITION. The dispatch: one arm per command. -/

namespace Sys2Proof.Machine

/-- What a command does (R139 fixes the order of the tests inside each). -/
def exec (i : Instr) (s : State) : Host.Outcome State Fault Refusal :=
  match i with
  | .strip n tf => Sys2Proof.Machine.execStrip n tf s
  | .ulen n => Sys2Proof.Machine.execUlen n s
  | .utype tf => Sys2Proof.Machine.execUtype tf s
  | .begin_ => Sys2Proof.Machine.execBegin s
  | .show_ => Sys2Proof.Machine.execShow s
  | .poll => Sys2Proof.Machine.execPoll s
  | .numpix => Sys2Proof.Machine.execNumpix s
  | .setrgb index r g b => Sys2Proof.Machine.execSetrgb index r g b s
  | .setpk index c => Sys2Proof.Machine.execSetpk index c s
  | .getpix index => Sys2Proof.Machine.execGetpix index s
  | .clear => Sys2Proof.Machine.execClear s
  | .setbrt level => Sys2Proof.Machine.execSetbrt level s

end Sys2Proof.Machine
end

