-- ==== Sys2Proof/Machine/Accept.lean ====
section
/-! DEFINITION. What one event does: accepting a command word, a clock edge, a reset edge, and the stop
after a model fault (R30, R118, R119, R141). -/

namespace Sys2Proof.Machine

/-- A command word is accepted: decode comes "before everything else" (R130, R139); a reserved word raises
IllegalCommand and changes nothing else (R48, R119). -/
def acceptWord (w : CmdWord) (s : State) : Result :=
  match decode w with
  | .ok i => exec i s
  | .error _ => .next (s.raise .illegalCommand)

/-- "Once `FAULT != 0` no step is enabled: the model stops" (R118). -/
def enabled (s : State) (k : Result) : Result := if s.fault = 0 then k else .fault (.stopped s.fault)

/-- One event. Reset is possible in any state and alone clears FAULT (R27, R141). -/
def handleEvent (e : Event) (s : State) : Result :=
  match e with
  | .cmd w => enabled s (acceptWord w s)
  | .clk => enabled s (clockEdge s)
  | .rst => .next (resetEdge s)

/-- The schedule with one more command word in front: the word the block accepts next (log 13). -/
def State.presentWord (s : State) (w : CmdWord) : State := { s with schedule := .cmd w :: s.schedule }

end Sys2Proof.Machine
end

