-- ==== Sys2Proof/Machine/Step.lean ====
section
/-! DEFINITION. One step: the next event of the schedule (R5, R29). -/

namespace Sys2Proof.Machine

/-- One atomic step of the block: take the next event and let it happen (R5, R41). -/
def step (s : State) : Host.Outcome State Fault Refusal := handleEvent s.nextEvent s.takeEvent

/-- The command word whose bits are `w`, numbered as spec/opcode_table.json numbers them, is what the
block accepts next; the bits above `nbits` are zero (log 13). -/
def State.withFetchWord (s : State) (nbits w : Nat) : State :=
  s.presentWord (BitVec.ofNat 48 (w % 2 ^ nbits))

end Sys2Proof.Machine
end

