-- ==== Sys2Proof/Safety.lean ====
section
/-! DEFINITION. What counts as a safe run, in the terms the statements use: the invariants of R62 to R64
and R95, the table of R145 of which command is legal when, and the runs of R94 in which the host only waits and
reads. Nothing here is used by the machine. -/

namespace Sys2Proof.Machine

/-- "In flight: `STATE` is Transmitting or DeadTime" (R11). -/
def State.inFlight (s : State) : Prop := s.eng.state ≠ .idle

/-- The invariants of the buffer: size (R62), binary bytes (R63), channel bound (R64), with the canonical
form of the memory and the address space of R31. -/
structure BufferInv (s : State) : Prop where
  /-- R62: `N <= MAX_PIXELS`. -/
  size : s.n.toNat ≤ s.cfg.maxPixels
  /-- The memory is in its canonical form. -/
  canonical : s.buf.wf
  /-- R31: no byte is listed at or above `BUF_BYTES`. -/
  inside : ∀ c ∈ s.buf, c.1 < s.cfg.bufBytes
  /-- R63: every byte of the valid region is 0x00 or 0x01. -/
  binary : ∀ a < s.validBytes, s.buf.read a = 0x00 ∨ s.buf.read a = 0x01
  /-- R64: `collapse8(24 * p + 8 * k) <= Feff(BRT) - 1`. -/
  channel : ∀ p < s.n.toNat, ∀ k < 3, (collapse8 s.buf (24 * p + 8 * k)).toNat < feff s.brt

/-- The invariants of the engine (R95 (a) to (e), (g), (i), (j)), with the timer configuration BEGIN left
(R23) and the pointer that is always 0 (R22). -/
structure EngineInv (s : State) : Prop where
  /-- R95 (a). -/
  tc : s.eng.tc = true ↔ s.eng.state = .idle
  /-- R95 (b). -/
  run : s.tim.run = true ↔ s.eng.state ≠ .idle
  /-- R95 (c), the request lines. -/
  lines : (s.tim.ude = true ↔ s.eng.state = .transmitting) ∧
    (s.tim.cc1de = true ↔ s.eng.state = .transmitting) ∧
    (s.tim.cc2de = true ↔ s.eng.state = .transmitting)
  /-- R95 (c), the channel enables. -/
  enables : (s.dma.h.en = true ↔ s.eng.state = .transmitting) ∧
    (s.dma.d.en = true ↔ s.eng.state = .transmitting) ∧
    (s.dma.l.en = true ↔ s.eng.state = .transmitting)
  /-- R95 (d). -/
  uie : s.tim.uie = true ↔ s.eng.state = .deadTime
  /-- R95 (e). -/
  ovf : s.eng.state ≠ .deadTime → s.eng.ovf = 0
  /-- R95 (e), R108. -/
  ovfLt : s.eng.ovf.toNat < s.cfg.deadOverflows
  /-- R95 (g): a frame is of the whole valid region of a begun, non-empty strip. -/
  frame : s.eng.state ≠ .idle →
    s.begun = true ∧ s.n ≠ 0 ∧ s.eng.len.toNat = s.validBytes
  /-- R22: `ENG.PTR` is always 0. -/
  ptr : s.eng.ptr = 0
  /-- R95 (i). -/
  low : s.eng.state ≠ .transmitting → s.gpio.out = false
  /-- R95 (j), and BEGIN's configuration of the pin (R26). -/
  mode : s.gpio.mode = s.begun
  /-- R23: BEGIN writes the timer base configuration and it "then never changes". -/
  config : s.begun = true → s.tim.arr.toNat = s.cfg.periodTicks - 1 ∧
    s.tim.ccr1.toNat = s.cfg.c1Ticks ∧ s.tim.ccr2.toNat = s.cfg.c2Ticks

/-- The bit period in progress, by the count of the timer: how far the three streams have come (R95 (f) in
the order that R82 to R89 give, log 12), and the level of the line (R93). -/
structure FrameInv (s : State) : Prop where
  /-- The counter stays within one period (R82). -/
  count : s.eng.state ≠ .idle → s.tim.cnt.toNat < s.cfg.periodTicks
  /-- Outside Transmitting no transfer is left to do (R104). -/
  done : s.eng.state ≠ .transmitting → s.dma.h.cnt = 0 ∧ s.dma.d.cnt = 0 ∧ s.dma.l.cnt = 0
  /-- R95 (f): stream `L` still has transfers to do, at most `ENG.LEN`. -/
  left : s.eng.state = .transmitting → 1 ≤ s.dma.l.cnt.toNat ∧ s.dma.l.cnt.toNat ≤ s.eng.len.toNat
  /-- R95 (f): `DMA[D].SRC = ENG.PTR + ENG.LEN - DMA[D].CNT`. -/
  src : s.eng.state ≠ .idle → s.dma.src.toNat + s.dma.d.cnt.toNat = s.eng.len.toNat
  /-- Before CC1 the line is high and the bit's two later transfers are still to do. -/
  early : s.eng.state = .transmitting → s.tim.cnt.toNat < s.cfg.c1Ticks →
    s.dma.h.cnt.toNat + 1 = s.dma.l.cnt.toNat ∧ s.dma.d.cnt = s.dma.l.cnt ∧ s.gpio.out = true
  /-- Between CC1 and CC2 the line shows the bit's byte. -/
  middle : s.eng.state = .transmitting → s.cfg.c1Ticks ≤ s.tim.cnt.toNat →
    s.tim.cnt.toNat < s.cfg.c2Ticks →
    s.dma.h.cnt.toNat + 1 = s.dma.l.cnt.toNat ∧ s.dma.d.cnt = s.dma.h.cnt ∧
    s.gpio.out = decide (s.buf.read (s.eng.len.toNat - s.dma.l.cnt.toNat) = 0x01)
  /-- From CC2 on, and before the first UPDATE of a frame, the line is low and the three counts agree. -/
  late : s.eng.state = .transmitting → s.cfg.c2Ticks ≤ s.tim.cnt.toNat →
    s.dma.h.cnt = s.dma.l.cnt ∧ s.dma.d.cnt = s.dma.l.cnt ∧ s.gpio.out = false
  /-- Before the first UPDATE of a frame the counter stands at the preload, the reload value (R80). -/
  fresh : s.eng.state = .transmitting → s.cfg.c2Ticks ≤ s.tim.cnt.toNat →
    s.dma.l.cnt.toNat = s.eng.len.toNat → s.tim.cnt.toNat + 1 = s.cfg.periodTicks
  /-- In flight a stream's flag is set exactly when its count is 0 (R25, R80, R86). -/
  flags : s.eng.state ≠ .idle →
    (s.dma.h.tcf = true ↔ s.dma.h.cnt = 0) ∧ (s.dma.d.tcf = true ↔ s.dma.d.cnt = 0) ∧
    (s.dma.l.tcf = true ↔ s.dma.l.cnt = 0)

/-- The invariants of the block together. -/
structure Inv (s : State) : Prop where
  buffer : BufferInv s
  engine : EngineInv s
  frame : FrameInv s

/-- The table of R145: the code of the fault a command records, 0 where its entry is "ok", "no-op" or a
response. The three columns are `BEGUN = 0`; `BEGUN = 1`, Idle; `BEGUN = 1`, in flight. -/
def faultOfTable (i : Instr) (s : State) : BitVec 8 :=
  match i with
  | .strip _ _ => if s.begun then 0x04 else 0x00
  | .ulen _ => if s.begun then 0x04 else 0x00
  | .utype _ => if s.begun then 0x04 else 0x00
  | .begin_ => if s.begun then 0x03 else 0x00
  | .show_ =>
    if s.n = 0 then 0x00
    else if s.begun = false then 0x02
    else if s.eng.state = .idle then 0x00 else 0x05
  | .poll => 0x00
  | .numpix => 0x00
  | .getpix _ => 0x00
  | .setrgb index _ _ _ =>
    if index.toNat < s.n.toNat ∧ s.eng.state ≠ .idle then 0x06 else 0x00
  | .setpk index _ =>
    if index.toNat < s.n.toNat ∧ s.eng.state ≠ .idle then 0x06 else 0x00
  | .clear => if s.n ≠ 0 ∧ s.eng.state ≠ .idle then 0x06 else 0x00
  | .setbrt level =>
    if level.toNat + 1 = feff s.brt then 0x00
    else if s.n ≠ 0 ∧ s.eng.state ≠ .idle then 0x06 else 0x00

/-- An event a host that keeps the contract of R146 may let happen: a clock edge, a reset, or a command
whose entry in the table of R145 is no fault. -/
def keepsContract (e : Event) (s : State) : Prop :=
  match e with
  | .clk => True
  | .rst => True
  | .cmd w => ∃ i, decode w = .ok i ∧ faultOfTable i s = 0x00

/-- The table of R47, row by row: match and mask. -/
def specTable : List (CmdWord × CmdWord) :=
  [(0x010000000000, 0xFF0000FFFFFC), (0x020000000000, 0xFF0000FFFFFF), (0x030000000000, 0xFFFFFFFFFFFC),
   (0x040000000000, 0xFFFFFFFFFFFF), (0x050000000000, 0xFFFFFFFFFFFF), (0x060000000000, 0xFFFFFFFFFFFF),
   (0x070000000000, 0xFFFFFFFFFFFF), (0x100000000000, 0xFF0000000000), (0x110000000000, 0xFF0000000000),
   (0x120000000000, 0xFF0000FFFFFF), (0x130000000000, 0xFFFFFFFFFFFF), (0x140000000000, 0xFFFFFFFFFF00)]

/-- The eight bytes at `base` hold the bits of `v`, most significant first, one byte per bit (R33, R56). -/
def holdsBits (m : Memory) (base : Nat) (v : Byte) : Prop :=
  ∀ i < 8, m.read (base + i) = if v.getLsbD (7 - i) then 0x01 else 0x00

/-- Every byte outside the addresses `lo` to `hi - 1` reads as before. -/
def sameOutside (lo hi : Nat) (m m' : Memory) : Prop := ∀ a, a < lo ∨ hi ≤ a → m'.read a = m.read a

/-- An event of a host that only waits and reads: a clock edge, or POLL, NUMPIX or GETPIX, the commands that
write no state (R113, R73, R70). -/
def readsOnly (e : Event) : Prop :=
  match e with
  | .clk => True
  | .rst => False
  | .cmd w => ∃ i, decode w = .ok i ∧ (i = .poll ∨ i = .numpix ∨ ∃ index, i = .getpix index)

/-- How many of the next `m` events are clock edges: those of the schedule, and every event after its end
(log 2). -/
def clockEdges (events : List Event) (m : Nat) : Nat := (events.take m).count .clk + (m - events.length)

/-- `k` steps of the machine. -/
def runSteps (k : Nat) (s : State) : Result := Host.Core.run Sys2Proof.core k s

/-- `ENG.LEN` of a frame of `N` pixels, in bit periods (R11, R94). -/
def frameBits (s : State) : Nat := 24 * s.n.toNat

/-- The TICK of R94 in which IRQ_DMA runs: `1 + (LEN - 1) * P + C2_TICKS`. -/
def lastBitTick (s : State) : Nat := 1 + (frameBits s - 1) * s.cfg.periodTicks + s.cfg.c2Ticks

/-- The TICK of R94 after which the engine is Idle again: `1 + (LEN + DOV - 1) * P`. -/
def idleTick (s : State) : Nat := 1 + (frameBits s + s.cfg.deadOverflows - 1) * s.cfg.periodTicks

end Sys2Proof.Machine
end

