-- ==== Sys2Proof/Certificates/Slice0/Obligations.lean ====
section
/-! DEFINITION. The statements for the provers, in the order of OBLIGATIONS.json. A statement that rests on a
choice of the model names its log entry. -/

section

open Sys2Proof Sys2Proof.Machine

/-! ### The command word -/

/-- V10 and V11: words written out by the spec, each decoding to the command it assembles. -/
def Obligations.SpecWordsDecode : Prop :=
  decode 0x010003000000 = .ok (.strip 3 0x00) ∧
  decode 0x010400000003 = .ok (.strip 1024 0x03) ∧
  decode 0x020014000000 = .ok (.ulen 20) ∧
  decode 0x030000000002 = .ok (.utype 0x02) ∧
  decode 0x040000000000 = .ok .begin_ ∧
  decode 0x050000000000 = .ok .show_ ∧
  decode 0x060000000000 = .ok .poll ∧
  decode 0x070000000000 = .ok .numpix ∧
  decode 0x100002A5F001 = .ok (.setrgb 2 0xA5 0xF0 0x01) ∧
  decode 0x110002A5F001 = .ok (.setpk 2 0xA5F001) ∧
  decode 0x12FFFF000000 = .ok (.getpix 65535) ∧
  decode 0x130000000000 = .ok .clear ∧
  decode 0x140000000080 = .ok (.setbrt 128)

/-- R45: the three fields of format C, each as a number cut from the number of the word. -/
def Obligations.FieldsOfTheCommandWord : Prop :=
  ∀ w : CmdWord,
    (fieldOpc w).toNat = w.toNat / 2 ^ 40 ∧
    (fieldA w).toNat = w.toNat / 2 ^ 24 % 2 ^ 16 ∧
    (fieldV w).toNat = w.toNat % 2 ^ 24

/-- R47, the columns match and mask: a word decodes exactly when it matches a row, no two rows match one
word, and the command it decodes to is the row's. -/
def Obligations.DecodeFollowsTheOpcodeTable : Prop :=
  (∀ w : CmdWord, (∃ i, decode w = .ok i) ↔ ∃ row ∈ specTable, w &&& row.2 = row.1) ∧
  (∀ w : CmdWord, ∀ row ∈ specTable, ∀ row' ∈ specTable,
    w &&& row.2 = row.1 → w &&& row'.2 = row'.1 → row = row') ∧
  (∀ (w : CmdWord) (i : Instr), decode w = .ok i →
    w &&& (opRow i).mask = (opRow i).pat ∧ ((opRow i).pat, (opRow i).mask) ∈ specTable)

/-- The round trip on commands: no bit of an operand is dropped by the encoder or the decoder. -/
def Obligations.DecodeOfEncode : Prop :=
  ∀ i : Instr, i.wf = true → decode (encode i) = .ok i

/-- The round trip on words: a command has one word only, and the decoder answers well-formed commands. -/
def Obligations.EncodeOfDecode : Prop :=
  ∀ (w : CmdWord) (i : Instr), decode w = .ok i → i.wf = true ∧ encode i = w

/-- R48 and R119: what is reserved, and that accepting a reserved word records IllegalCommand and nothing
else, whatever the state. -/
def Obligations.ReservedWordsRaiseIllegalCommand : Prop :=
  (∀ w : CmdWord, ∀ s : State, s.fault = 0x00 → (∀ row ∈ specTable, w &&& row.2 ≠ row.1) →
    acceptWord w s = .next { s with fault := 0x01 }) ∧
  (∀ w : CmdWord, (fieldOpc w = 0x00 ∨ (0x08 ≤ fieldOpc w ∧ fieldOpc w ≤ 0x0F) ∨ 0x15 ≤ fieldOpc w) →
    ∀ row ∈ specTable, w &&& row.2 ≠ row.1) ∧
  (∀ w : CmdWord, (fieldOpc w = 0x01 ∨ fieldOpc w = 0x03) → w.extractLsb' 2 6 ≠ 0 →
    ∀ row ∈ specTable, w &&& row.2 ≠ row.1) ∧
  (∀ row ∈ specTable, (0x000000000000 : CmdWord) &&& row.2 ≠ row.1 ∧
    (0xFFFFFFFFFFFF : CmdWord) &&& row.2 ≠ row.1)

/-- R49: the type flags of STRIP and UTYPE select the channel order, must have `tf[7:2] = 0`, and leave
nothing but the order behind. -/
def Obligations.TypeFlagsSelectTheOrder : Prop :=
  (∀ (w : CmdWord) (n : Index) (tf : Byte), decode w = .ok (.strip n tf) ∨ decode w = .ok (.utype tf) →
    tf.extractLsb' 2 6 = 0) ∧
  (∀ (s : State) (n : Index) (tf : Byte), s.begun = false →
    ∃ t u, exec (.strip n tf) s = .next t ∧ exec (.utype tf) s = .next u ∧ t.order = u.order ∧
      u = { s with order := u.order } ∧ u.order.code = tf.extractLsb' 0 2) ∧
  Order.grb.code = 0 ∧ Order.rgb.code = 1 ∧ Order.brg.code = 2 ∧ Order.rbg.code = 3

/-- R116: `Color(r, g, b)` and its inverse. -/
def Obligations.ColourPacksAndUnpacks : Prop :=
  (∀ r g b : Byte,
    (packColour r g b).toNat = (r.toNat <<< 16) ||| (g.toNat <<< 8) ||| b.toNat ∧
    redOf (packColour r g b) = r ∧ greenOf (packColour r g b) = g ∧ blueOf (packColour r g b) = b) ∧
  packColour 255 100 7 = 0xFF6407

/-! ### One step -/

/-- The step runs the command whose word stands first in the schedule, on the state without that word and
without the response of the step before (log 2, log 9, log 13). -/
def Obligations.StepRunsTheDecodedCommand : Prop :=
  (∀ (s : State) (w : CmdWord) (rest : List Event) (i : Instr),
    s.schedule = .cmd w :: rest → s.fault = 0x00 → decode w = .ok i →
    step s = exec i { s with schedule := rest, rsp := none }) ∧
  (∀ (s : State) (w : CmdWord) (i : Instr), s.fault = 0x00 → decode w = .ok i →
    step (s.withFetchWord 48 w.toNat) = exec i { s with rsp := none })

/-- The step at a clock edge, one that is scheduled or one that comes because nothing is (log 2), on the state
without that event and without the response of the step before (log 9): a TICK while `TIM.RUN = 1`, a discarded
one (R125) included; nothing while it is 0 (log 3). -/
def Obligations.StepAtAClockEdge : Prop :=
  ∀ s u : State, s.fault = 0x00 → (s.schedule = [] ∨ ∃ rest, s.schedule = .clk :: rest) →
    u = { s with schedule := s.schedule.tail, rsp := none } →
    (s.tim.run = false → step s = .next u) ∧
    (s.tim.run = true → step s = clockEdge u) ∧
    (∀ t, s.tim.run = true → tick u = .ok t → step s = .next t) ∧
    (∀ f, s.tim.run = true → tick u = .error (.raised f) → step s = .next { u with fault := f.code })

/-- R118: `raise` writes FAULT once and nothing else, the codes, and the stop that follows (log 7). -/
def Obligations.FaultRecordIsWrittenOnceAndStops : Prop :=
  (∀ (s : State) (f : ModelFault), s.fault = 0x00 → s.raise f = { s with fault := f.code }) ∧
  (∀ (s : State) (f : ModelFault), s.fault ≠ 0x00 → s.raise f = s) ∧
  (∀ s : State, s.fault ≠ 0x00 → s.nextEvent ≠ .rst → step s = .fault (.stopped s.fault)) ∧
  ModelFault.illegalCommand.code = 0x01 ∧ ModelFault.showBeforeBegin.code = 0x02 ∧
  ModelFault.beginTwice.code = 0x03 ∧ ModelFault.reconfigAfterBegin.code = 0x04 ∧
  ModelFault.sendWhileBusy.code = 0x05 ∧ ModelFault.bufferWriteInFlight.code = 0x06 ∧
  ModelFault.nonBinaryBufferByte.code = 0x07

/-- R142: the reset values, register by register and pin by pin, at the start of the model and after a reset
edge in any state; the memory keeps its contents (R143, log 4). -/
def Obligations.ResetValues : Prop :=
  ∀ s t : State, (s.nextEvent = .rst ∧ step s = .next t) ∨ (∃ cfg, t = State.resetWith cfg) →
    t.n = 0 ∧ t.order = .grb ∧ t.order.code = 0 ∧ t.brt = 0 ∧ t.begun = false ∧
    t.eng.state = .idle ∧ t.eng.state.code = 0 ∧ t.eng.tc = true ∧ t.eng.ovf = 0 ∧ t.eng.ptr = 0 ∧
    t.eng.len = 0 ∧
    t.tim.run = false ∧ t.tim.cnt = 0 ∧ t.tim.arr = 0 ∧ t.tim.ccr1 = 0 ∧ t.tim.ccr2 = 0 ∧
    t.tim.ude = false ∧ t.tim.cc1de = false ∧ t.tim.cc2de = false ∧ t.tim.uie = false ∧
    t.dma.h.en = false ∧ t.dma.d.en = false ∧ t.dma.l.en = false ∧
    t.dma.h.cnt = 0 ∧ t.dma.d.cnt = 0 ∧ t.dma.l.cnt = 0 ∧
    t.dma.h.tcf = false ∧ t.dma.d.tcf = false ∧ t.dma.l.tcf = false ∧ t.dma.src = 0 ∧
    t.gpio.mode = false ∧ t.gpio.out = false ∧ t.fault = 0x00 ∧
    t.tcPin = true ∧ t.dout = none ∧ t.rsp = none

/-- R141: a reset edge is taken in any state, a recorded fault and a frame in flight included; it is the
reset state with the memory as it was (R143, log 4). -/
def Obligations.ResetEdgeInAnyState : Prop :=
  ∀ (s : State) (rest : List Event), s.schedule = .rst :: rest →
    step s = .next { State.resetWith s.cfg with buf := s.buf, schedule := rest }

/-- R144: the reset state as the host sees it. -/
def Obligations.ResetStateAsTheHostSeesIt : Prop :=
  ∀ (cfg : Config) (index : Index) (r g b : Byte) (c : Colour) (level : Byte),
    exec .numpix (State.resetWith cfg) = .next { State.resetWith cfg with rsp := some 0x000000 } ∧
    exec .poll (State.resetWith cfg) = .next { State.resetWith cfg with rsp := some 0x000001 } ∧
    exec (.getpix index) (State.resetWith cfg) =
      .next { State.resetWith cfg with rsp := some 0x000000 } ∧
    exec .show_ (State.resetWith cfg) = .next (State.resetWith cfg) ∧
    exec (.setrgb index r g b) (State.resetWith cfg) = .next (State.resetWith cfg) ∧
    exec (.setpk index c) (State.resetWith cfg) = .next (State.resetWith cfg) ∧
    exec .clear (State.resetWith cfg) = .next (State.resetWith cfg) ∧
    exec (.setbrt level) (State.resetWith cfg) = .next { State.resetWith cfg with brt := level + 1 } ∧
    exec (.strip 0 0x00) (State.resetWith cfg) = .next (State.resetWith cfg)

/-- An access to the buffer at or above `BUF_BYTES` stops by name: the five commands that touch the buffer, and
the read of stream `D` inside a TICK. No state that meets the invariants makes one (R62, R95 (h)), so this is the
model's choice for the others (log 8). -/
def Obligations.AccessOutsideTheBufferStops : Prop :=
  (∀ (s : State) (index : Index) (r g b : Byte) (c : Colour) (level : Byte),
    (index.toNat < s.n.toNat → s.cfg.bufBytes < 24 * index.toNat + 24 →
      exec (.getpix index) s = .fault .noSuchBufferAddress ∧
      (s.eng.state = .idle → exec (.setrgb index r g b) s = .fault .noSuchBufferAddress ∧
        exec (.setpk index c) s = .fault .noSuchBufferAddress)) ∧
    (s.cfg.bufBytes < 24 * s.n.toNat → s.eng.state = .idle →
      exec .clear s = .fault .noSuchBufferAddress ∧
      (level + 1 ≠ s.brt → exec (.setbrt level) s = .fault .noSuchBufferAddress))) ∧
  (∀ s : State, s.tim.run = true → nextCount s.tim ≠ 0 → nextCount s.tim = s.tim.ccr1 → s.tim.cc1de = true →
    s.dma.d.en = true → s.dma.d.cnt ≠ 0 → s.cfg.bufBytes ≤ s.dma.src.toNat →
    clockEdge s = .fault .noSuchBufferAddress)

/-! ### The helper functions of the pixel buffer -/

/-- R56: `expand8` stores the eight bits, most significant first, and touches no other byte. -/
def Obligations.ExpandStoresEightBits : Prop :=
  (∀ (m : Memory) (base : Nat) (v : Byte), m.wf →
    (expand8 m base v).wf ∧ holdsBits (expand8 m base v) base v ∧
    sameOutside base (base + 8) m (expand8 m base v)) ∧
  (List.range 8).map (fun i => (expand8 [] 8 0xA5).read (8 + i)) =
    [0x01, 0x00, 0x01, 0x00, 0x00, 0x01, 0x00, 0x01]

/-- R57: `collapse8` as a sum, and that it and `expand8` undo each other on binary bytes. -/
def Obligations.CollapseInvertsExpand : Prop :=
  (∀ (m : Memory) (base : Nat),
    (collapse8 m base).toNat =
      ((List.range 8).map fun i => ((m.read (base + i)).toNat % 2) <<< (7 - i)).sum) ∧
  (∀ (m : Memory) (base : Nat) (v : Byte), m.wf → collapse8 (expand8 m base v) base = v) ∧
  (∀ (m : Memory) (base : Nat), m.wf →
    (∀ i < 8, m.read (base + i) = 0x00 ∨ m.read (base + i) = 0x01) →
    expand8 m base (collapse8 m base) = m)

/-- R58: the effective factor of a stored brightness. -/
def Obligations.EffectiveFactor : Prop :=
  feff 0 = 256 ∧ (∀ b : Byte, b ≠ 0 → feff b = b.toNat) ∧
  (∀ b : Byte, 1 ≤ feff b ∧ feff b ≤ 256) ∧
  (∀ level : Byte, (storedLevel level).toNat = (level.toNat + 1) % 256 ∧
    feff (storedLevel level) = level.toNat + 1)

/-- R59: the write-side scaling. -/
def Obligations.WriteSideScaling : Prop :=
  (∀ ch b : Byte,
    (scaleIn ch b).toNat = (ch.toNat * feff b) >>> 8 ∧ ch.toNat * feff b ≤ 65280 ∧
    (scaleIn ch b).toNat ≤ feff b - 1 ∧ scaleIn ch 0 = ch ∧ scaleIn ch 1 = 0) ∧
  scaleIn 255 129 = 128 ∧ scaleIn 100 129 = 50 ∧ scaleIn 7 129 = 3 ∧ scaleIn 255 0 = 255 ∧ scaleIn 255 1 = 0

/-- R60: the read-side inverse scaling, exact without scaling, lossy and never above what was written. -/
def Obligations.ReadSideScaling : Prop :=
  (∀ c b : Byte,
    (scaleOut c b).toNat = min 255 ((c.toNat <<< 8) / feff b) ∧ scaleOut c 0 = c ∧
    (c.toNat ≤ feff b - 1 → (c.toNat <<< 8) / feff b < 256) ∧
    (scaleOut (scaleIn c b) b).toNat ≤ c.toNat ∧ scaleOut 0 b = 0) ∧
  (∃ c b : Byte, scaleOut (scaleIn c b) b ≠ c) ∧
  scaleOut 128 129 = 254 ∧ scaleOut 50 129 = 99 ∧ scaleOut 3 129 = 5

/-- R61: the multiplier of SETBRT and its application. -/
def Obligations.RescaleMultiplier : Prop :=
  (∀ c bold bnew : Byte,
    rescaleFactor bold bnew = min 65535 (feff bnew <<< 8) / feff bold ∧ rescaleFactor bold bnew ≤ 65535 ∧
    (rescale c (rescaleFactor bold bnew)).toNat = min 255 ((c.toNat * rescaleFactor bold bnew) >>> 8) ∧
    c.toNat * rescaleFactor bold bnew < 2 ^ 24 ∧
    (bnew ≠ 0 → rescaleFactor 0 bnew = feff bnew) ∧ rescaleFactor bold 0 = 65535 / feff bold ∧
    (c.toNat ≤ feff bold - 1 →
      (c.toNat * rescaleFactor bold bnew) >>> 8 ≤ feff bnew - 1 ∧
      (rescale c (rescaleFactor bold bnew)).toNat ≤ feff bnew - 1)) ∧
  rescaleFactor 0 129 = 129 ∧ rescale 255 129 = 128 ∧ rescaleFactor 129 0 = 508 ∧ rescale 128 508 = 254 ∧
  rescaleFactor 0 1 = 1 ∧ rescale 254 1 = 0 ∧ rescaleFactor 1 0 = 65535 ∧ rescale 0 65535 = 0

/-- R65: `resize`, the failing and the succeeding case, with its frame. That the bytes outside the new valid
region are kept, all of the memory where the resize fails, is the model's choice (log 6). -/
def Obligations.ResizeZeroesOrFails : Prop :=
  (∀ (n : Index) (s : State), s.cfg.maxPixels < n.toNat → resize n s = { s with n := 0 }) ∧
  (∀ (n : Index) (s : State), n.toNat ≤ s.cfg.maxPixels →
    (resize n s).n = n ∧ (∀ a < 24 * n.toNat, (resize n s).buf.read a = 0x00) ∧
    (∀ a, 24 * n.toNat ≤ a → (resize n s).buf.read a = s.buf.read a) ∧
    { resize n s with n := s.n, buf := s.buf } = s) ∧
  (∀ s : State, 20 ≤ s.cfg.maxPixels →
    (resize 20 (resize 5 s)).n = 20 ∧ ∀ a < 480, (resize 20 (resize 5 s)).buf.read a = 0x00)

/-! ### The commands -/

/-- R110. That the bytes outside the new valid region are kept, all of the memory where the resize fails, is the
model's choice (log 6). -/
def Obligations.StripConstructs : Prop :=
  (∀ (w : CmdWord) (n : Index) (tf : Byte), decode w = .ok (.strip n tf) ↔
    tf.extractLsb' 2 6 = 0 ∧ w = 0x01#8 ++ n ++ 0x0000#16 ++ tf) ∧
  (∀ (s : State) (n : Index) (tf : Byte), s.begun = true → s.fault = 0x00 →
    exec (.strip n tf) s = .next { s with fault := 0x04 }) ∧
  (∀ (s : State) (n : Index) (tf : Byte), s.begun = false → s.cfg.maxPixels < n.toNat →
    exec (.strip n tf) s =
      .next { s with order := Order.ofCode (tf.extractLsb' 0 2), brt := 0, n := 0 }) ∧
  (∀ (s : State) (n : Index) (tf : Byte), s.begun = false → n.toNat ≤ s.cfg.maxPixels →
    ∃ t, exec (.strip n tf) s = .next t ∧ t.n = n ∧ t.order.code = tf.extractLsb' 0 2 ∧ t.brt = 0 ∧
      (∀ a < 24 * n.toNat, t.buf.read a = 0x00) ∧ (∀ a, 24 * n.toNat ≤ a → t.buf.read a = s.buf.read a) ∧
      { t with n := s.n, order := s.order, brt := s.brt, buf := s.buf } = s)

/-- R66. That the bytes outside the new valid region are kept, all of the memory where the resize fails, is the
model's choice (log 6). -/
def Obligations.UlenResizes : Prop :=
  (∀ (w : CmdWord) (n : Index), decode w = .ok (.ulen n) ↔ w = 0x02#8 ++ n ++ 0x000000#24) ∧
  (∀ (s : State) (n : Index), s.begun = true → s.fault = 0x00 →
    exec (.ulen n) s = .next { s with fault := 0x04 }) ∧
  (∀ (s : State) (n : Index), s.begun = false → s.cfg.maxPixels < n.toNat →
    exec (.ulen n) s = .next { s with n := 0 }) ∧
  (∀ (s : State) (n : Index), s.begun = false → n.toNat ≤ s.cfg.maxPixels →
    ∃ t, exec (.ulen n) s = .next t ∧ t.n = n ∧ (∀ a < 24 * n.toNat, t.buf.read a = 0x00) ∧
      (∀ a, 24 * n.toNat ≤ a → t.buf.read a = s.buf.read a) ∧ { t with n := s.n, buf := s.buf } = s)

/-- R67. -/
def Obligations.UtypeSetsTheOrder : Prop :=
  (∀ (w : CmdWord) (tf : Byte), decode w = .ok (.utype tf) ↔
    tf.extractLsb' 2 6 = 0 ∧ w = 0x03#8 ++ 0x0000#16 ++ 0x0000#16 ++ tf) ∧
  (∀ (s : State) (tf : Byte), s.begun = true → s.fault = 0x00 →
    exec (.utype tf) s = .next { s with fault := 0x04 }) ∧
  (∀ (s : State) (tf : Byte), s.begun = false →
    ∃ t, exec (.utype tf) s = .next t ∧ t.order.code = tf.extractLsb' 0 2 ∧ { t with order := s.order } = s)

/-- R68. The slot's bytes are addressed as R32 and R33 lay them out; the memory is in its canonical form and
`N` within `MAX_PIXELS`, which every step keeps. -/
def Obligations.SetrgbStoresOneSlot : Prop :=
  (∀ (w : CmdWord) (index : Index) (r g b : Byte), decode w = .ok (.setrgb index r g b) ↔
    w = 0x10#8 ++ index ++ r ++ g ++ b) ∧
  (∀ (s : State) (index : Index) (r g b : Byte), s.n.toNat ≤ index.toNat →
    exec (.setrgb index r g b) s = .next s) ∧
  (∀ (s : State) (index : Index) (r g b : Byte), index.toNat < s.n.toNat → s.eng.state ≠ .idle →
    s.fault = 0x00 → exec (.setrgb index r g b) s = .next { s with fault := 0x06 }) ∧
  (∀ (s : State) (index : Index) (r g b : Byte), s.buf.wf → s.n.toNat ≤ s.cfg.maxPixels →
    index.toNat < s.n.toNat → s.eng.state = .idle →
    ∃ t, exec (.setrgb index r g b) s = .next t ∧
      holdsBits t.buf (slotBase index) (scaleIn g s.brt) ∧
      holdsBits t.buf (slotBase index + 8) (scaleIn r s.brt) ∧
      holdsBits t.buf (slotBase index + 16) (scaleIn b s.brt) ∧
      sameOutside (slotBase index) (slotBase index + 24) s.buf t.buf ∧ { t with buf := s.buf } = s ∧
      exec (.setrgb index r g b) t = .next t) ∧
  (∀ index : Index, slotBase index = 24 * index.toNat)

/-- R69. -/
def Obligations.SetpkForwardsToSetrgb : Prop :=
  (∀ (w : CmdWord) (index : Index) (c : Colour), decode w = .ok (.setpk index c) ↔
    w = 0x11#8 ++ index ++ c) ∧
  (∀ (s : State) (index : Index) (c : Colour),
    exec (.setpk index c) s =
      exec (.setrgb index (c.extractLsb' 16 8) (c.extractLsb' 8 8) (c.extractLsb' 0 8)) s) ∧
  (∀ (s : State) (index : Index) (r g b : Byte),
    exec (.setpk index (packColour r g b)) s = exec (.setrgb index r g b) s) ∧
  (∀ (s : State) (index : Index) (c : Colour), s.n.toNat ≤ s.cfg.maxPixels →
    (index.toNat < s.n.toNat → s.eng.state = .idle) →
    ∃ t, exec (.setpk index c) s = .next t ∧ { t with buf := s.buf } = s)

/-- R70, with the table of the colour roles. -/
def Obligations.GetpixResponds : Prop :=
  (∀ (w : CmdWord) (index : Index), decode w = .ok (.getpix index) ↔ w = 0x12#8 ++ index ++ 0x000000#24) ∧
  (∀ (s : State) (index : Index), s.n.toNat ≤ index.toNat →
    exec (.getpix index) s = .next { s with rsp := some 0x000000 }) ∧
  (∀ (s : State) (index : Index) (l0 l1 l2 : Byte), s.n.toNat ≤ s.cfg.maxPixels →
    index.toNat < s.n.toNat →
    l0 = scaleOut (collapse8 s.buf (24 * index.toNat)) s.brt →
    l1 = scaleOut (collapse8 s.buf (24 * index.toNat + 8)) s.brt →
    l2 = scaleOut (collapse8 s.buf (24 * index.toNat + 16)) s.brt →
    exec (.getpix index) s = .next { s with rsp := some (
      match s.order with
      | .grb => packColour l1 l0 l2
      | .rgb => packColour l0 l1 l2
      | .brg => packColour l1 l2 l0
      | .rbg => packColour l0 l2 l1) })

/-- R71. -/
def Obligations.ClearZeroesTheValidRegion : Prop :=
  (∀ w : CmdWord, decode w = .ok .clear ↔ w = 0x130000000000) ∧
  (∀ s : State, s.n = 0 → exec .clear s = .next s) ∧
  (∀ s : State, s.n ≠ 0 → s.eng.state ≠ .idle → s.fault = 0x00 →
    exec .clear s = .next { s with fault := 0x06 }) ∧
  (∀ s : State, s.n ≠ 0 → s.eng.state = .idle → s.n.toNat ≤ s.cfg.maxPixels →
    ∃ t, exec .clear s = .next t ∧ (∀ a < 24 * s.n.toNat, t.buf.read a = 0x00) ∧
      (∀ a, 24 * s.n.toNat ≤ a → t.buf.read a = s.buf.read a) ∧ { t with buf := s.buf } = s ∧
      exec .clear t = .next t)

/-- R72. Each of the `3 * N` stored channel values is rescaled once, and stored again one bit per byte. -/
def Obligations.SetbrtRescalesTheBuffer : Prop :=
  (∀ (w : CmdWord) (level : Byte), decode w = .ok (.setbrt level) ↔ w = 0x14#8 ++ 0x00000000#32 ++ level) ∧
  (∀ (s : State) (level : Byte), (level.toNat + 1) % 256 = s.brt.toNat →
    exec (.setbrt level) s = .next s) ∧
  (∀ (s : State) (level : Byte), (level.toNat + 1) % 256 ≠ s.brt.toNat → s.n ≠ 0 → s.eng.state ≠ .idle →
    s.fault = 0x00 → exec (.setbrt level) s = .next { s with fault := 0x06 }) ∧
  (∀ (s : State) (level : Byte), (level.toNat + 1) % 256 ≠ s.brt.toNat → (s.n = 0 ∨ s.eng.state = .idle) →
    s.buf.wf → s.n.toNat ≤ s.cfg.maxPixels →
    ∃ t, exec (.setbrt level) s = .next t ∧ t.brt.toNat = (level.toNat + 1) % 256 ∧
      (∀ p < s.n.toNat, ∀ k < 3, holdsBits t.buf (24 * p + 8 * k)
        (rescale (collapse8 s.buf (24 * p + 8 * k)) (rescaleFactor s.brt t.brt))) ∧
      (∀ a, 24 * s.n.toNat ≤ a → t.buf.read a = s.buf.read a) ∧
      { t with brt := s.brt, buf := s.buf } = s)

/-- R73. -/
def Obligations.NumpixResponds : Prop :=
  (∀ w : CmdWord, decode w = .ok .numpix ↔ w = 0x070000000000) ∧
  (∀ s : State, exec .numpix s = .next { s with rsp := some (0x00#8 ++ s.n) })

/-- R111 with R78. -/
def Obligations.BeginBringsUp : Prop :=
  (∀ w : CmdWord, decode w = .ok .begin_ ↔ w = 0x040000000000) ∧
  (∀ s : State, s.begun = true → s.fault = 0x00 → exec .begin_ s = .next { s with fault := 0x03 }) ∧
  (∀ s : State, s.begun = false →
    ∃ t, exec .begin_ s = .next t ∧ t.begun = true ∧ t.gpio.mode = true ∧ t.gpio.out = false ∧
      t.dout = some false ∧ t.tim.arr.toNat = s.cfg.periodTicks - 1 ∧ t.tim.ccr1.toNat = s.cfg.c1Ticks ∧
      t.tim.ccr2.toNat = s.cfg.c2Ticks ∧ t.eng.ptr = 0 ∧
      { t with
        begun := s.begun, gpio := s.gpio, eng := { t.eng with ptr := s.eng.ptr },
        tim := { t.tim with arr := s.tim.arr, ccr1 := s.tim.ccr1, ccr2 := s.tim.ccr2 } } = s)

/-- R112 with R74, R79 and R80. -/
def Obligations.ShowStartsAFrame : Prop :=
  (∀ w : CmdWord, decode w = .ok .show_ ↔ w = 0x050000000000) ∧
  (∀ s : State, rawView s = (0, 24 * s.n.toNat)) ∧
  (∀ s : State, s.n = 0 → exec .show_ s = .next s) ∧
  (∀ s : State, s.n ≠ 0 → s.begun = false → s.fault = 0x00 →
    exec .show_ s = .next { s with fault := 0x02 }) ∧
  (∀ s : State, s.n ≠ 0 → s.begun = true → s.eng.state ≠ .idle → s.fault = 0x00 →
    exec .show_ s = .next { s with fault := 0x05 }) ∧
  (∀ s : State, s.n ≠ 0 → s.begun = true → s.eng.state = .idle →
    ∃ len : Count, len.toNat = 24 * s.n.toNat ∧
      exec .show_ s = .next { s with
        eng := { s.eng with state := .transmitting, tc := false, ptr := 0, len := len }
        dma := {
          h := { en := true, cnt := len, tcf := false }
          d := { en := true, cnt := len, tcf := false }
          l := { en := true, cnt := len, tcf := false }
          src := 0 }
        tim := { s.tim with cnt := s.tim.arr, ude := true, cc1de := true, cc2de := true, run := true } })

/-- R113: the value is the completion flag, and 1 exactly in Idle. -/
def Obligations.PollRespondsTheFlag : Prop :=
  (∀ w : CmdWord, decode w = .ok .poll ↔ w = 0x060000000000) ∧
  (∀ s : State, exec .poll s = .next { s with rsp := some (if s.eng.tc then 0x000001 else 0x000000) }) ∧
  (∀ s : State, EngineInv s →
    (exec .poll s = .next { s with rsp := some 0x000001 } ↔ s.eng.state = .idle))

/-! ### All commands together -/

/-- R51: which commands respond, and with what form of value. -/
def Obligations.OnlyThreeCommandsRespond : Prop :=
  ∀ (i : Instr) (s t : State), exec i s = .next t →
    (i = .poll ∧ EngineInv s → t.rsp = some (if s.eng.state = .idle then 0x000001 else 0x000000)) ∧
    (i = .poll → t.rsp = some (0x000000#23 ++ BitVec.ofBool s.eng.tc)) ∧
    (i = .numpix → t.rsp = some (BitVec.ofNat 24 s.n.toNat)) ∧
    ((∃ index, i = .getpix index) → ∃ r g b, t.rsp = some (packColour r g b)) ∧
    (i ≠ .poll → i ≠ .numpix → (∀ index, i ≠ .getpix index) → t.rsp = s.rsp)

/-- The column "written by" of the table of R13, for the commands: what each register needs to change. -/
def Obligations.WrittenOnlyByItsCommands : Prop :=
  ∀ (i : Instr) (s t : State), exec i s = .next t →
    (t.n ≠ s.n → (∃ n tf, i = .strip n tf) ∨ ∃ n, i = .ulen n) ∧
    (t.order ≠ s.order → (∃ n tf, i = .strip n tf) ∨ ∃ tf, i = .utype tf) ∧
    (t.brt ≠ s.brt → (∃ n tf, i = .strip n tf) ∨ ∃ level, i = .setbrt level) ∧
    (t.buf ≠ s.buf → (∃ n tf, i = .strip n tf) ∨ (∃ n, i = .ulen n) ∨ (∃ index r g b, i = .setrgb index r g b) ∨
      (∃ index c, i = .setpk index c) ∨ i = .clear ∨ ∃ level, i = .setbrt level) ∧
    (t.begun ≠ s.begun → i = .begin_ ∧ t.begun = true) ∧
    (t.gpio ≠ s.gpio → i = .begin_) ∧
    (t.dma ≠ s.dma → i = .show_) ∧
    (t.tim ≠ s.tim → i = .begin_ ∨ i = .show_) ∧
    (t.eng ≠ s.eng → i = .begin_ ∨ i = .show_) ∧
    t.cfg = s.cfg ∧ t.schedule = s.schedule

/-- The table of R145 with the conditions of R120 to R124: which command records which fault in which
situation, and that a command that records a fault changes nothing else. -/
def Obligations.FaultOfEachCommand : Prop :=
  ∀ (i : Instr) (s : State), s.fault = 0x00 → s.n.toNat ≤ s.cfg.maxPixels →
    ∃ t, exec i s = .next t ∧ t.fault = faultOfTable i s ∧
      (faultOfTable i s ≠ 0x00 → t = { s with fault := faultOfTable i s })

/-- R75: what GETPIX responds right after SETRGB without scaling, under the four orders. -/
def Obligations.ReadBackPermutesTheRoles : Prop :=
  ∀ (s : State) (index : Index) (r g b : Byte), s.buf.wf → s.n.toNat ≤ s.cfg.maxPixels → s.brt = 0 →
    index.toNat < s.n.toNat → s.eng.state = .idle →
    ∃ t u, exec (.setrgb index r g b) s = .next t ∧ exec (.getpix index) t = .next u ∧
      u.rsp = some (
        match s.order with
        | .grb => packColour r g b
        | .rgb => packColour g r b
        | .brg => packColour r b g
        | .rbg => packColour g b r)

/-- From the unscaled state, writing a pixel and then dimming leaves the machine as dimming and then writing
it does (V42 step 1, U7). -/
def Obligations.DimmingCommutesWithWriting : Prop :=
  ∀ (s : State) (index : Index) (r g b level : Byte), BufferInv s → s.brt = 0 → s.eng.state = .idle →
    ∃ t u v, exec (.setrgb index r g b) s = .next t ∧ exec (.setbrt level) t = .next v ∧
      exec (.setbrt level) s = .next u ∧ exec (.setrgb index r g b) u = .next v

/-- R153: channel order affects read-back only. A step from a state that differs in ORDER alone ends the
same way, in a state that differs in ORDER and in a response of GETPIX alone. -/
def Obligations.OrderAffectsOnlyReadBack : Prop :=
  ∀ (s : State) (o : Order),
    (∀ t, step s = .next t → ∃ t', step { s with order := o } = .next t' ∧
      { t' with order := t.order, rsp := t.rsp } = t ∧
      (t'.rsp ≠ t.rsp → ∃ w index, s.nextEvent = .cmd w ∧ decode w = .ok (.getpix index))) ∧
    (∀ f, step s = .fault f → step { s with order := o } = .fault f)

/-! ### The engine, event by event -/

/-- R82: a TICK advances the counter, wrapping at the reload value, and raises at most one event, chosen by
the new count. -/
def Obligations.TickRaisesAtMostOneEvent : Prop :=
  ∀ (s a : State), s.tim.run = true →
    a = { s with tim := { s.tim with cnt := if s.tim.cnt = s.tim.arr then 0 else s.tim.cnt + 1 } } →
    (a.tim.cnt = 0 → clockEdge s = settle s (updateEvent a)) ∧
    (a.tim.cnt ≠ 0 → a.tim.cnt = s.tim.ccr1 → clockEdge s = settle s (cc1Event a)) ∧
    (a.tim.cnt ≠ 0 → a.tim.cnt ≠ s.tim.ccr1 → a.tim.cnt = s.tim.ccr2 →
      clockEdge s = settle s (cc2Event a)) ∧
    (a.tim.cnt ≠ 0 → a.tim.cnt ≠ s.tim.ccr1 → a.tim.cnt ≠ s.tim.ccr2 → clockEdge s = .next a) ∧
    (s.tim.cnt ≤ s.tim.arr → a.tim.cnt.toNat = (s.tim.cnt.toNat + 1) % (s.tim.arr.toNat + 1))

/-- R83 to R85: what the three events request, and what they do in the states that meet the invariants. -/
def Obligations.EventsRequestTheirStreams : Prop :=
  (∀ s : State,
    (s.tim.ude = true → s.tim.uie = false → updateEvent s = dmaReq .h s) ∧
    (s.tim.ude = false → s.tim.uie = true → updateEvent s = .ok (irqOvf s)) ∧
    (s.tim.ude = false → s.tim.uie = false → updateEvent s = .ok s) ∧
    (∀ t, s.tim.ude = true → s.tim.uie = true → dmaReq .h s = .ok t → updateEvent s = .ok (irqOvf t)) ∧
    (s.tim.cc1de = true → cc1Event s = dmaReq .d s) ∧ (s.tim.cc1de = false → cc1Event s = .ok s) ∧
    (s.tim.cc2de = true → cc2Event s = dmaReq .l s) ∧ (s.tim.cc2de = false → cc2Event s = .ok s)) ∧
  (∀ s : State, EngineInv s → ¬ (s.tim.ude = true ∧ s.tim.uie = true) ∧
    (s.eng.state = .deadTime → cc1Event s = .ok s ∧ cc2Event s = .ok s) ∧
    (s.eng.state = .idle → s.tim.run = false))

/-- R86 to R89: a request is dropped, or does exactly one transfer and counts it; the last transfer of stream
`L` runs IRQ_DMA. -/
def Obligations.DmaRequestTransfersOnce : Prop :=
  ∀ s : State,
    (∀ i, (s.dma.stream i).en = false ∨ (s.dma.stream i).cnt = 0 → dmaReq i s = .ok s) ∧
    (s.dma.h.en = true → s.dma.h.cnt ≠ 0 → dmaReq .h s = .ok { s with
      gpio := { s.gpio with out := true }
      dma := { s.dma with h :=
        { s.dma.h with cnt := s.dma.h.cnt - 1, tcf := s.dma.h.tcf || s.dma.h.cnt == 1 } } }) ∧
    (s.dma.d.en = true → s.dma.d.cnt ≠ 0 → s.dma.src.toNat < s.cfg.bufBytes →
      (s.buf.read s.dma.src.toNat = 0x00 ∨ s.buf.read s.dma.src.toNat = 0x01) →
      dmaReq .d s = .ok { s with
        gpio := { s.gpio with out := s.gpio.out && s.buf.read s.dma.src.toNat == 0x01 }
        dma := { s.dma with
          d := { s.dma.d with cnt := s.dma.d.cnt - 1, tcf := s.dma.d.tcf || s.dma.d.cnt == 1 }
          src := s.dma.src + 1 } }) ∧
    (s.dma.d.en = true → s.dma.d.cnt ≠ 0 → s.dma.src.toNat < s.cfg.bufBytes →
      (s.buf.read s.dma.src.toNat).extractLsb' 1 7 ≠ 0 →
      dmaReq .d s = .error (.raised .nonBinaryBufferByte)) ∧
    (s.dma.l.en = true → s.dma.l.cnt ≠ 0 → s.dma.l.cnt ≠ 1 → dmaReq .l s = .ok { s with
      gpio := { s.gpio with out := false }
      dma := { s.dma with l := { s.dma.l with cnt := s.dma.l.cnt - 1 } } }) ∧
    (s.dma.l.en = true → s.dma.l.cnt = 1 → dmaReq .l s = .ok (irqDma { s with
      gpio := { s.gpio with out := false }
      dma := { s.dma with l := { s.dma.l with cnt := 0, tcf := true } } }))

/-- R90 with the ports of R52, and the pin of R30. -/
def Obligations.GpioPortsAndPin : Prop :=
  ∀ (s : State) (d : Byte),
    gpioWrite .set d s = { s with gpio := { s.gpio with out := s.gpio.out || d.getLsbD 0 } } ∧
    gpioWrite .and d s = { s with gpio := { s.gpio with out := s.gpio.out && d.getLsbD 0 } } ∧
    gpioWrite .clr d s = { s with gpio := { s.gpio with out := s.gpio.out && !d.getLsbD 0 } } ∧
    wHigh = 0x01 ∧ wLow = 0x01 ∧
    (s.gpio.mode = true → s.dout = some s.gpio.out) ∧ (s.gpio.mode = false → s.dout = none)

/-- R91: the handler of the DMA completion, in any state; that it runs inside the request that does the last
transfer of stream `L`, after the write of the latch; and what stands in `ENG.OVF` and `ENG.TC` then. -/
def Obligations.DmaCompletionHandler : Prop :=
  (∀ s : State, irqDma s = { s with
    eng := { s.eng with state := .deadTime }
    tim := { s.tim with ude := false, cc1de := false, cc2de := false, uie := true }
    dma := { s.dma with
      h := { s.dma.h with en := false }, d := { s.dma.d with en := false }, l := { s.dma.l with en := false } } }) ∧
  (∀ s : State, s.dma.l.en = true → s.dma.l.cnt = 1 → dmaReq .l s = .ok (irqDma { s with
    gpio := { s.gpio with out := false }
    dma := { s.dma with l := { s.dma.l with cnt := 0, tcf := true } } })) ∧
  (∀ s : State, EngineInv s → s.eng.state = .transmitting →
    s.eng.ovf = 0 ∧ (irqDma s).eng.ovf = 0 ∧ (irqDma s).eng.tc = false)

/-- R103: the handler of the timer overflow, in any state that meets the bound of the counter, and that it runs
inside each UPDATE with `TIM.UIE = 1`, after the request to stream `H`. -/
def Obligations.TimerOverflowHandler : Prop :=
  (∀ s : State, s.eng.ovf.toNat < s.cfg.deadOverflows →
    (s.eng.ovf.toNat + 1 ≠ s.cfg.deadOverflows →
      ∃ t, irqOvf s = t ∧ t.eng.ovf.toNat = s.eng.ovf.toNat + 1 ∧
        { t with eng := { t.eng with ovf := s.eng.ovf } } = s) ∧
    (s.eng.ovf.toNat + 1 = s.cfg.deadOverflows → irqOvf s = { s with
      tim := { s.tim with run := false, uie := false, cnt := 0 }
      eng := { s.eng with ovf := 0, tc := true, state := .idle } })) ∧
  (∀ s t : State, s.tim.uie = true →
    (s.tim.ude = true ∧ dmaReq .h s = .ok t ∨ s.tim.ude = false ∧ t = s) → updateEvent s = .ok (irqOvf t))

/-- R125: a byte other than 0x00 and 0x01 discards the whole TICK, the counter advance included; no state
that meets the invariants holds one. -/
def Obligations.NonBinaryByteDiscardsTheTick : Prop :=
  (∀ s : State, s.fault = 0x00 → s.tim.run = true → nextCount s.tim ≠ 0 → nextCount s.tim = s.tim.ccr1 →
    s.tim.cc1de = true → s.dma.d.en = true → s.dma.d.cnt ≠ 0 → s.dma.src.toNat < s.cfg.bufBytes →
    (s.buf.read s.dma.src.toNat).extractLsb' 1 7 ≠ 0 → clockEdge s = .next { s with fault := 0x07 }) ∧
  (∀ s : State, Inv s → ∃ t, clockEdge s = .next t ∧ t.fault = s.fault)

/-- R92: the three transitions of the state machine, and reset. -/
def Obligations.OnlyThreeTransitions : Prop :=
  ∀ s t : State, Inv s → step s = .next t →
    (s.nextEvent = .rst → t.eng.state = .idle) ∧
    (s.nextEvent ≠ .rst → t.eng.state ≠ s.eng.state →
      (s.eng.state = .idle ∧ t.eng.state = .transmitting ∧ s.begun = true ∧ s.n ≠ 0 ∧
        ∃ w, s.nextEvent = .cmd w ∧ decode w = .ok .show_) ∨
      (s.eng.state = .transmitting ∧ t.eng.state = .deadTime ∧ s.nextEvent = .clk ∧
        t.tim.cnt.toNat = s.cfg.c2Ticks ∧ s.dma.l.cnt = 1) ∨
      (s.eng.state = .deadTime ∧ t.eng.state = .idle ∧ s.nextEvent = .clk ∧
        s.tim.cnt.toNat + 1 = s.cfg.periodTicks ∧ s.eng.ovf.toNat + 1 = s.cfg.deadOverflows))

/-! ### Invariants and whole runs -/

/-- The reset state of every instance meets the invariants. -/
def Obligations.ResetMeetsTheInvariants : Prop := ∀ cfg : Config, Inv (State.resetWith cfg)

/-- Every step keeps the invariants: R62 to R64, R95 (with the order of the counts of log 12), the canonical
form of the memory. It keeps the parameters of R7 as well (log 1), and takes one event from the schedule
(log 2). -/
def Obligations.StepKeepsTheInvariants : Prop :=
  ∀ s t : State, Inv s → step s = .next t → Inv t ∧ t.cfg = s.cfg ∧ t.schedule = s.schedule.tail

/-- R138, "there is nothing else": where no fault is recorded, a step of a state that meets the invariants
answers a next state, whatever the event. -/
def Obligations.StepsAlwaysComplete : Prop :=
  ∀ s : State, Inv s → s.fault = 0x00 → ∃ t, step s = .next t

/-- R62 to R64 in every state a run from reset reaches, for every instance, program and interleaving. -/
def Obligations.ReachableBuffers : Prop :=
  ∀ (cfg : Config) (events : List Event) (k : Nat) (t : State),
    runSteps k { State.resetWith cfg with schedule := events } = .next t →
    t.cfg = cfg ∧ t.buf.wf ∧ t.n.toNat ≤ cfg.maxPixels ∧
    (∀ a < 24 * t.n.toNat, t.buf.read a = 0x00 ∨ t.buf.read a = 0x01) ∧
    (∀ p < t.n.toNat, ∀ k < 3, (collapse8 t.buf (24 * p + 8 * k)).toNat ≤ feff t.brt - 1)

/-- R95 in every state a run from reset reaches. In (f) the counts stand in the order that R82 to R89 give, not
the printed one (log 12): stream `H` is one transfer ahead of stream `L` up to CC2, and from CC2 on the three
counts agree, where the printed order holds too. The last clause is the second half of (g): the frame in flight
was started by a SHOW, from Idle, and neither `N` nor any byte of the memory has changed since. -/
def Obligations.ReachableEngines : Prop :=
  ∀ (cfg : Config) (events : List Event) (k : Nat) (s t : State),
    s = { State.resetWith cfg with schedule := events } → runSteps k s = .next t →
    (t.eng.tc = true ↔ t.eng.state = .idle) ∧
    (t.tim.run = true ↔ t.eng.state ≠ .idle) ∧
    (t.tim.ude = t.tim.cc1de ∧ t.tim.cc1de = t.tim.cc2de ∧ t.tim.cc2de = t.dma.h.en ∧
      t.dma.h.en = t.dma.d.en ∧ t.dma.d.en = t.dma.l.en ∧
      (t.tim.ude = true ↔ t.eng.state = .transmitting)) ∧
    (t.tim.uie = true ↔ t.eng.state = .deadTime) ∧
    (t.eng.state ≠ .deadTime → t.eng.ovf = 0) ∧ t.eng.ovf.toNat < cfg.deadOverflows ∧
    (t.eng.state = .transmitting → 1 ≤ t.dma.l.cnt.toNat ∧ t.dma.h.cnt.toNat ≤ t.dma.d.cnt.toNat ∧
      t.dma.d.cnt.toNat ≤ t.dma.l.cnt.toNat ∧ t.dma.l.cnt.toNat ≤ t.dma.h.cnt.toNat + 1 ∧
      t.dma.l.cnt.toNat ≤ t.eng.len.toNat ∧
      (t.tim.cnt.toNat < cfg.c2Ticks → t.dma.l.cnt.toNat = t.dma.h.cnt.toNat + 1) ∧
      (cfg.c2Ticks ≤ t.tim.cnt.toNat → t.dma.l.cnt = t.dma.d.cnt ∧ t.dma.d.cnt = t.dma.h.cnt) ∧
      t.dma.src.toNat = t.eng.ptr.toNat + t.eng.len.toNat - t.dma.d.cnt.toNat) ∧
    (t.eng.state ≠ .idle → t.begun = true ∧ t.n ≠ 0 ∧ t.eng.ptr = 0 ∧ t.eng.len.toNat = 24 * t.n.toNat) ∧
    (t.eng.state = .transmitting → t.dma.d.cnt ≠ 0 → t.dma.src.toNat < 24 * t.n.toNat) ∧
    (t.eng.state ≠ .transmitting → t.gpio.out = false) ∧
    (t.begun = false → t.eng.state = .idle ∧ t.gpio.mode = false) ∧
    (t.eng.state ≠ .idle → ∃ j u, j < k ∧ runSteps j s = .next u ∧ u.eng.state = .idle ∧
      (∃ w, u.nextEvent = .cmd w ∧ decode w = .ok .show_) ∧ t.n = u.n ∧ t.buf = u.buf ∧
      ∀ m v, j < m → m ≤ k → runSteps m s = .next v → v.eng.state ≠ .idle ∧ v.n = u.n ∧ v.buf = u.buf)

/-- R98: the pin outside a frame, in every state a run from reset reaches. -/
def Obligations.PinOutsideAFrame : Prop :=
  ∀ (cfg : Config) (events : List Event) (k : Nat) (t : State),
    runSteps k { State.resetWith cfg with schedule := events } = .next t →
    (t.begun = false → t.dout = none) ∧ (t.begun = true → t.dout = some t.gpio.out) ∧
    (t.begun = true → t.eng.state ≠ .transmitting → t.dout = some false)

/-- R95 (g), R43: while a frame is in flight no step but reset changes the buffer, `N`, `BRT` or the frame's
pointer and length. -/
def Obligations.BufferIsStableInFlight : Prop :=
  ∀ s t : State, Inv s → s.eng.state ≠ .idle → s.nextEvent ≠ .rst → step s = .next t →
    t.buf = s.buf ∧ t.n = s.n ∧ t.brt = s.brt ∧ t.order = s.order ∧ t.begun = s.begun ∧
    t.eng.ptr = s.eng.ptr ∧ t.eng.len = s.eng.len

/-- R146: a host that keeps to the table of R145 never raises a fault, over whole runs. -/
def Obligations.ContractHostNeverFaults : Prop :=
  ∀ (s : State) (k : Nat), Inv s → s.fault = 0x00 →
    (∀ j < k, ∀ u, runSteps j s = .next u → keepsContract u.nextEvent u) →
    ∃ t, runSteps k s = .next t ∧ t.fault = 0x00 ∧ Inv t

/-- R93 with R77: the waveform of a whole frame. From Idle the host presents SHOW (0x050000000000), and then the
schedule holds clock edges and reading commands only, and after its end clock edges (log 2). `m` steps after SHOW
`clockEdges events m` clock edges have passed; after `1 + k * P + j` of them the pin is that of the pin `j` TICKs
into bit period `k`, and bit `k` is the buffer byte `k` as SHOW found it. -/
def Obligations.FrameWaveform : Prop :=
  ∀ (s : State) (events : List Event), Inv s → s.fault = 0x00 → s.begun = true → s.n ≠ 0 →
    s.eng.state = .idle → s.schedule = .cmd 0x050000000000 :: events → (∀ e ∈ events, readsOnly e) →
    (∃ u, runSteps 1 s = .next u ∧ u.dout = some false) ∧
    ∀ m, ∀ k < 24 * s.n.toNat, ∀ j < s.cfg.periodTicks,
      clockEdges events m = 1 + k * s.cfg.periodTicks + j →
      ∃ t, runSteps (1 + m) s = .next t ∧
        t.dout = some (
          if j < s.cfg.c1Ticks then true
          else if j < s.cfg.c2Ticks then decide (s.buf.read k = 0x01)
          else false)

/-- R94 and R104: the schedule of a whole frame and its dead time, by the clock edges `t` after the effective
SHOW. From Idle the host presents SHOW, and then the schedule holds clock edges and reading commands only, POLL
among them, and after its end clock edges (log 2). While the engine is in flight a clock edge is a TICK; after
the return to Idle the timer is stopped, and an edge is no TICK and changes nothing (log 3). So the engine is Idle
with `ENG.TC = 1` once `1 + (LEN + DOV - 1) * P` edges have passed: a loop of POLL ends (R96, R113). -/
def Obligations.FrameSchedule : Prop :=
  ∀ (s : State) (events : List Event), Inv s → s.fault = 0x00 → s.begun = true → s.n ≠ 0 →
    s.eng.state = .idle → s.schedule = .cmd 0x050000000000 :: events → (∀ e ∈ events, readsOnly e) →
    ∀ m t : Nat, t = clockEdges events m → ∃ u, runSteps (1 + m) s = .next u ∧ u.buf = s.buf ∧ u.n = s.n ∧
      u.fault = 0x00 ∧
      (t < 1 + (24 * s.n.toNat - 1) * s.cfg.periodTicks + s.cfg.c2Ticks →
        u.eng.state = .transmitting ∧ u.eng.tc = false) ∧
      (1 + (24 * s.n.toNat - 1) * s.cfg.periodTicks + s.cfg.c2Ticks ≤ t →
        t < 1 + (24 * s.n.toNat + s.cfg.deadOverflows - 1) * s.cfg.periodTicks →
        u.eng.state = .deadTime ∧ u.eng.tc = false ∧ u.dout = some false ∧
        ∀ m j, j < s.cfg.periodTicks → t = 1 + (24 * s.n.toNat - 1 + m) * s.cfg.periodTicks + j →
          u.eng.ovf.toNat = m ∧ u.tim.cnt.toNat = j) ∧
      (1 + (24 * s.n.toNat + s.cfg.deadOverflows - 1) * s.cfg.periodTicks ≤ t →
        u.eng.state = .idle ∧ u.eng.tc = true ∧ u.tim.run = false ∧ u.tim.uie = false ∧ u.eng.ovf = 0 ∧
        u.tim.cnt = 0 ∧ u.gpio.out = false ∧ u.eng.ptr = 0 ∧ u.eng.len.toNat = 24 * s.n.toNat ∧
        u.dma.h.cnt = 0 ∧ u.dma.d.cnt = 0 ∧ u.dma.l.cnt = 0 ∧
        u.dma.h.tcf = true ∧ u.dma.d.tcf = true ∧ u.dma.l.tcf = true ∧ u.dma.src = u.eng.len ∧
        exec .poll u = .next { u with rsp := some 0x000001 }) ∧
      (∀ k < 24 * s.n.toNat, ∀ j < s.cfg.periodTicks, t = 1 + k * s.cfg.periodTicks + j →
        u.tim.cnt.toNat = j ∧ u.dma.h.cnt.toNat = 24 * s.n.toNat - k - 1 ∧
        u.dma.d.cnt.toNat = (if j < s.cfg.c1Ticks then 24 * s.n.toNat - k else 24 * s.n.toNat - k - 1) ∧
        u.dma.l.cnt.toNat = (if j < s.cfg.c2Ticks then 24 * s.n.toNat - k else 24 * s.n.toNat - k - 1))

/-- R106: from the TICK that ends a frame the line stays low for at least
`(P - C2) + (DOV - 1) * P + 1` clock edges, whatever the host does (short of reset) and whatever the
interleaving (log 2). Every edge counts, those of an idle engine too, which are no TICKs (log 3): the host's
waiting is part of the time. -/
def Obligations.DeadTimeIsGuaranteed : Prop :=
  ∀ (s t : State) (k : Nat), Inv s → s.eng.state = .deadTime → s.tim.cnt.toNat = s.cfg.c2Ticks →
    s.eng.ovf = 0 → .rst ∉ s.schedule → runSteps k s = .next t → t.gpio.out = true →
    s.cfg.periodTicks - s.cfg.c2Ticks + (s.cfg.deadOverflows - 1) * s.cfg.periodTicks + 1 ≤
      clockEdges s.schedule k

/-- R105: how long the engine stays in DeadTime, by the clock edges that have passed, where the schedule holds
clock edges and reading commands only, POLL among them, and after its end clock edges (log 2). The edges after the
return to Idle are no TICKs and change nothing (log 3). -/
def Obligations.DeadTimeLength : Prop :=
  ∀ s : State, Inv s → s.fault = 0x00 → (∀ e ∈ s.schedule, readsOnly e) → s.eng.state = .deadTime →
    s.tim.cnt.toNat = s.cfg.c2Ticks → s.eng.ovf = 0 →
    ∀ m k, k = clockEdges s.schedule m → ∃ t, runSteps m s = .next t ∧ t.dout = some false ∧
      (k < s.cfg.periodTicks - s.cfg.c2Ticks + (s.cfg.deadOverflows - 1) * s.cfg.periodTicks →
        t.eng.state = .deadTime ∧ t.eng.tc = false) ∧
      (s.cfg.periodTicks - s.cfg.c2Ticks + (s.cfg.deadOverflows - 1) * s.cfg.periodTicks ≤ k →
        t.eng.state = .idle ∧ t.eng.tc = true)

end
end

