-- ==== Sys2Proof/Laws/Brightness.lean ====
section
/-! SUPPORT. The arithmetic of brightness (R58 to R61): bounds that make every narrowing exact, and the
preservation of the channel bound of R64. -/

namespace Sys2Proof.Machine

theorem feff_pos (b : Byte) : 1 ≤ feff b := by
  unfold feff
  split
  · omega
  · rename_i h
    have : b.toNat ≠ 0 := fun h0 => h (BitVec.eq_of_toNat_eq (by simpa using h0))
    omega

theorem feff_le (b : Byte) : feff b ≤ 256 := by
  unfold feff
  split <;> omega

@[simp] theorem feff_zero : feff 0 = 256 := rfl

/-- "`Feff = level + 1` for every level 0 to 255" (R58). -/
theorem feff_storedLevel (level : Byte) : feff (storedLevel level) = level.toNat + 1 := by
  revert level
  decide

theorem scaleIn_toNat (ch b : Byte) : (scaleIn ch b).toNat = ch.toNat * feff b / 256 := by
  have h1 := feff_le b
  have h2 := ch.isLt
  have h3 : ch.toNat * feff b ≤ 255 * 256 := Nat.mul_le_mul (by omega) h1
  simp only [scaleIn, BitVec.toNat_ofNat, Nat.shiftRight_eq_div_pow]
  omega

/-- "For every `ch` and `B` the result is at most `Feff(B) - 1`" (R59). -/
theorem scaleIn_lt (ch b : Byte) : (scaleIn ch b).toNat < feff b := by
  rw [scaleIn_toNat]
  have h1 := feff_pos b
  have h2 := ch.isLt
  have h3 : ch.toNat * feff b ≤ 255 * feff b := Nat.mul_le_mul_right _ (by omega)
  omega

/-- "For `B = 0` the result is `ch` unchanged" (R59). -/
@[simp] theorem scaleIn_zero (ch : Byte) : scaleIn ch 0 = ch :=
  BitVec.eq_of_toNat_eq (by rw [scaleIn_toNat, feff_zero, Nat.mul_div_cancel _ (by norm_num)])

/-- Under R64 "the quotient is below 256 and `min` never takes effect" (R60). -/
theorem scaleOut_toNat {c b : Byte} (h : c.toNat < feff b) :
    (scaleOut c b).toNat = c.toNat * 256 / feff b := by
  have h1 := feff_pos b
  have h3 : c.toNat * 256 / feff b < 256 := by
    rw [Nat.div_lt_iff_lt_mul (by omega), Nat.mul_comm 256]
    exact Nat.mul_lt_mul_of_pos_right h (by norm_num)
  simp only [scaleOut, BitVec.toNat_ofNat, Nat.shiftLeft_eq, Nat.reducePow]
  rw [Nat.min_eq_right (by omega), Nat.mod_eq_of_lt h3]

/-- "For `B = 0` the result is `c`" (R60). -/
@[simp] theorem scaleOut_zero (c : Byte) : scaleOut c 0 = c :=
  BitVec.eq_of_toNat_eq (by
    rw [scaleOut_toNat (by rw [feff_zero]; exact c.isLt), feff_zero, Nat.mul_div_cancel _ (by norm_num)])

/-- "The multiplier is at most 65535" (R61). -/
theorem rescaleFactor_le (bold bnew : Byte) : rescaleFactor bold bnew ≤ 65535 :=
  le_trans (Nat.div_le_self _ _) (Nat.min_le_left _ _)

theorem rescaleFactor_mul_le (bold bnew : Byte) :
    rescaleFactor bold bnew * feff bold ≤ feff bnew * 256 := by
  refine le_trans (Nat.div_mul_le_self _ _) (le_trans (Nat.min_le_right _ _) ?_)
  simp [Nat.shiftLeft_eq]

/-- The shifted product of R61 stays below the new factor, when the old value is below the old one (R64). -/
theorem rescale_product_lt {c bold : Byte} (bnew : Byte) (h : c.toNat < feff bold) :
    c.toNat * rescaleFactor bold bnew / 256 < feff bnew := by
  have hn := feff_pos bnew
  have hmul := rescaleFactor_mul_le bold bnew
  rcases Nat.eq_zero_or_pos (rescaleFactor bold bnew) with h0 | hpos
  · rw [h0]
    omega
  · rw [Nat.div_lt_iff_lt_mul (by norm_num)]
    calc c.toNat * rescaleFactor bold bnew < feff bold * rescaleFactor bold bnew :=
          Nat.mul_lt_mul_of_pos_right h hpos
      _ = rescaleFactor bold bnew * feff bold := Nat.mul_comm _ _
      _ ≤ feff bnew * 256 := hmul

/-- Under R64 "`min(255, ...)` never takes effect" (R61). -/
theorem rescale_toNat {c bold : Byte} (bnew : Byte) (h : c.toNat < feff bold) :
    (rescale c (rescaleFactor bold bnew)).toNat = c.toNat * rescaleFactor bold bnew / 256 := by
  have h1 := rescale_product_lt bnew h
  have h2 := feff_le bnew
  simp only [rescale, BitVec.toNat_ofNat, Nat.shiftRight_eq_div_pow, Nat.reducePow]
  rw [Nat.min_eq_right (by omega), Nat.mod_eq_of_lt (by omega)]

/-- SETBRT keeps the channel bound (R64). -/
theorem rescale_lt {c bold : Byte} (bnew : Byte) (h : c.toNat < feff bold) :
    (rescale c (rescaleFactor bold bnew)).toNat < feff bnew := by
  rw [rescale_toNat bnew h]
  exact rescale_product_lt bnew h

@[simp] theorem rescale_zero (s : Nat) : rescale 0 s = 0 := by simp [rescale]

/-! ### Codes -/

@[simp] theorem Order.ofCode_code (o : Order) : Order.ofCode o.code = o := by cases o <;> rfl

@[simp] theorem Order.code_ofCode (c : BitVec 2) : (Order.ofCode c).code = c := by
  revert c
  decide

@[simp] theorem Dma.stream_setStream (x : Dma) (i : StreamId) (v : Stream) :
    (x.setStream i v).stream i = v := by cases i <;> rfl

@[simp] theorem Dma.setStream_src (x : Dma) (i : StreamId) (v : Stream) : (x.setStream i v).src = x.src := by
  cases i <;> rfl

end Sys2Proof.Machine
end

