-- ==== Sys2Proof/Laws/Encoding.lean ====
section
/-! SUPPORT. The fields of a word of format C, the parts of a packed colour, and what decoding to a command
says about the word. -/

namespace Sys2Proof

@[simp] theorem fieldOpc_formatC (o : BitVec 8) (a : Index) (v : Colour) : fieldOpc (formatC o a v) = o := by
  refine BitVec.eq_of_getLsbD_eq fun i hi => ?_
  simp only [fieldOpc, formatC, BitVec.getLsbD_extractLsb', BitVec.getLsbD_append]
  simp [hi, show ¬ 40 + i < 24 by omega, show ¬ 40 + i - 24 < 16 by omega,
    show 40 + i - 24 - 16 = i by omega]

@[simp] theorem fieldA_formatC (o : BitVec 8) (a : Index) (v : Colour) : fieldA (formatC o a v) = a := by
  refine BitVec.eq_of_getLsbD_eq fun i hi => ?_
  simp only [fieldA, formatC, BitVec.getLsbD_extractLsb', BitVec.getLsbD_append]
  simp [hi]

@[simp] theorem fieldV_formatC (o : BitVec 8) (a : Index) (v : Colour) : fieldV (formatC o a v) = v := by
  refine BitVec.eq_of_getLsbD_eq fun i hi => ?_
  simp only [fieldV, formatC, BitVec.getLsbD_extractLsb', BitVec.getLsbD_append]
  simp [hi]

/-- Bits below 40 of a word are `A` and `V`: they are all zero when both fields are. -/
theorem extractLsb'_formatC_zero (o : BitVec 8) : (formatC o 0 0).extractLsb' 0 40 = 0 := by
  refine BitVec.eq_of_getLsbD_eq fun i hi => ?_
  simp only [formatC, BitVec.getLsbD_extractLsb', BitVec.getLsbD_append]
  simp [hi]
  omega

/-- Every word is put together from its three fields (R45). -/
theorem formatC_fields (w : CmdWord) : formatC (fieldOpc w) (fieldA w) (fieldV w) = w := by
  refine BitVec.eq_of_getLsbD_eq fun i hi => ?_
  simp only [formatC, fieldOpc, fieldA, fieldV, BitVec.getLsbD_append, BitVec.getLsbD_extractLsb']
  by_cases h1 : i < 24
  · simp [h1]
  · by_cases h2 : i - 24 < 16
    · simp [h1, h2, show 24 + (i - 24) = i by omega]
    · simp [h1, h2, show 40 + (i - 24 - 16) = i by omega, show i - 24 - 16 < 8 by omega]

@[simp] theorem redOf_packColour (r g b : Byte) : redOf (packColour r g b) = r := by
  refine BitVec.eq_of_getLsbD_eq fun i hi => ?_
  simp only [redOf, packColour, BitVec.getLsbD_extractLsb', BitVec.getLsbD_append]
  simp [hi, show ¬ 16 + i < 8 by omega, show ¬ 16 + i - 8 < 8 by omega, show 16 + i - 8 - 8 = i by omega]

@[simp] theorem greenOf_packColour (r g b : Byte) : greenOf (packColour r g b) = g := by
  refine BitVec.eq_of_getLsbD_eq fun i hi => ?_
  simp only [greenOf, packColour, BitVec.getLsbD_extractLsb', BitVec.getLsbD_append]
  simp [hi]

@[simp] theorem blueOf_packColour (r g b : Byte) : blueOf (packColour r g b) = b := by
  refine BitVec.eq_of_getLsbD_eq fun i hi => ?_
  simp only [blueOf, packColour, BitVec.getLsbD_extractLsb', BitVec.getLsbD_append]
  simp [hi]

/-- A 24-bit value is put together from its three bytes (R36, R46). -/
@[simp] theorem packColour_parts (c : Colour) : packColour (redOf c) (greenOf c) (blueOf c) = c := by
  refine BitVec.eq_of_getLsbD_eq fun i hi => ?_
  simp only [packColour, redOf, greenOf, blueOf, BitVec.getLsbD_append, BitVec.getLsbD_extractLsb']
  by_cases h1 : i < 8
  · simp [h1]
  · by_cases h2 : i - 8 < 8
    · simp [h1, h2, show 8 + (i - 8) = i by omega]
    · simp [h1, h2, show 16 + (i - 8 - 8) = i by omega, show i - 8 - 8 < 8 by omega]

/-- Concatenation as a number: `a ++ b` has `a` in the more significant bits (R8). -/
theorem toNat_append_add {v w : Nat} (x : BitVec v) (y : BitVec w) :
    (x ++ y).toNat = x.toNat * 2 ^ w + y.toNat := by
  rw [BitVec.toNat_append, ← Nat.shiftLeft_add_eq_or_of_lt y.isLt, Nat.shiftLeft_eq]

/-- A word of format C as a number (R45). -/
theorem formatC_toNat (o : BitVec 8) (a : Index) (v : Colour) :
    (formatC o a v).toNat = o.toNat * 2 ^ 40 + a.toNat * 2 ^ 24 + v.toNat := by
  simp only [formatC, toNat_append_add]
  omega

/-- The fields of a word as numbers (R45). -/
theorem fieldOpc_toNat (w : CmdWord) : (fieldOpc w).toNat = w.toNat / 2 ^ 40 := by
  have := w.isLt
  rw [fieldOpc, BitVec.extractLsb'_toNat, Nat.shiftRight_eq_div_pow, Nat.mod_eq_of_lt (by omega)]

theorem fieldA_toNat (w : CmdWord) : (fieldA w).toNat = w.toNat / 2 ^ 24 % 2 ^ 16 := by
  rw [fieldA, BitVec.extractLsb'_toNat, Nat.shiftRight_eq_div_pow]

theorem fieldV_toNat (w : CmdWord) : (fieldV w).toNat = w.toNat % 2 ^ 24 := by
  rw [fieldV, BitVec.extractLsb'_toNat, Nat.shiftRight_eq_div_pow, pow_zero, Nat.div_one]

/-- A cut of a value is zero when the number cut from it is. -/
theorem extractLsb'_eq_zero_iff {n : Nat} (x : BitVec n) (lo k : Nat) :
    x.extractLsb' lo k = 0 ↔ x.toNat / 2 ^ lo % 2 ^ k = 0 := by
  rw [← BitVec.toNat_inj, BitVec.extractLsb'_toNat, Nat.shiftRight_eq_div_pow]
  simp

/-- `Color(r, g, b)` is the number `(r << 16) | (g << 8) | b` (R54, R116). -/
theorem packColour_toNat (r g b : Byte) :
    (packColour r g b).toNat = r.toNat * 65536 + g.toNat * 256 + b.toNat := by
  have hg := g.isLt
  have hb := b.isLt
  simp only [packColour, BitVec.toNat_append]
  rw [← Nat.shiftLeft_add_eq_or_of_lt hb, ← Nat.shiftLeft_add_eq_or_of_lt hg]
  simp only [Nat.shiftLeft_eq]
  omega

/-- When a row with must-be-zero bits decodes, they are zero and the command is the row's. -/
theorem needZero_ok {k : Nat} {zero : BitVec k} {i j : Instr} :
    needZero zero i = .ok j ↔ zero = 0 ∧ i = j := by
  unfold needZero
  split
  · simp [*]
  · simp only [reduceCtorEq, false_iff]
    exact fun h => ‹¬ zero = 0› h.1

@[simp] theorem needZero_zero {k : Nat} (i : Instr) : needZero (0 : BitVec k) i = .ok i := by simp [needZero]

/-! ### Masking a word field by field (R47) -/

theorem formatC_and (o o' : BitVec 8) (a a' : Index) (v v' : Colour) :
    formatC o a v &&& formatC o' a' v' = formatC (o &&& o') (a &&& a') (v &&& v') := by
  refine BitVec.eq_of_getLsbD_eq fun i _ => ?_
  simp only [formatC, BitVec.getLsbD_and, BitVec.getLsbD_append]
  split_ifs <;> rfl

theorem formatC_inj {o o' : BitVec 8} {a a' : Index} {v v' : Colour} :
    formatC o a v = formatC o' a' v' ↔ o = o' ∧ a = a' ∧ v = v' := by
  refine ⟨fun h => ⟨?_, ?_, ?_⟩, fun ⟨ho, ha, hv⟩ => by rw [ho, ha, hv]⟩
  · rw [← fieldOpc_formatC o a v, h, fieldOpc_formatC]
  · rw [← fieldA_formatC o a v, h, fieldA_formatC]
  · rw [← fieldV_formatC o a v, h, fieldV_formatC]

/-- The type flags are well formed when the number they make is below 4 (R49). -/
theorem flagsOk_iff (tf : Byte) : (speedClassOk tf && flagsReservedOk tf) = true ↔ tf.toNat < 4 := by
  have := tf.isLt
  simp only [speedClassOk, flagsReservedOk, Bool.and_eq_true, beq_iff_eq]
  rw [extractLsb'_eq_zero_iff, extractLsb'_eq_zero_iff]
  omega

theorem flags_masked {tf : Byte} (h : (speedClassOk tf && flagsReservedOk tf) = true) :
    packColour 0 0 tf &&& 0xFFFFFC = 0 := by
  have h4 := (flagsOk_iff tf).1 h
  have hv : tf = BitVec.ofNat 8 tf.toNat := by simp
  rw [hv]
  generalize tf.toNat = k at h4
  interval_cases k <;> decide

theorem level_masked (l : Byte) : packColour 0 0 l &&& 0xFFFF00 = 0 := by
  rw [show (0xFFFF00 : Colour) = packColour 0xFF 0xFF 0x00 by decide]
  refine BitVec.eq_of_getLsbD_eq fun i _ => ?_
  simp only [packColour, BitVec.getLsbD_and, BitVec.getLsbD_append]
  split_ifs <;> simp

end Sys2Proof
end

