-- ==== Sys2Proof/Laws/Memory.lean ====
section
/-! SUPPORT. The laws of the buffer memory: read after write, the canonical form is kept, equal reads make
equal memories, and zeroing a region is the loop of single writes. -/

namespace Sys2Proof.Machine

namespace Memory

theorem wf_nil : wf [] := by simp [wf]

theorem wf_cons {x : Nat} {b : Byte} {m : Memory} :
    wf ((x, b) :: m) ↔ (∀ c ∈ m, x < c.1) ∧ b ≠ unlisted ∧ wf m := by
  simp only [wf, List.pairwise_cons, List.mem_cons, forall_eq_or_imp]
  tauto

@[simp] theorem read_nil (a : Nat) : read [] a = unlisted := rfl

theorem read_cons (x : Nat) (b : Byte) (m : Memory) (a : Nat) :
    read ((x, b) :: m) a = if x = a then b else read m a := rfl

/-- An address that no entry lists reads as an unlisted one. -/
theorem read_of_forall_ne {m : Memory} {a : Nat} (h : ∀ c ∈ m, c.1 ≠ a) : read m a = unlisted := by
  induction m with
  | nil => rfl
  | cons c m ih =>
    obtain ⟨x, b⟩ := c
    rw [read_cons, if_neg (h (x, b) (by simp))]
    exact ih fun c hc => h c (by simp [hc])

/-- The addresses of a memory after a write are the old ones and the one written. -/
theorem mem_write {m : Memory} {a : Nat} {v : Byte} {c : Host.Cell} (h : c ∈ write m a v) :
    c ∈ m ∨ (c = (a, v) ∧ v ≠ unlisted) := by
  induction m with
  | nil =>
    simp only [write] at h
    split at h
    · simp at h
    · exact .inr ⟨by simpa using h, ‹_›⟩
  | cons e m ih =>
    obtain ⟨x, b⟩ := e
    simp only [write] at h
    split at h
    · split at h
      · exact .inl h
      · rcases List.mem_cons.1 h with h | h
        · exact .inr ⟨h, ‹_›⟩
        · exact .inl h
    · split at h
      · split at h
        · exact .inl (by simp [h])
        · rcases List.mem_cons.1 h with h | h
          · exact .inr ⟨h, ‹_›⟩
          · exact .inl (by simp [h])
      · rcases List.mem_cons.1 h with h | h
        · exact .inl (by simp [h])
        · rcases ih h with h | h
          · exact .inl (by simp [h])
          · exact .inr h

/-- A write keeps the canonical form. -/
theorem wf_write {m : Memory} (h : wf m) (a : Nat) (v : Byte) : wf (write m a v) := by
  induction m with
  | nil =>
    simp only [write]
    split
    · exact wf_nil
    · exact wf_cons.2 ⟨by simp, ‹_›, wf_nil⟩
  | cons e m ih =>
    obtain ⟨x, b⟩ := e
    obtain ⟨hx, hb, hm⟩ := wf_cons.1 h
    simp only [write]
    split
    · split
      · exact h
      · refine wf_cons.2 ⟨fun c hc => ?_, ‹_›, h⟩
        rcases List.mem_cons.1 hc with rfl | hc
        · assumption
        · exact lt_trans ‹_› (hx c hc)
    · split
      · split
        · exact hm
        · subst_vars
          exact wf_cons.2 ⟨hx, ‹_›, hm⟩
      · refine wf_cons.2 ⟨fun c hc => ?_, hb, ih hm⟩
        rcases mem_write hc with hc | ⟨rfl, -⟩
        · exact hx c hc
        · show x < a
          omega

/-- Read after write. -/
theorem read_write {m : Memory} (h : wf m) (a b : Nat) (v : Byte) :
    read (write m a v) b = if a = b then v else read m b := by
  induction m with
  | nil =>
    simp only [write, read_nil]
    split
    · subst_vars
      simp
    · simp [read_cons]
  | cons e m ih =>
    obtain ⟨x, c⟩ := e
    obtain ⟨hx, hc, hm⟩ := wf_cons.1 h
    have habsent : ∀ y, y < x → read ((x, c) :: m) y = unlisted := fun y hy =>
      read_of_forall_ne fun e he => by
        rcases List.mem_cons.1 he with rfl | he
        · exact fun h => absurd h (by simpa using hy.ne')
        · exact fun h => absurd (hx e he) (by omega)
    simp only [write]
    split
    · split
      · subst_vars
        by_cases hab : a = b
        · subst hab
          rw [if_pos rfl]
          exact habsent a ‹_›
        · rw [if_neg hab]
      · rw [read_cons]
    · split
      · subst_vars
        by_cases hab : x = b
        · subst hab
          rw [if_pos rfl]
          split
          · subst_vars
            exact read_of_forall_ne fun e he h => absurd (hx e he) (by omega)
          · simp [read_cons]
        · rw [if_neg hab, read_cons, if_neg hab]
          split
          · rfl
          · rw [read_cons, if_neg hab]
      · rw [read_cons, ih hm, read_cons]
        by_cases hab : a = b
        · subst hab
          simp [*]
        · simp [hab]

@[simp] theorem read_write_same {m : Memory} (h : wf m) (a : Nat) (v : Byte) :
    read (write m a v) a = v := by rw [read_write h, if_pos rfl]

theorem read_write_ne {m : Memory} (h : wf m) {a b : Nat} (hab : a ≠ b) (v : Byte) :
    read (write m a v) b = read m b := by rw [read_write h, if_neg hab]

/-- In the canonical form an entry is what its address reads as. -/
theorem read_of_mem {m : Memory} (h : wf m) {c : Host.Cell} (hc : c ∈ m) : read m c.1 = c.2 := by
  induction m with
  | nil => simp at hc
  | cons e m ih =>
    obtain ⟨x, b⟩ := e
    obtain ⟨hx, -, hm⟩ := wf_cons.1 h
    rcases List.mem_cons.1 hc with rfl | hc
    · simp [read_cons]
    · rw [read_cons, if_neg (hx c hc).ne, ih hm hc]

/-- In the canonical form a byte that is not listed reads as an unlisted one, and only such a byte does. -/
theorem mem_of_read_ne {m : Memory} {a : Nat} (h : read m a ≠ unlisted) : (a, read m a) ∈ m := by
  induction m with
  | nil => simp at h
  | cons e m ih =>
    obtain ⟨x, b⟩ := e
    rw [read_cons] at h ⊢
    split at h
    · subst_vars
      simp
    · rw [if_neg ‹_›]
      exact List.mem_cons_of_mem _ (ih h)

/-- Memories in canonical form that read the same everywhere are equal data. -/
theorem ext_of_wf {m m' : Memory} (h : wf m) (h' : wf m') (hr : ∀ a, read m a = read m' a) : m = m' := by
  have sub : ∀ {p q : Memory}, wf p → (∀ a, read p a = read q a) → ∀ c ∈ p, c ∈ q := by
    intro p q hp hpq c hc
    have hv := read_of_mem hp hc
    have hne : read q c.1 ≠ unlisted := by
      rw [← hpq, hv]
      exact hp.2 c hc
    have := mem_of_read_ne hne
    rwa [← hpq, hv] at this
  have nodup : ∀ {p : Memory}, wf p → p.Nodup := fun {p} hp =>
    hp.1.imp fun {a b} (hab : a.1 < b.1) he => absurd hab (by simp [he])
  have perm : m.Perm m' := (List.perm_ext_iff_of_nodup (nodup h) (nodup h')).2 fun c =>
    ⟨sub h hr c, sub h' (fun a => (hr a).symm) c⟩
  exact perm.eq_of_pairwise (fun a b _ _ hab hba => absurd hab (by omega)) h.1 h'.1

theorem wf_zeroBelow {m : Memory} (h : wf m) (n : Nat) : wf (zeroBelow m n) :=
  ⟨h.1.filter _, fun c hc => h.2 c (List.mem_filter.1 hc).1⟩

theorem read_zeroBelow (m : Memory) (n a : Nat) :
    read (zeroBelow m n) a = if a < n then unlisted else read m a := by
  induction m with
  | nil => simp [zeroBelow]
  | cons e m ih =>
    obtain ⟨x, b⟩ := e
    have hcons : zeroBelow ((x, b) :: m) n =
        if n ≤ x then (x, b) :: zeroBelow m n else zeroBelow m n := by
      simp [zeroBelow, List.filter_cons]
    rw [hcons]
    split
    · rw [read_cons, read_cons, ih]
      split
      · rw [if_neg (by omega)]
      · rfl
    · rw [ih, read_cons]
      split
      · rfl
      · rw [if_neg (by omega)]

theorem mem_zeroBelow {m : Memory} {n : Nat} {c : Host.Cell} (h : c ∈ zeroBelow m n) : c ∈ m :=
  (List.mem_filter.1 h).1

/-- Zeroing a region is the loop `for a in 0 .. n - 1: BUF[a] <- 0x00` of R65 and R71. -/
theorem zeroBelow_eq_loop {m : Memory} (h : wf m) (n : Nat) :
    zeroBelow m n = (List.range n).foldl (fun m a => write m a 0x00) m := by
  have loop : ∀ k, wf ((List.range k).foldl (fun m a => write m a 0x00) m) ∧
      ∀ a, read ((List.range k).foldl (fun m a => write m a 0x00) m) a =
        if a < k then unlisted else read m a := by
    intro k
    induction k with
    | zero => exact ⟨h, by simp⟩
    | succ k ih =>
      simp only [List.range_succ, List.foldl_append, List.foldl_cons, List.foldl_nil]
      refine ⟨wf_write ih.1 _ _, fun a => ?_⟩
      rw [read_write ih.1, ih.2]
      by_cases hka : k = a
      · subst hka
        simp [unlisted]
      · rw [if_neg hka]
        have hiff : a < k + 1 ↔ a < k := by omega
        simp only [hiff]
  exact ext_of_wf (wf_zeroBelow h n) (loop n).1 fun a => by rw [read_zeroBelow, (loop n).2]

end Memory

end Sys2Proof.Machine
end

