-- ==== Sys2Proof/Laws/Expand.lean ====
section
/-! SUPPORT. `expand8` and `collapse8` (R56, R57): what they read and write, and that they are inverse. -/

namespace Sys2Proof.Machine

/-- Writing consecutive bytes: the shape of `expand8`. -/
theorem writeRun_spec {m : Memory} (h : m.wf) (base : Nat) (f : Nat → Byte) (k : Nat) :
    Memory.wf ((List.range k).foldl (fun m i => m.write (base + i) (f i)) m) ∧
    ∀ a, Memory.read ((List.range k).foldl (fun m i => m.write (base + i) (f i)) m) a =
      if base ≤ a ∧ a < base + k then f (a - base) else m.read a := by
  induction k with
  | zero =>
    refine ⟨h, fun a => ?_⟩
    rw [if_neg (by omega)]
    rfl
  | succ k ih =>
    simp only [List.range_succ, List.foldl_append, List.foldl_cons, List.foldl_nil]
    refine ⟨Memory.wf_write ih.1 _ _, fun a => ?_⟩
    rw [Memory.read_write ih.1, ih.2]
    by_cases hka : base + k = a
    · subst hka
      simp
    · rw [if_neg hka]
      have hiff : (base ≤ a ∧ a < base + (k + 1)) ↔ (base ≤ a ∧ a < base + k) := by omega
      simp only [hiff]

theorem wf_expand8 {m : Memory} (h : m.wf) (base : Nat) (v : Byte) : (expand8 m base v).wf :=
  (writeRun_spec h base (bitByte v) 8).1

/-- What a byte reads as after `expand8` (R56). -/
theorem read_expand8 {m : Memory} (h : m.wf) (base : Nat) (v : Byte) (a : Nat) :
    (expand8 m base v).read a =
      if base ≤ a ∧ a < base + 8 then bitByte v (a - base) else m.read a :=
  (writeRun_spec h base (bitByte v) 8).2 a

/-- The entries of a memory after a run of writes are old ones or lie in the run. -/
theorem mem_writeRun {m : Memory} (base : Nat) (f : Nat → Byte) (k : Nat) {c : Host.Cell}
    (hc : c ∈ (List.range k).foldl (fun m i => m.write (base + i) (f i)) m) :
    c ∈ m ∨ (base ≤ c.1 ∧ c.1 < base + k) := by
  induction k with
  | zero => exact .inl hc
  | succ k ih =>
    simp only [List.range_succ, List.foldl_append, List.foldl_cons, List.foldl_nil] at hc
    rcases Memory.mem_write hc with hc | ⟨rfl, -⟩
    · rcases ih hc with hc | hc
      · exact .inl hc
      · exact .inr (by omega)
    · exact .inr (by simp)

theorem mem_expand8 {m : Memory} {base : Nat} {v : Byte} {c : Host.Cell} (hc : c ∈ expand8 m base v) :
    c ∈ m ∨ (base ≤ c.1 ∧ c.1 < base + 8) := mem_writeRun base (bitByte v) 8 hc

/-- `bitByte` is 0x00 or 0x01 (R63). -/
theorem bitByte_binary (v : Byte) (i : Nat) : bitByte v i = 0x00 ∨ bitByte v i = 0x01 := by
  unfold bitByte
  split <;> simp

@[simp] theorem bitByte_bit (v : Byte) (i : Nat) : (bitByte v i).getLsbD 0 = v.getLsbD (7 - i) := by
  unfold bitByte
  split <;> simp [*]

/-- `collapse8` from the eight bits it reads (R57). -/
def ofBits (f : Nat → Bool) : Byte :=
  BitVec.ofNat 8 ((List.range 8).foldl (fun acc i => acc + (f i).toNat <<< (7 - i)) 0)

theorem collapse8_eq_ofBits (m : Memory) (base : Nat) :
    collapse8 m base = ofBits fun i => (m.read (base + i)).getLsbD 0 := rfl

theorem ofBits_congr {f g : Nat → Bool} (h : ∀ i < 8, f i = g i) : ofBits f = ofBits g := by
  unfold ofBits
  congr 1
  simp [List.range_succ, h]

theorem getLsbD_ofBits (f : Nat → Bool) {j : Nat} (hj : j < 8) : (ofBits f).getLsbD j = f (7 - j) := by
  have key : ∀ b0 b1 b2 b3 b4 b5 b6 b7 : Bool, ∀ j : Fin 8,
      (BitVec.ofNat 8 (b0.toNat * 128 + b1.toNat * 64 + b2.toNat * 32 + b3.toNat * 16 + b4.toNat * 8 +
        b5.toNat * 4 + b6.toNat * 2 + b7.toNat)).getLsbD j =
        [b7, b6, b5, b4, b3, b2, b1, b0][j]'(by simp) := by decide
  have h := key (f 0) (f 1) (f 2) (f 3) (f 4) (f 5) (f 6) (f 7) ⟨j, hj⟩
  have hs : ofBits f = BitVec.ofNat 8 ((f 0).toNat * 128 + (f 1).toNat * 64 + (f 2).toNat * 32 +
      (f 3).toNat * 16 + (f 4).toNat * 8 + (f 5).toNat * 4 + (f 6).toNat * 2 + (f 7).toNat) := by
    simp [ofBits, List.range_succ, Nat.shiftLeft_eq]
  rw [hs, h]
  interval_cases j <;> rfl

/-- Bit `j` of a logical byte is bit 0 of the byte at `base + 7 - j` (R57). -/
theorem getLsbD_collapse8 (m : Memory) (base : Nat) {j : Nat} (hj : j < 8) :
    (collapse8 m base).getLsbD j = (m.read (base + (7 - j))).getLsbD 0 := by
  rw [collapse8_eq_ofBits, getLsbD_ofBits _ hj]

/-- `collapse8` depends only on the eight bytes it reads. -/
theorem collapse8_congr {m m' : Memory} {base : Nat}
    (h : ∀ i < 8, m.read (base + i) = m'.read (base + i)) : collapse8 m base = collapse8 m' base := by
  rw [collapse8_eq_ofBits, collapse8_eq_ofBits]
  exact ofBits_congr fun i hi => by rw [h i hi]

/-- A region that reads as the expansion of `v` collapses to `v`. -/
theorem collapse8_of_reads {m : Memory} {base : Nat} {v : Byte}
    (h : ∀ i < 8, m.read (base + i) = bitByte v i) : collapse8 m base = v := by
  refine BitVec.eq_of_getLsbD_eq fun j hj => ?_
  rw [getLsbD_collapse8 m base hj, h (7 - j) (by omega), bitByte_bit]
  congr 1
  omega

/-- "`collapse8(base)` after `expand8(base, v)` is `v`" (R57). -/
theorem collapse8_expand8 {m : Memory} (h : m.wf) (base : Nat) (v : Byte) :
    collapse8 (expand8 m base v) base = v :=
  collapse8_of_reads fun i hi => by
    rw [read_expand8 h, if_pos (by omega)]
    congr 1
    omega

/-- `expand8` leaves the logical bytes outside its region alone. -/
theorem collapse8_expand8_of_disjoint {m : Memory} (h : m.wf) {base base' : Nat} (v : Byte)
    (hd : base + 8 ≤ base' ∨ base' + 8 ≤ base) :
    collapse8 (expand8 m base v) base' = collapse8 m base' :=
  collapse8_congr fun i hi => by rw [read_expand8 h, if_neg (by omega)]

/-- A region of 0x00 and 0x01 bytes reads as the expansion of its logical byte. -/
theorem read_eq_bitByte_collapse8 {m : Memory} {base i : Nat} (hi : i < 8)
    (hb : m.read (base + i) = 0x00 ∨ m.read (base + i) = 0x01) :
    m.read (base + i) = bitByte (collapse8 m base) i := by
  have hbit := getLsbD_collapse8 m base (j := 7 - i) (by omega)
  have hidx : base + (7 - (7 - i)) = base + i := by omega
  rw [hidx] at hbit
  unfold bitByte
  rw [hbit]
  rcases hb with hb | hb <;> simp [hb]

/-- "`expand8(base, collapse8(base))` changes nothing" on 0x00 and 0x01 bytes (R57, R63). -/
theorem expand8_collapse8 {m : Memory} (h : m.wf) (base : Nat)
    (hb : ∀ i < 8, m.read (base + i) = 0x00 ∨ m.read (base + i) = 0x01) :
    expand8 m base (collapse8 m base) = m := by
  refine Memory.ext_of_wf (wf_expand8 h _ _) h fun a => ?_
  rw [read_expand8 h]
  split
  · rename_i ha
    obtain ⟨i, rfl⟩ : ∃ i, a = base + i := ⟨a - base, by omega⟩
    rw [Nat.add_sub_cancel_left]
    exact (read_eq_bitByte_collapse8 (by omega) (hb i (by omega))).symm
  · rfl

/-- A zeroed region collapses to 0. -/
theorem collapse8_of_zero {m : Memory} {base : Nat} (h : ∀ i < 8, m.read (base + i) = 0) :
    collapse8 m base = 0 :=
  collapse8_of_reads fun i hi => by simp [h i hi, bitByte]

end Sys2Proof.Machine
end

