-- ==== Sys2Proof/Laws/PixelBuffer.lean ====
section
/-! SUPPORT. The operations behind the buffer commands: what `writeSlot` stores and where (R33, R68), what
SETBRT's loops do to every logical byte (R72), and the reads behind GETPIX (R70). -/

namespace Sys2Proof.Machine

/-! ### Writing a slot -/

theorem wf_writeSlot {m : Memory} (h : m.wf) (base : Nat) (brt r g b : Byte) :
    (writeSlot m base brt r g b).wf := wf_expand8 (wf_expand8 (wf_expand8 h _ _) _ _) _ _

/-- What a byte reads as after SETRGB wrote the slot at `base` (R33, R68). -/
theorem read_writeSlot {m : Memory} (h : m.wf) (base : Nat) (brt r g b : Byte) (a : Nat) :
    (writeSlot m base brt r g b).read a =
      if base ≤ a ∧ a < base + 8 then bitByte (scaleIn g brt) (a - base)
      else if base + 8 ≤ a ∧ a < base + 16 then bitByte (scaleIn r brt) (a - (base + 8))
      else if base + 16 ≤ a ∧ a < base + 24 then bitByte (scaleIn b brt) (a - (base + 16))
      else m.read a := by
  unfold writeSlot
  rw [read_expand8 (wf_expand8 (wf_expand8 h _ _) _ _), read_expand8 (wf_expand8 h _ _), read_expand8 h]
  split_ifs <;> first | rfl | omega

theorem mem_writeSlot {m : Memory} {base : Nat} {brt r g b : Byte} {c : Host.Cell}
    (hc : c ∈ writeSlot m base brt r g b) : c ∈ m ∨ (base ≤ c.1 ∧ c.1 < base + 24) := by
  unfold writeSlot at hc
  rcases mem_expand8 hc with hc | hc
  · rcases mem_expand8 hc with hc | hc
    · rcases mem_expand8 hc with hc | hc
      · exact .inl hc
      · exact .inr (by omega)
    · exact .inr (by omega)
  · exact .inr (by omega)

/-- The three logical bytes of a slot after SETRGB: green, red, blue, scaled (R33, R68). -/
theorem collapse8_writeSlot {m : Memory} (h : m.wf) (base : Nat) (brt r g b : Byte) :
    collapse8 (writeSlot m base brt r g b) base = scaleIn g brt ∧
    collapse8 (writeSlot m base brt r g b) (base + 8) = scaleIn r brt ∧
    collapse8 (writeSlot m base brt r g b) (base + 16) = scaleIn b brt := by
  have h1 := wf_expand8 h base (scaleIn g brt)
  have h2 := wf_expand8 h1 (base + 8) (scaleIn r brt)
  unfold writeSlot
  refine ⟨?_, ?_, collapse8_expand8 h2 _ _⟩
  · rw [collapse8_expand8_of_disjoint h2 _ (by omega), collapse8_expand8_of_disjoint h1 _ (by omega),
      collapse8_expand8 h]
  · rw [collapse8_expand8_of_disjoint h2 _ (by omega), collapse8_expand8 h1]

/-- SETRGB leaves every logical byte outside its slot alone. -/
theorem collapse8_writeSlot_of_disjoint {m : Memory} (h : m.wf) {base base' : Nat} (brt r g b : Byte)
    (hd : base + 24 ≤ base' ∨ base' + 8 ≤ base) :
    collapse8 (writeSlot m base brt r g b) base' = collapse8 m base' :=
  collapse8_congr fun i hi => by
    rw [read_writeSlot h, if_neg (by omega), if_neg (by omega), if_neg (by omega)]

/-! ### SETBRT's loops -/

/-- The regions of a slot and the slots of the buffer as one run: region `j` is at `8 * j`. -/
def rescaleRegions (factor : Nat) (m : Memory) (k : Nat) : Memory :=
  (List.range k).foldl (fun m j => rescaleRegion factor m (8 * j)) m

theorem rescaleRegions_succ (factor : Nat) (m : Memory) (k : Nat) :
    rescaleRegions factor m (k + 1) = rescaleRegion factor (rescaleRegions factor m k) (8 * k) := by
  simp [rescaleRegions, List.range_succ]

/-- The two nested loops of R72 visit the `3 * N` regions in ascending order. -/
theorem rescaleAll_eq_regions (factor : Nat) (m : Memory) (n : Nat) :
    rescaleAll factor m n = rescaleRegions factor m (3 * n) := by
  induction n with
  | zero => simp [rescaleAll, rescaleRegions]
  | succ n ih =>
    have hs : rescaleAll factor m (n + 1) = rescaleSlot factor (rescaleAll factor m n) n := by
      simp [rescaleAll, List.range_succ]
    have hslot : ∀ m : Memory, rescaleSlot factor m n = rescaleRegion factor (rescaleRegion factor
        (rescaleRegion factor m (8 * (3 * n))) (8 * (3 * n + 1))) (8 * (3 * n + 1 + 1)) := by
      intro m
      rw [show 8 * (3 * n) = 24 * n + 8 * 0 by omega, show 8 * (3 * n + 1) = 24 * n + 8 * 1 by omega,
        show 8 * (3 * n + 1 + 1) = 24 * n + 8 * 2 by omega]
      simp only [rescaleSlot, List.range_succ, List.range_zero, List.nil_append, List.foldl_append,
        List.foldl_cons, List.foldl_nil]
    rw [hs, ih, hslot, ← rescaleRegions_succ, ← rescaleRegions_succ, ← rescaleRegions_succ,
      show 3 * n + 1 + 1 + 1 = 3 * (n + 1) by ring]

/-- What SETBRT's loops do: every logical byte of the first `k` regions is rescaled once, and every other
byte of memory reads as before. -/
theorem rescaleRegions_spec {m : Memory} (h : m.wf) (factor k : Nat) :
    (rescaleRegions factor m k).wf ∧
    ∀ a, (rescaleRegions factor m k).read a =
      if a < 8 * k then bitByte (rescale (collapse8 m (8 * (a / 8))) factor) (a % 8) else m.read a := by
  induction k with
  | zero => exact ⟨h, fun a => by rw [if_neg (by omega)]; rfl⟩
  | succ k ih =>
    obtain ⟨hwf, hread⟩ := ih
    rw [rescaleRegions_succ]
    refine ⟨wf_expand8 hwf _ _, fun a => ?_⟩
    have hc : collapse8 (rescaleRegions factor m k) (8 * k) = collapse8 m (8 * k) :=
      collapse8_congr fun i hi => by rw [hread, if_neg (by omega)]
    rw [rescaleRegion, read_expand8 hwf, hc, hread]
    by_cases ha : 8 * k ≤ a ∧ a < 8 * k + 8
    · have hq : a / 8 = k := by omega
      rw [if_pos ha, if_pos (by omega), hq]
      congr 1
      omega
    · rw [if_neg ha]
      have hiff : a < 8 * (k + 1) ↔ a < 8 * k := by omega
      simp only [hiff]

theorem wf_rescaleAll {m : Memory} (h : m.wf) (factor n : Nat) : (rescaleAll factor m n).wf := by
  rw [rescaleAll_eq_regions]
  exact (rescaleRegions_spec h factor _).1

/-- What a byte reads as after SETBRT's loops over `n` pixels (R72). -/
theorem read_rescaleAll {m : Memory} (h : m.wf) (factor n a : Nat) :
    (rescaleAll factor m n).read a =
      if a < 24 * n then bitByte (rescale (collapse8 m (8 * (a / 8))) factor) (a % 8) else m.read a := by
  rw [rescaleAll_eq_regions, (rescaleRegions_spec h factor _).2]
  have hiff : a < 8 * (3 * n) ↔ a < 24 * n := by omega
  simp only [hiff]

/-- SETBRT rescales each of the `3 * N` channel values once (R72). -/
theorem collapse8_rescaleAll {m : Memory} (h : m.wf) (factor : Nat) {n p k : Nat} (hp : p < n) (hk : k < 3) :
    collapse8 (rescaleAll factor m n) (24 * p + 8 * k) =
      rescale (collapse8 m (24 * p + 8 * k)) factor :=
  collapse8_of_reads fun i hi => by
    rw [read_rescaleAll h, if_pos (by omega)]
    have hq : 8 * ((24 * p + 8 * k + i) / 8) = 24 * p + 8 * k := by omega
    have hr : (24 * p + 8 * k + i) % 8 = i := by omega
    rw [hq, hr]

theorem mem_rescaleAll {m : Memory} {factor n : Nat} {c : Host.Cell} (hc : c ∈ rescaleAll factor m n) :
    c ∈ m ∨ c.1 < 24 * n := by
  rw [rescaleAll_eq_regions] at hc
  have key : ∀ k, c ∈ rescaleRegions factor m k → c ∈ m ∨ c.1 < 8 * k := by
    intro k
    induction k with
    | zero => exact fun h => .inl h
    | succ k ih =>
      rw [rescaleRegions_succ]
      intro h
      rcases mem_expand8 h with h | h
      · rcases ih h with h | h
        · exact .inl h
        · exact .inr (by omega)
      · exact .inr (by omega)
  rcases key _ hc with h | h
  · exact .inl h
  · exact .inr (by omega)

/-! ### The responses and the commands -/

/-- The three parts of GETPIX's response (R70). -/
theorem readSlot_parts (m : Memory) (base : Nat) (order : Order) (brt : Byte) :
    redOf (readSlot m base order brt) = readRole m base (rOff order) brt ∧
    greenOf (readSlot m base order brt) = readRole m base (gOff order) brt ∧
    blueOf (readSlot m base order brt) = readRole m base (bOff order) brt := by
  simp [readSlot]

/-- Where an access is answered by its continuation. -/
theorem withRange_of_le {s : State} {base len : Nat} {k : Result} (h : base + len ≤ s.cfg.bufBytes) :
    s.withRange base len k = k := if_pos h

/-- Under the size invariant of R62 a slot in range lies in the buffer. -/
theorem slot_in_buffer {s : State} (hsize : s.n.toNat ≤ s.cfg.maxPixels) {index : Index}
    (hi : index.toNat < s.n.toNat) : slotBase index + 24 ≤ s.cfg.bufBytes := by
  unfold slotBase Config.bufBytes
  omega

/-- Under the size invariant of R62 the valid region lies in the buffer. -/
theorem valid_in_buffer {s : State} (hsize : s.n.toNat ≤ s.cfg.maxPixels) :
    0 + s.validBytes ≤ s.cfg.bufBytes := by
  unfold State.validBytes Config.bufBytes
  omega

/-- Everything `setPixel` can do (R68, R139): out of range nothing, in flight the fault, else the slot. -/
theorem setPixel_cases (index : Index) (r g b : Byte) (s : State) :
    (s.n.toNat ≤ index.toNat ∧ setPixel index r g b s = .next s) ∨
    (index.toNat < s.n.toNat ∧ s.eng.state ≠ .idle ∧
      setPixel index r g b s = .next (s.raise .bufferWriteInFlight)) ∨
    (index.toNat < s.n.toNat ∧ s.eng.state = .idle ∧ s.cfg.bufBytes < slotBase index + 24 ∧
      setPixel index r g b s = .fault .noSuchBufferAddress) ∨
    (index.toNat < s.n.toNat ∧ s.eng.state = .idle ∧ slotBase index + 24 ≤ s.cfg.bufBytes ∧
      setPixel index r g b s =
        .next { s with buf := writeSlot s.buf (slotBase index) s.brt r g b }) := by
  unfold setPixel State.inRange State.withRange
  split_ifs <;> simp_all

end Sys2Proof.Machine
end

