-- ==== Sys2Proof/Laws/State.lean ====
section
/-! SUPPORT. One lemma per field per named update of the state: what the update leaves of it. -/

namespace Sys2Proof.Machine

variable (s : State)

/-! ### `respond` -/

@[simp] theorem respond_cfg (v : Colour) : (s.respond v).cfg = s.cfg := rfl
@[simp] theorem respond_n (v : Colour) : (s.respond v).n = s.n := rfl
@[simp] theorem respond_order (v : Colour) : (s.respond v).order = s.order := rfl
@[simp] theorem respond_brt (v : Colour) : (s.respond v).brt = s.brt := rfl
@[simp] theorem respond_buf (v : Colour) : (s.respond v).buf = s.buf := rfl
@[simp] theorem respond_begun (v : Colour) : (s.respond v).begun = s.begun := rfl
@[simp] theorem respond_eng (v : Colour) : (s.respond v).eng = s.eng := rfl
@[simp] theorem respond_tim (v : Colour) : (s.respond v).tim = s.tim := rfl
@[simp] theorem respond_dma (v : Colour) : (s.respond v).dma = s.dma := rfl
@[simp] theorem respond_gpio (v : Colour) : (s.respond v).gpio = s.gpio := rfl
@[simp] theorem respond_fault (v : Colour) : (s.respond v).fault = s.fault := rfl
@[simp] theorem respond_rsp (v : Colour) : (s.respond v).rsp = some v := rfl
@[simp] theorem respond_schedule (v : Colour) : (s.respond v).schedule = s.schedule := rfl

/-! ### `takeEvent` -/

@[simp] theorem takeEvent_cfg : (s.takeEvent).cfg = s.cfg := rfl
@[simp] theorem takeEvent_n : (s.takeEvent).n = s.n := rfl
@[simp] theorem takeEvent_order : (s.takeEvent).order = s.order := rfl
@[simp] theorem takeEvent_brt : (s.takeEvent).brt = s.brt := rfl
@[simp] theorem takeEvent_buf : (s.takeEvent).buf = s.buf := rfl
@[simp] theorem takeEvent_begun : (s.takeEvent).begun = s.begun := rfl
@[simp] theorem takeEvent_eng : (s.takeEvent).eng = s.eng := rfl
@[simp] theorem takeEvent_tim : (s.takeEvent).tim = s.tim := rfl
@[simp] theorem takeEvent_dma : (s.takeEvent).dma = s.dma := rfl
@[simp] theorem takeEvent_gpio : (s.takeEvent).gpio = s.gpio := rfl
@[simp] theorem takeEvent_fault : (s.takeEvent).fault = s.fault := rfl
@[simp] theorem takeEvent_rsp : (s.takeEvent).rsp = none := rfl
@[simp] theorem takeEvent_schedule : (s.takeEvent).schedule = s.schedule.tail := rfl

/-! ### `presentWord` -/

@[simp] theorem presentWord_cfg (w : CmdWord) : (s.presentWord w).cfg = s.cfg := rfl
@[simp] theorem presentWord_n (w : CmdWord) : (s.presentWord w).n = s.n := rfl
@[simp] theorem presentWord_order (w : CmdWord) : (s.presentWord w).order = s.order := rfl
@[simp] theorem presentWord_brt (w : CmdWord) : (s.presentWord w).brt = s.brt := rfl
@[simp] theorem presentWord_buf (w : CmdWord) : (s.presentWord w).buf = s.buf := rfl
@[simp] theorem presentWord_begun (w : CmdWord) : (s.presentWord w).begun = s.begun := rfl
@[simp] theorem presentWord_eng (w : CmdWord) : (s.presentWord w).eng = s.eng := rfl
@[simp] theorem presentWord_tim (w : CmdWord) : (s.presentWord w).tim = s.tim := rfl
@[simp] theorem presentWord_dma (w : CmdWord) : (s.presentWord w).dma = s.dma := rfl
@[simp] theorem presentWord_gpio (w : CmdWord) : (s.presentWord w).gpio = s.gpio := rfl
@[simp] theorem presentWord_fault (w : CmdWord) : (s.presentWord w).fault = s.fault := rfl
@[simp] theorem presentWord_rsp (w : CmdWord) : (s.presentWord w).rsp = s.rsp := rfl
@[simp] theorem presentWord_schedule (w : CmdWord) :
    (s.presentWord w).schedule = .cmd w :: s.schedule := rfl

/-! ### `raise` -/

@[simp] theorem raise_cfg (f : ModelFault) : (s.raise f).cfg = s.cfg := by
  unfold State.raise
  split <;> rfl

@[simp] theorem raise_n (f : ModelFault) : (s.raise f).n = s.n := by
  unfold State.raise
  split <;> rfl

@[simp] theorem raise_order (f : ModelFault) : (s.raise f).order = s.order := by
  unfold State.raise
  split <;> rfl

@[simp] theorem raise_brt (f : ModelFault) : (s.raise f).brt = s.brt := by
  unfold State.raise
  split <;> rfl

@[simp] theorem raise_buf (f : ModelFault) : (s.raise f).buf = s.buf := by
  unfold State.raise
  split <;> rfl

@[simp] theorem raise_begun (f : ModelFault) : (s.raise f).begun = s.begun := by
  unfold State.raise
  split <;> rfl

@[simp] theorem raise_eng (f : ModelFault) : (s.raise f).eng = s.eng := by
  unfold State.raise
  split <;> rfl

@[simp] theorem raise_tim (f : ModelFault) : (s.raise f).tim = s.tim := by
  unfold State.raise
  split <;> rfl

@[simp] theorem raise_dma (f : ModelFault) : (s.raise f).dma = s.dma := by
  unfold State.raise
  split <;> rfl

@[simp] theorem raise_gpio (f : ModelFault) : (s.raise f).gpio = s.gpio := by
  unfold State.raise
  split <;> rfl

@[simp] theorem raise_fault (f : ModelFault) :
    (s.raise f).fault = if s.fault = 0 then f.code else s.fault := by
  unfold State.raise
  split <;> simp_all

@[simp] theorem raise_rsp (f : ModelFault) : (s.raise f).rsp = s.rsp := by
  unfold State.raise
  split <;> rfl

@[simp] theorem raise_schedule (f : ModelFault) : (s.raise f).schedule = s.schedule := by
  unfold State.raise
  split <;> rfl

/-! ### `resetEdge` -/

@[simp] theorem resetEdge_cfg : (resetEdge s).cfg = s.cfg := rfl
@[simp] theorem resetEdge_n : (resetEdge s).n = 0 := rfl
@[simp] theorem resetEdge_order : (resetEdge s).order = .grb := rfl
@[simp] theorem resetEdge_brt : (resetEdge s).brt = 0 := rfl
@[simp] theorem resetEdge_buf : (resetEdge s).buf = s.buf := rfl
@[simp] theorem resetEdge_begun : (resetEdge s).begun = false := rfl
@[simp] theorem resetEdge_eng : (resetEdge s).eng = .reset := rfl
@[simp] theorem resetEdge_tim : (resetEdge s).tim = .reset := rfl
@[simp] theorem resetEdge_dma : (resetEdge s).dma = .reset := rfl
@[simp] theorem resetEdge_gpio : (resetEdge s).gpio = .reset := rfl
@[simp] theorem resetEdge_fault : (resetEdge s).fault = 0 := rfl
@[simp] theorem resetEdge_rsp : (resetEdge s).rsp = none := rfl
@[simp] theorem resetEdge_schedule : (resetEdge s).schedule = s.schedule := rfl

/-! ### `resize` -/

@[simp] theorem resize_cfg (n : Index) : (resize n s).cfg = s.cfg := by
  unfold resize
  split <;> rfl

@[simp] theorem resize_n (n : Index) : (resize n s).n = if s.cfg.maxPixels < n.toNat then 0 else n := by
  unfold resize
  split <;> simp_all

@[simp] theorem resize_order (n : Index) : (resize n s).order = s.order := by
  unfold resize
  split <;> rfl

@[simp] theorem resize_brt (n : Index) : (resize n s).brt = s.brt := by
  unfold resize
  split <;> rfl

@[simp] theorem resize_buf (n : Index) :
    (resize n s).buf = if s.cfg.maxPixels < n.toNat then s.buf else s.buf.zeroBelow (24 * n.toNat) := by
  unfold resize
  split <;> simp_all

@[simp] theorem resize_begun (n : Index) : (resize n s).begun = s.begun := by
  unfold resize
  split <;> rfl

@[simp] theorem resize_eng (n : Index) : (resize n s).eng = s.eng := by
  unfold resize
  split <;> rfl

@[simp] theorem resize_tim (n : Index) : (resize n s).tim = s.tim := by
  unfold resize
  split <;> rfl

@[simp] theorem resize_dma (n : Index) : (resize n s).dma = s.dma := by
  unfold resize
  split <;> rfl

@[simp] theorem resize_gpio (n : Index) : (resize n s).gpio = s.gpio := by
  unfold resize
  split <;> rfl

@[simp] theorem resize_fault (n : Index) : (resize n s).fault = s.fault := by
  unfold resize
  split <;> rfl

@[simp] theorem resize_rsp (n : Index) : (resize n s).rsp = s.rsp := by
  unfold resize
  split <;> rfl

@[simp] theorem resize_schedule (n : Index) : (resize n s).schedule = s.schedule := by
  unfold resize
  split <;> rfl

/-! ### `hardwareInit` -/

@[simp] theorem hardwareInit_cfg (ptr : Count) : (hardwareInit ptr s).cfg = s.cfg := rfl
@[simp] theorem hardwareInit_n (ptr : Count) : (hardwareInit ptr s).n = s.n := rfl
@[simp] theorem hardwareInit_order (ptr : Count) : (hardwareInit ptr s).order = s.order := rfl
@[simp] theorem hardwareInit_brt (ptr : Count) : (hardwareInit ptr s).brt = s.brt := rfl
@[simp] theorem hardwareInit_buf (ptr : Count) : (hardwareInit ptr s).buf = s.buf := rfl
@[simp] theorem hardwareInit_begun (ptr : Count) : (hardwareInit ptr s).begun = s.begun := rfl
@[simp] theorem hardwareInit_eng (ptr : Count) : (hardwareInit ptr s).eng = { s.eng with ptr := ptr } := rfl
@[simp] theorem hardwareInit_tim (ptr : Count) :
    (hardwareInit ptr s).tim = { s.tim with
      arr := BitVec.ofNat 16 (s.cfg.periodTicks - 1)
      ccr1 := BitVec.ofNat 16 s.cfg.c1Ticks
      ccr2 := BitVec.ofNat 16 s.cfg.c2Ticks } := rfl
@[simp] theorem hardwareInit_dma (ptr : Count) : (hardwareInit ptr s).dma = s.dma := rfl
@[simp] theorem hardwareInit_gpio (ptr : Count) :
    (hardwareInit ptr s).gpio = { out := false, mode := true } := rfl
@[simp] theorem hardwareInit_fault (ptr : Count) : (hardwareInit ptr s).fault = s.fault := rfl
@[simp] theorem hardwareInit_rsp (ptr : Count) : (hardwareInit ptr s).rsp = s.rsp := rfl
@[simp] theorem hardwareInit_schedule (ptr : Count) : (hardwareInit ptr s).schedule = s.schedule := rfl

/-! ### `hardwareSend` -/

@[simp] theorem hardwareSend_cfg (ptr len : Count) : (hardwareSend ptr len s).cfg = s.cfg := rfl
@[simp] theorem hardwareSend_n (ptr len : Count) : (hardwareSend ptr len s).n = s.n := rfl
@[simp] theorem hardwareSend_order (ptr len : Count) : (hardwareSend ptr len s).order = s.order := rfl
@[simp] theorem hardwareSend_brt (ptr len : Count) : (hardwareSend ptr len s).brt = s.brt := rfl
@[simp] theorem hardwareSend_buf (ptr len : Count) : (hardwareSend ptr len s).buf = s.buf := rfl
@[simp] theorem hardwareSend_begun (ptr len : Count) : (hardwareSend ptr len s).begun = s.begun := rfl
@[simp] theorem hardwareSend_eng (ptr len : Count) :
    (hardwareSend ptr len s).eng = { s.eng with tc := false, ptr := ptr, len := len, state := .transmitting } := rfl
@[simp] theorem hardwareSend_tim (ptr len : Count) :
    (hardwareSend ptr len s).tim = { s.tim with cnt := s.tim.arr, ude := true, cc1de := true, cc2de := true, run := true } := rfl
@[simp] theorem hardwareSend_dma (ptr len : Count) :
    (hardwareSend ptr len s).dma = { h := .arm len, d := .arm len, l := .arm len, src := ptr } := rfl
@[simp] theorem hardwareSend_gpio (ptr len : Count) : (hardwareSend ptr len s).gpio = s.gpio := rfl
@[simp] theorem hardwareSend_fault (ptr len : Count) : (hardwareSend ptr len s).fault = s.fault := rfl
@[simp] theorem hardwareSend_rsp (ptr len : Count) : (hardwareSend ptr len s).rsp = s.rsp := rfl
@[simp] theorem hardwareSend_schedule (ptr len : Count) :
    (hardwareSend ptr len s).schedule = s.schedule := rfl

/-! ### `gpioWrite` -/

@[simp] theorem gpioWrite_cfg (port : Port) (d : Byte) : (gpioWrite port d s).cfg = s.cfg := rfl
@[simp] theorem gpioWrite_n (port : Port) (d : Byte) : (gpioWrite port d s).n = s.n := rfl
@[simp] theorem gpioWrite_order (port : Port) (d : Byte) : (gpioWrite port d s).order = s.order := rfl
@[simp] theorem gpioWrite_brt (port : Port) (d : Byte) : (gpioWrite port d s).brt = s.brt := rfl
@[simp] theorem gpioWrite_buf (port : Port) (d : Byte) : (gpioWrite port d s).buf = s.buf := rfl
@[simp] theorem gpioWrite_begun (port : Port) (d : Byte) : (gpioWrite port d s).begun = s.begun := rfl
@[simp] theorem gpioWrite_eng (port : Port) (d : Byte) : (gpioWrite port d s).eng = s.eng := rfl
@[simp] theorem gpioWrite_tim (port : Port) (d : Byte) : (gpioWrite port d s).tim = s.tim := rfl
@[simp] theorem gpioWrite_dma (port : Port) (d : Byte) : (gpioWrite port d s).dma = s.dma := rfl
@[simp] theorem gpioWrite_gpio (port : Port) (d : Byte) :
    (gpioWrite port d s).gpio = { s.gpio with out := portValue port d s.gpio.out } := rfl
@[simp] theorem gpioWrite_fault (port : Port) (d : Byte) : (gpioWrite port d s).fault = s.fault := rfl
@[simp] theorem gpioWrite_rsp (port : Port) (d : Byte) : (gpioWrite port d s).rsp = s.rsp := rfl
@[simp] theorem gpioWrite_schedule (port : Port) (d : Byte) :
    (gpioWrite port d s).schedule = s.schedule := rfl

/-! ### `advanceSrc` -/

@[simp] theorem advanceSrc_cfg : (advanceSrc s).cfg = s.cfg := rfl
@[simp] theorem advanceSrc_n : (advanceSrc s).n = s.n := rfl
@[simp] theorem advanceSrc_order : (advanceSrc s).order = s.order := rfl
@[simp] theorem advanceSrc_brt : (advanceSrc s).brt = s.brt := rfl
@[simp] theorem advanceSrc_buf : (advanceSrc s).buf = s.buf := rfl
@[simp] theorem advanceSrc_begun : (advanceSrc s).begun = s.begun := rfl
@[simp] theorem advanceSrc_eng : (advanceSrc s).eng = s.eng := rfl
@[simp] theorem advanceSrc_tim : (advanceSrc s).tim = s.tim := rfl
@[simp] theorem advanceSrc_dma : (advanceSrc s).dma = { s.dma with src := s.dma.src + 1 } := rfl
@[simp] theorem advanceSrc_gpio : (advanceSrc s).gpio = s.gpio := rfl
@[simp] theorem advanceSrc_fault : (advanceSrc s).fault = s.fault := rfl
@[simp] theorem advanceSrc_rsp : (advanceSrc s).rsp = s.rsp := rfl
@[simp] theorem advanceSrc_schedule : (advanceSrc s).schedule = s.schedule := rfl

/-! ### `advance` -/

@[simp] theorem advance_cfg : (advance s).cfg = s.cfg := rfl
@[simp] theorem advance_n : (advance s).n = s.n := rfl
@[simp] theorem advance_order : (advance s).order = s.order := rfl
@[simp] theorem advance_brt : (advance s).brt = s.brt := rfl
@[simp] theorem advance_buf : (advance s).buf = s.buf := rfl
@[simp] theorem advance_begun : (advance s).begun = s.begun := rfl
@[simp] theorem advance_eng : (advance s).eng = s.eng := rfl
@[simp] theorem advance_tim : (advance s).tim = { s.tim with cnt := nextCount s.tim } := rfl
@[simp] theorem advance_dma : (advance s).dma = s.dma := rfl
@[simp] theorem advance_gpio : (advance s).gpio = s.gpio := rfl
@[simp] theorem advance_fault : (advance s).fault = s.fault := rfl
@[simp] theorem advance_rsp : (advance s).rsp = s.rsp := rfl
@[simp] theorem advance_schedule : (advance s).schedule = s.schedule := rfl

/-! ### `irqDma` -/

@[simp] theorem irqDma_cfg : (irqDma s).cfg = s.cfg := rfl
@[simp] theorem irqDma_n : (irqDma s).n = s.n := rfl
@[simp] theorem irqDma_order : (irqDma s).order = s.order := rfl
@[simp] theorem irqDma_brt : (irqDma s).brt = s.brt := rfl
@[simp] theorem irqDma_buf : (irqDma s).buf = s.buf := rfl
@[simp] theorem irqDma_begun : (irqDma s).begun = s.begun := rfl
@[simp] theorem irqDma_eng : (irqDma s).eng = { s.eng with state := .deadTime } := rfl
@[simp] theorem irqDma_tim :
    (irqDma s).tim = { s.tim with ude := false, cc1de := false, cc2de := false, uie := true } := rfl
@[simp] theorem irqDma_dma :
    (irqDma s).dma = { s.dma with
      h := { s.dma.h with en := false }
      d := { s.dma.d with en := false }
      l := { s.dma.l with en := false } } := rfl
@[simp] theorem irqDma_gpio : (irqDma s).gpio = s.gpio := rfl
@[simp] theorem irqDma_fault : (irqDma s).fault = s.fault := rfl
@[simp] theorem irqDma_rsp : (irqDma s).rsp = s.rsp := rfl
@[simp] theorem irqDma_schedule : (irqDma s).schedule = s.schedule := rfl

/-! ### `endDeadTime` -/

@[simp] theorem endDeadTime_cfg : (endDeadTime s).cfg = s.cfg := rfl
@[simp] theorem endDeadTime_n : (endDeadTime s).n = s.n := rfl
@[simp] theorem endDeadTime_order : (endDeadTime s).order = s.order := rfl
@[simp] theorem endDeadTime_brt : (endDeadTime s).brt = s.brt := rfl
@[simp] theorem endDeadTime_buf : (endDeadTime s).buf = s.buf := rfl
@[simp] theorem endDeadTime_begun : (endDeadTime s).begun = s.begun := rfl
@[simp] theorem endDeadTime_eng :
    (endDeadTime s).eng = { s.eng with ovf := 0, tc := true, state := .idle } := rfl
@[simp] theorem endDeadTime_tim :
    (endDeadTime s).tim = { s.tim with run := false, uie := false, cnt := 0 } := rfl
@[simp] theorem endDeadTime_dma : (endDeadTime s).dma = s.dma := rfl
@[simp] theorem endDeadTime_gpio : (endDeadTime s).gpio = s.gpio := rfl
@[simp] theorem endDeadTime_fault : (endDeadTime s).fault = s.fault := rfl
@[simp] theorem endDeadTime_rsp : (endDeadTime s).rsp = s.rsp := rfl
@[simp] theorem endDeadTime_schedule : (endDeadTime s).schedule = s.schedule := rfl

/-! ### `countOverflow` -/

@[simp] theorem countOverflow_cfg : (countOverflow s).cfg = s.cfg := rfl
@[simp] theorem countOverflow_n : (countOverflow s).n = s.n := rfl
@[simp] theorem countOverflow_order : (countOverflow s).order = s.order := rfl
@[simp] theorem countOverflow_brt : (countOverflow s).brt = s.brt := rfl
@[simp] theorem countOverflow_buf : (countOverflow s).buf = s.buf := rfl
@[simp] theorem countOverflow_begun : (countOverflow s).begun = s.begun := rfl
@[simp] theorem countOverflow_eng : (countOverflow s).eng = { s.eng with ovf := s.eng.ovf + 1 } := rfl
@[simp] theorem countOverflow_tim : (countOverflow s).tim = s.tim := rfl
@[simp] theorem countOverflow_dma : (countOverflow s).dma = s.dma := rfl
@[simp] theorem countOverflow_gpio : (countOverflow s).gpio = s.gpio := rfl
@[simp] theorem countOverflow_fault : (countOverflow s).fault = s.fault := rfl
@[simp] theorem countOverflow_rsp : (countOverflow s).rsp = s.rsp := rfl
@[simp] theorem countOverflow_schedule : (countOverflow s).schedule = s.schedule := rfl

/-! ### `irqOvf` -/

@[simp] theorem irqOvf_cfg : (irqOvf s).cfg = s.cfg := by
  unfold irqOvf
  split <;> rfl

@[simp] theorem irqOvf_n : (irqOvf s).n = s.n := by
  unfold irqOvf
  split <;> rfl

@[simp] theorem irqOvf_order : (irqOvf s).order = s.order := by
  unfold irqOvf
  split <;> rfl

@[simp] theorem irqOvf_brt : (irqOvf s).brt = s.brt := by
  unfold irqOvf
  split <;> rfl

@[simp] theorem irqOvf_buf : (irqOvf s).buf = s.buf := by
  unfold irqOvf
  split <;> rfl

@[simp] theorem irqOvf_begun : (irqOvf s).begun = s.begun := by
  unfold irqOvf
  split <;> rfl

@[simp] theorem irqOvf_dma : (irqOvf s).dma = s.dma := by
  unfold irqOvf
  split <;> rfl

@[simp] theorem irqOvf_gpio : (irqOvf s).gpio = s.gpio := by
  unfold irqOvf
  split <;> rfl

@[simp] theorem irqOvf_fault : (irqOvf s).fault = s.fault := by
  unfold irqOvf
  split <;> rfl

@[simp] theorem irqOvf_rsp : (irqOvf s).rsp = s.rsp := by
  unfold irqOvf
  split <;> rfl

@[simp] theorem irqOvf_schedule : (irqOvf s).schedule = s.schedule := by
  unfold irqOvf
  split <;> rfl

/-! ### `overflow` -/

@[simp] theorem overflow_cfg : (overflow s).cfg = s.cfg := by
  unfold overflow
  split <;> simp

@[simp] theorem overflow_n : (overflow s).n = s.n := by
  unfold overflow
  split <;> simp

@[simp] theorem overflow_order : (overflow s).order = s.order := by
  unfold overflow
  split <;> simp

@[simp] theorem overflow_brt : (overflow s).brt = s.brt := by
  unfold overflow
  split <;> simp

@[simp] theorem overflow_buf : (overflow s).buf = s.buf := by
  unfold overflow
  split <;> simp

@[simp] theorem overflow_begun : (overflow s).begun = s.begun := by
  unfold overflow
  split <;> simp

@[simp] theorem overflow_dma : (overflow s).dma = s.dma := by
  unfold overflow
  split <;> simp

@[simp] theorem overflow_gpio : (overflow s).gpio = s.gpio := by
  unfold overflow
  split <;> simp

@[simp] theorem overflow_fault : (overflow s).fault = s.fault := by
  unfold overflow
  split <;> simp

@[simp] theorem overflow_rsp : (overflow s).rsp = s.rsp := by
  unfold overflow
  split <;> simp

@[simp] theorem overflow_schedule : (overflow s).schedule = s.schedule := by
  unfold overflow
  split <;> simp

/-! ### `countStream` -/

@[simp] theorem countStream_cfg (i : StreamId) : (countStream i s).cfg = s.cfg := rfl
@[simp] theorem countStream_n (i : StreamId) : (countStream i s).n = s.n := rfl
@[simp] theorem countStream_order (i : StreamId) : (countStream i s).order = s.order := rfl
@[simp] theorem countStream_brt (i : StreamId) : (countStream i s).brt = s.brt := rfl
@[simp] theorem countStream_buf (i : StreamId) : (countStream i s).buf = s.buf := rfl
@[simp] theorem countStream_begun (i : StreamId) : (countStream i s).begun = s.begun := rfl
@[simp] theorem countStream_eng (i : StreamId) : (countStream i s).eng = s.eng := rfl
@[simp] theorem countStream_tim (i : StreamId) : (countStream i s).tim = s.tim := rfl
@[simp] theorem countStream_dma (i : StreamId) :
    (countStream i s).dma = s.dma.setStream i (s.dma.stream i).countDown := rfl
@[simp] theorem countStream_gpio (i : StreamId) : (countStream i s).gpio = s.gpio := rfl
@[simp] theorem countStream_fault (i : StreamId) : (countStream i s).fault = s.fault := rfl
@[simp] theorem countStream_rsp (i : StreamId) : (countStream i s).rsp = s.rsp := rfl
@[simp] theorem countStream_schedule (i : StreamId) : (countStream i s).schedule = s.schedule := rfl

/-! ### `countTransfer` -/

@[simp] theorem countTransfer_cfg (i : StreamId) : (countTransfer i s).cfg = s.cfg := by
  unfold countTransfer
  split <;> rfl

@[simp] theorem countTransfer_n (i : StreamId) : (countTransfer i s).n = s.n := by
  unfold countTransfer
  split <;> rfl

@[simp] theorem countTransfer_order (i : StreamId) : (countTransfer i s).order = s.order := by
  unfold countTransfer
  split <;> rfl

@[simp] theorem countTransfer_brt (i : StreamId) : (countTransfer i s).brt = s.brt := by
  unfold countTransfer
  split <;> rfl

@[simp] theorem countTransfer_buf (i : StreamId) : (countTransfer i s).buf = s.buf := by
  unfold countTransfer
  split <;> rfl

@[simp] theorem countTransfer_begun (i : StreamId) : (countTransfer i s).begun = s.begun := by
  unfold countTransfer
  split <;> rfl

@[simp] theorem countTransfer_gpio (i : StreamId) : (countTransfer i s).gpio = s.gpio := by
  unfold countTransfer
  split <;> rfl

@[simp] theorem countTransfer_fault (i : StreamId) : (countTransfer i s).fault = s.fault := by
  unfold countTransfer
  split <;> rfl

@[simp] theorem countTransfer_rsp (i : StreamId) : (countTransfer i s).rsp = s.rsp := by
  unfold countTransfer
  split <;> rfl

@[simp] theorem countTransfer_schedule (i : StreamId) : (countTransfer i s).schedule = s.schedule := by
  unfold countTransfer
  split <;> rfl

end Sys2Proof.Machine
end

