-- ==== Sys2Proof/Laws/Engine.lean ====
section
/-! SUPPORT. What one TICK can do: its frame in every state, and its result in a state that meets the
invariants (R82 to R91, R103). -/

namespace Sys2Proof.Machine

/-! ### The GPIO driver and the streams -/

@[simp] theorem portValue_set_high (out : Bool) : portValue .set wHigh out = true := by
  cases out <;> rfl

@[simp] theorem portValue_clr_low (out : Bool) : portValue .clr wLow out = false := by
  cases out <;> rfl

@[simp] theorem portValue_and (d : Byte) (out : Bool) : portValue .and d out = (out && d.getLsbD 0) := rfl

@[simp] theorem nextByte_advance (s : State) : nextByte (advance s) = nextByte s := rfl

theorem Stream.drops_iff {x : Stream} : x.drops = true ↔ x.en = false ∨ x.cnt = 0 := by
  simp [Stream.drops]

theorem Stream.not_drops_iff {x : Stream} : x.drops = false ↔ x.en = true ∧ x.cnt ≠ 0 := by
  simp [Stream.drops]

@[simp] theorem Stream.countDown_en (x : Stream) : x.countDown.en = x.en := rfl
@[simp] theorem Stream.countDown_cnt (x : Stream) : x.countDown.cnt = x.cnt - 1 := rfl
@[simp] theorem Stream.countDown_tcf (x : Stream) : x.countDown.tcf = (x.tcf || x.cnt - 1 == 0) := rfl
@[simp] theorem Stream.arm_en (len : Count) : (Stream.arm len).en = true := rfl
@[simp] theorem Stream.arm_cnt (len : Count) : (Stream.arm len).cnt = len := rfl
@[simp] theorem Stream.arm_tcf (len : Count) : (Stream.arm len).tcf = false := rfl

/-- A count that is not 0 goes down by one (R28: no counter wraps). -/
theorem toNat_sub_one {c : Count} (h : c ≠ 0) : (c - 1).toNat = c.toNat - 1 := by
  have h0 : c.toNat ≠ 0 := fun h0 => h (BitVec.eq_of_toNat_eq (by simpa using h0))
  have := c.isLt
  rw [BitVec.toNat_sub]
  simp
  omega

theorem toNat_add_one_of_lt {w : Nat} {c : BitVec w} (h : c.toNat + 1 < 2 ^ w) :
    (c + 1).toNat = c.toNat + 1 := by
  rw [BitVec.toNat_add]
  rcases w with - | w
  · have := c.isLt
    simp at h
  · simp [Nat.mod_eq_of_lt h]

theorem eq_zero_iff_toNat {w : Nat} {c : BitVec w} : c = 0 ↔ c.toNat = 0 :=
  ⟨fun h => by simp [h], fun h => BitVec.eq_of_toNat_eq (by simpa using h)⟩

/-- IRQ_OVF in its two cases (R103). -/
theorem irqOvf_cases (s : State) :
    ((s.eng.ovf + 1).toNat ≠ s.cfg.deadOverflows ∧ irqOvf s = countOverflow s) ∨
    ((s.eng.ovf + 1).toNat = s.cfg.deadOverflows ∧ irqOvf s = endDeadTime (countOverflow s)) := by
  by_cases h : (countOverflow s).eng.ovf.toNat = s.cfg.deadOverflows
  · exact .inr ⟨h, if_pos h⟩
  · exact .inl ⟨h, if_neg h⟩

/-! ### The frame of a TICK, in every state -/

/-- What no TICK touches: the parameters, everything of the pixel buffer and the controller, FAULT, the
response, the events to come, the reload and compare values, the pointer and length, and GPIO.MODE. -/
structure TickFrame (s t : State) : Prop where
  cfg : t.cfg = s.cfg
  n : t.n = s.n
  order : t.order = s.order
  brt : t.brt = s.brt
  buf : t.buf = s.buf
  begun : t.begun = s.begun
  fault : t.fault = s.fault
  rsp : t.rsp = s.rsp
  schedule : t.schedule = s.schedule
  arr : t.tim.arr = s.tim.arr
  ccr1 : t.tim.ccr1 = s.tim.ccr1
  ccr2 : t.tim.ccr2 = s.tim.ccr2
  ptr : t.eng.ptr = s.eng.ptr
  len : t.eng.len = s.eng.len
  mode : t.gpio.mode = s.gpio.mode

namespace TickFrame

theorem refl (s : State) : TickFrame s s := by constructor <;> rfl

theorem trans {s t u : State} (h : TickFrame s t) (h' : TickFrame t u) : TickFrame s u := by
  constructor <;> first
    | exact h'.cfg.trans h.cfg | exact h'.n.trans h.n | exact h'.order.trans h.order
    | exact h'.brt.trans h.brt | exact h'.buf.trans h.buf | exact h'.begun.trans h.begun
    | exact h'.fault.trans h.fault | exact h'.rsp.trans h.rsp | exact h'.schedule.trans h.schedule
    | exact h'.arr.trans h.arr | exact h'.ccr1.trans h.ccr1 | exact h'.ccr2.trans h.ccr2
    | exact h'.ptr.trans h.ptr | exact h'.len.trans h.len | exact h'.mode.trans h.mode

theorem gpioWrite (port : Port) (d : Byte) (s : State) : TickFrame s (gpioWrite port d s) := by
  constructor <;> rfl

theorem advanceSrc (s : State) : TickFrame s (advanceSrc s) := by constructor <;> rfl

theorem advance (s : State) : TickFrame s (advance s) := by constructor <;> rfl

theorem irqDma (s : State) : TickFrame s (irqDma s) := by constructor <;> rfl

theorem countStream (i : StreamId) (s : State) : TickFrame s (countStream i s) := by constructor <;> rfl

theorem irqOvf (s : State) : TickFrame s (irqOvf s) := by
  rcases irqOvf_cases s with ⟨-, h⟩ | ⟨-, h⟩ <;> rw [h] <;> constructor <;> rfl

theorem countTransfer (i : StreamId) (s : State) : TickFrame s (countTransfer i s) := by
  unfold Machine.countTransfer
  split
  · exact (TickFrame.countStream i s).trans (TickFrame.irqDma _)
  · exact TickFrame.countStream i s

theorem overflow (s : State) : TickFrame s (overflow s) := by
  unfold Machine.overflow
  split
  · exact TickFrame.irqOvf s
  · exact TickFrame.refl s

theorem transfer {i : StreamId} {s t : State} (h : transfer i s = .ok t) : TickFrame s t := by
  cases i
  · cases h
    exact TickFrame.gpioWrite _ _ _
  · simp only [Machine.transfer, transferD] at h
    split at h
    · split at h
      · cases h
      · cases h
        exact (TickFrame.advanceSrc s).trans (TickFrame.gpioWrite _ _ _)
    · cases h
  · cases h
    exact TickFrame.gpioWrite _ _ _

theorem dmaReq {i : StreamId} {s t : State} (h : dmaReq i s = .ok t) : TickFrame s t := by
  unfold Machine.dmaReq at h
  split at h
  · cases h
    exact TickFrame.refl s
  · split at h
    · cases h
      exact (TickFrame.transfer ‹_›).trans (TickFrame.countTransfer _ _)
    · cases h

theorem tick {s t : State} (h : tick s = .ok t) : TickFrame s t := by
  refine (TickFrame.advance s).trans ?_
  simp only [Machine.tick] at h
  split at h
  · unfold updateEvent at h
    split at h
    · cases h
      rename_i s' hs
      refine TickFrame.trans ?_ (TickFrame.overflow s')
      split at hs
      · exact TickFrame.dmaReq hs
      · cases hs
        exact TickFrame.refl _
    · cases h
  · unfold cc1Event at h
    split at h
    · exact TickFrame.dmaReq h
    · cases h
      exact TickFrame.refl _
  · unfold cc2Event at h
    split at h
    · exact TickFrame.dmaReq h
    · cases h
      exact TickFrame.refl _
  · cases h
    exact TickFrame.refl _

end TickFrame

/-! ### A DMA request that is answered, stream by stream -/

theorem dmaReq_drops {i : StreamId} {s : State} (h : (s.dma.stream i).drops = true) :
    dmaReq i s = .ok s := by simp [dmaReq, h]

theorem dmaReq_h {s : State} (h : s.dma.h.drops = false) :
    dmaReq .h s = .ok (countStream .h (gpioWrite .set wHigh s)) := by
  simp [dmaReq, Dma.stream, h, transfer, countTransfer]

theorem dmaReq_d {s : State} (h : s.dma.d.drops = false) (ha : s.dma.src.toNat < s.cfg.bufBytes)
    (hb : (nextByte s).extractLsb' 1 7 = 0) :
    dmaReq .d s = .ok (countStream .d (gpioWrite .and (nextByte s) (advanceSrc s))) := by
  simp [dmaReq, Dma.stream, h, transfer, transferD, ha, hb, countTransfer]

theorem dmaReq_d_raises {s : State} (h : s.dma.d.drops = false) (ha : s.dma.src.toNat < s.cfg.bufBytes)
    (hb : (nextByte s).extractLsb' 1 7 ≠ 0) :
    dmaReq .d s = .error (.raised .nonBinaryBufferByte) := by
  simp only [dmaReq, Dma.stream, h, transfer, transferD, if_pos ha, if_pos hb, Bool.false_eq_true, if_false]

theorem dmaReq_l_more {s : State} (h : s.dma.l.drops = false) (hc : s.dma.l.cnt ≠ 1) :
    dmaReq .l s = .ok (countStream .l (gpioWrite .clr wLow s)) := by
  have : s.dma.l.cnt - 1 ≠ 0 := fun h0 => hc (by bv_omega)
  simp only [dmaReq, Dma.stream, h, transfer, countTransfer]
  simp only [Bool.false_eq_true, if_false, Dma.setStream, countStream, Dma.stream, gpioWrite,
    Stream.countDown_cnt, this, false_and]

theorem dmaReq_l_last {s : State} (h : s.dma.l.drops = false) (hc : s.dma.l.cnt = 1) :
    dmaReq .l s = .ok (irqDma (countStream .l (gpioWrite .clr wLow s))) := by
  simp only [dmaReq, Dma.stream, h, transfer, countTransfer]
  simp [Dma.setStream, countStream, Dma.stream, gpioWrite, hc]

end Sys2Proof.Machine
end

