-- ==== Sys2Proof/Laws/Tick.lean ====
section
/-! SUPPORT. The TICK in a state that meets the invariants: which event the new count raises, the result of
each, and that the invariants are kept (R82 to R95, R103, R104). -/

namespace Sys2Proof.Machine

variable {s t : State}

/-! ### The counter and the event of a TICK -/

/-- In flight the strip has been begun, so the timer has BEGIN's configuration (R23, R95 (g)). -/
theorem Inv.timer (h : Inv s) (hf : s.eng.state ≠ .idle) :
    s.tim.arr.toNat = s.cfg.periodTicks - 1 ∧ s.tim.ccr1.toNat = s.cfg.c1Ticks ∧
    s.tim.ccr2.toNat = s.cfg.c2Ticks ∧ s.tim.cnt.toNat < s.cfg.periodTicks :=
  have hc := h.engine.config (h.engine.frame hf).1
  ⟨hc.1, hc.2.1, hc.2.2, h.frame.count hf⟩

/-- The counter after a TICK, as a number (R82). -/
theorem nextCount_toNat {x : Timer} {p : Nat} (hp : 1 ≤ p) (harr : x.arr.toNat = p - 1)
    (hcnt : x.cnt.toNat < p) :
    (nextCount x).toNat = if x.cnt.toNat + 1 = p then 0 else x.cnt.toNat + 1 := by
  have hlt := x.arr.isLt
  unfold nextCount
  by_cases h : x.cnt = x.arr
  · rw [if_pos h, if_pos (by rw [h, harr]; omega)]
    rfl
  · have hne : x.cnt.toNat ≠ x.arr.toNat := fun h' => h (BitVec.eq_of_toNat_eq h')
    rw [if_neg h, if_neg (by omega), toNat_add_one_of_lt (by omega)]

/-- Which event a TICK raises, by the count it starts from (R82). -/
theorem timerEvent_cases (h : Inv s) (hf : s.eng.state ≠ .idle) :
    (s.tim.cnt.toNat + 1 = s.cfg.periodTicks ∧ (nextCount s.tim).toNat = 0 ∧
      timerEvent (advance s).tim = .update) ∨
    (s.tim.cnt.toNat + 1 = s.cfg.c1Ticks ∧ (nextCount s.tim).toNat = s.cfg.c1Ticks ∧
      timerEvent (advance s).tim = .cc1) ∨
    (s.tim.cnt.toNat + 1 = s.cfg.c2Ticks ∧ (nextCount s.tim).toNat = s.cfg.c2Ticks ∧
      timerEvent (advance s).tim = .cc2) ∨
    (s.tim.cnt.toNat + 1 < s.cfg.periodTicks ∧ s.tim.cnt.toNat + 1 ≠ s.cfg.c1Ticks ∧
      s.tim.cnt.toNat + 1 ≠ s.cfg.c2Ticks ∧ (nextCount s.tim).toNat = s.tim.cnt.toNat + 1 ∧
      timerEvent (advance s).tim = .none) := by
  obtain ⟨harr, hc1, hc2, hcnt⟩ := h.timer hf
  have hp := s.cfg.periodTicks_ge
  have h0 := s.cfg.c1Ticks_pos
  have h1 := s.cfg.c1Ticks_lt
  have h2 := s.cfg.c2Ticks_lt
  have hn := nextCount_toNat (by omega) harr hcnt
  have e0 : nextCount s.tim = 0 ↔ (nextCount s.tim).toNat = 0 := eq_zero_iff_toNat
  have e1 : nextCount s.tim = s.tim.ccr1 ↔ (nextCount s.tim).toNat = s.cfg.c1Ticks := by
    rw [← hc1]
    exact BitVec.toNat_inj.symm
  have e2 : nextCount s.tim = s.tim.ccr2 ↔ (nextCount s.tim).toNat = s.cfg.c2Ticks := by
    rw [← hc2]
    exact BitVec.toNat_inj.symm
  simp only [timerEvent, advance_tim, e0, e1, e2]
  by_cases hw : s.tim.cnt.toNat + 1 = s.cfg.periodTicks
  · rw [if_pos hw] at hn
    exact .inl ⟨hw, hn, by rw [if_pos hn]⟩
  · rw [if_neg hw] at hn
    rw [hn, if_neg (by omega)]
    by_cases hw1 : s.tim.cnt.toNat + 1 = s.cfg.c1Ticks
    · exact .inr (.inl ⟨hw1, hw1, by rw [if_pos hw1]⟩)
    · rw [if_neg hw1]
      by_cases hw2 : s.tim.cnt.toNat + 1 = s.cfg.c2Ticks
      · exact .inr (.inr (.inl ⟨hw2, hw2, by rw [if_pos hw2]⟩))
      · exact .inr (.inr (.inr ⟨by omega, hw1, hw2, rfl, by rw [if_neg hw2]⟩))

theorem tick_update (he : timerEvent (advance s).tim = .update) : tick s = updateEvent (advance s) := by
  simp only [tick, he]

theorem tick_cc1 (he : timerEvent (advance s).tim = .cc1) : tick s = cc1Event (advance s) := by
  simp only [tick, he]

theorem tick_cc2 (he : timerEvent (advance s).tim = .cc2) : tick s = cc2Event (advance s) := by
  simp only [tick, he]

theorem tick_none (he : timerEvent (advance s).tim = .none) : tick s = .ok (advance s) := by
  simp only [tick, he]

/-! ### The streams of a frame in progress -/

/-- In Transmitting the request lines are on and the overflow interrupt is off (R95 (c), (d)). -/
theorem Inv.lines_on (h : Inv s) (ht : s.eng.state = .transmitting) :
    s.tim.ude = true ∧ s.tim.cc1de = true ∧ s.tim.cc2de = true ∧ s.tim.uie = false := by
  refine ⟨h.engine.lines.1.2 ht, h.engine.lines.2.1.2 ht, h.engine.lines.2.2.2 ht, ?_⟩
  rw [← Bool.not_eq_true, h.engine.uie, ht]
  simp

/-- In DeadTime the request lines are off and the overflow interrupt is on (R95 (c), (d)). -/
theorem Inv.lines_off (h : Inv s) (ht : s.eng.state = .deadTime) :
    s.tim.ude = false ∧ s.tim.cc1de = false ∧ s.tim.cc2de = false ∧ s.tim.uie = true := by
  refine ⟨?_, ?_, ?_, h.engine.uie.2 ht⟩ <;> rw [← Bool.not_eq_true]
  · rw [h.engine.lines.1, ht]
    simp
  · rw [h.engine.lines.2.1, ht]
    simp
  · rw [h.engine.lines.2.2, ht]
    simp

/-- In Transmitting the channels are enabled (R95 (c)). -/
theorem Inv.enabled (h : Inv s) (ht : s.eng.state = .transmitting) :
    s.dma.h.en = true ∧ s.dma.d.en = true ∧ s.dma.l.en = true :=
  ⟨h.engine.enables.1.2 ht, h.engine.enables.2.1.2 ht, h.engine.enables.2.2.2 ht⟩

theorem ne_zero_of_one_le {c : Count} (h : 1 ≤ c.toNat) : c ≠ 0 := fun h0 => by simp [h0] at h

/-- R95 (h): in Transmitting, with transfers of stream `D` left, the address it reads is in the valid
region, so in the buffer. -/
theorem Inv.src_lt (h : Inv s) (ht : s.eng.state = .transmitting) (hd : s.dma.d.cnt ≠ 0) :
    s.dma.src.toNat < s.validBytes ∧ s.dma.src.toNat < s.cfg.bufBytes := by
  have hf : s.eng.state ≠ .idle := by rw [ht]; simp
  have hsrc := h.frame.src hf
  have hlen := (h.engine.frame hf).2.2
  have hsize := h.buffer.size
  have hd0 : s.dma.d.cnt.toNat ≠ 0 := fun h0 => hd (eq_zero_iff_toNat.2 h0)
  have : s.validBytes ≤ s.cfg.bufBytes := by
    unfold State.validBytes Config.bufBytes
    omega
  omega

/-- The byte stream `D` reads is 0x00 or 0x01 (R63, R88). -/
theorem Inv.nextByte_binary (h : Inv s) (ht : s.eng.state = .transmitting) (hd : s.dma.d.cnt ≠ 0) :
    nextByte s = 0x00 ∨ nextByte s = 0x01 := h.buffer.binary _ (h.src_lt ht hd).1

/-- Everything a TICK does in Transmitting (R82 to R91): nothing but the count, the rising edge, the data
bit, or the falling edge with or without the end of the frame. -/
theorem tick_transmitting (h : Inv s) (ht : s.eng.state = .transmitting) :
    (s.tim.cnt.toNat + 1 = s.cfg.periodTicks ∧ (nextCount s.tim).toNat = 0 ∧
      tick s = .ok (countStream .h (gpioWrite .set wHigh (advance s)))) ∨
    (s.tim.cnt.toNat + 1 = s.cfg.c1Ticks ∧ (nextCount s.tim).toNat = s.cfg.c1Ticks ∧
      tick s = .ok (countStream .d (gpioWrite .and (nextByte s) (advanceSrc (advance s))))) ∨
    (s.tim.cnt.toNat + 1 = s.cfg.c2Ticks ∧ (nextCount s.tim).toNat = s.cfg.c2Ticks ∧
      s.dma.l.cnt.toNat ≠ 1 ∧ tick s = .ok (countStream .l (gpioWrite .clr wLow (advance s)))) ∨
    (s.tim.cnt.toNat + 1 = s.cfg.c2Ticks ∧ (nextCount s.tim).toNat = s.cfg.c2Ticks ∧
      s.dma.l.cnt.toNat = 1 ∧ tick s = .ok (irqDma (countStream .l (gpioWrite .clr wLow (advance s))))) ∨
    (s.tim.cnt.toNat + 1 < s.cfg.periodTicks ∧ s.tim.cnt.toNat + 1 ≠ s.cfg.c1Ticks ∧
      s.tim.cnt.toNat + 1 ≠ s.cfg.c2Ticks ∧ (nextCount s.tim).toNat = s.tim.cnt.toNat + 1 ∧
      tick s = .ok (advance s)) := by
  have hf : s.eng.state ≠ .idle := by rw [ht]; simp
  obtain ⟨hude, hcc1, hcc2, huie⟩ := h.lines_on ht
  obtain ⟨henh, hend, henl⟩ := h.enabled ht
  have hleft := h.frame.left ht
  have hl := ne_zero_of_one_le hleft.1
  have h1 := s.cfg.c1Ticks_lt
  have h2 := s.cfg.c2Ticks_lt
  rcases timerEvent_cases h hf with ⟨hc, hn, he⟩ | ⟨hc, hn, he⟩ | ⟨hc, hn, he⟩ | ⟨hc, hc1, hc2, hn, he⟩
  · have hlate := h.frame.late ht (by omega)
    refine .inl ⟨hc, hn, ?_⟩
    have hdr : (advance s).dma.h.drops = false := Stream.not_drops_iff.2 ⟨henh, by
      rw [advance_dma, hlate.1]; exact hl⟩
    simp [tick_update he, updateEvent, hude, dmaReq_h hdr, overflow, huie]
  · have hearly := h.frame.early ht (by omega)
    have hd : s.dma.d.cnt ≠ 0 := by rw [hearly.2.1]; exact hl
    refine .inr (.inl ⟨hc, hn, ?_⟩)
    have hdr : (advance s).dma.d.drops = false := Stream.not_drops_iff.2 ⟨hend, hd⟩
    have hb : (nextByte (advance s)).extractLsb' 1 7 = 0 := by
      rw [nextByte_advance]
      rcases h.nextByte_binary ht hd with hb | hb <;> rw [hb] <;> decide
    simp [tick_cc1 he, cc1Event, hcc1, dmaReq_d hdr (h.src_lt ht hd).2 hb]
  · have hdr : (advance s).dma.l.drops = false := Stream.not_drops_iff.2 ⟨henl, hl⟩
    by_cases hone : s.dma.l.cnt.toNat = 1
    · have hone' : (advance s).dma.l.cnt = 1 := BitVec.eq_of_toNat_eq hone
      exact .inr (.inr (.inr (.inl ⟨hc, hn, hone, by
        simp [tick_cc2 he, cc2Event, hcc2, dmaReq_l_last hdr hone']⟩)))
    · have hone' : (advance s).dma.l.cnt ≠ 1 := fun h' => hone (by
        rw [advance_dma] at h'
        rw [h']
        rfl)
      exact .inr (.inr (.inl ⟨hc, hn, hone, by
        simp [tick_cc2 he, cc2Event, hcc2, dmaReq_l_more hdr hone']⟩))
  · exact .inr (.inr (.inr (.inr ⟨hc, hc1, hc2, hn, tick_none he⟩)))

/-- Everything a TICK does in DeadTime (R102, R103, R107): the count, and at each overflow IRQ_OVF. -/
theorem tick_deadTime (h : Inv s) (ht : s.eng.state = .deadTime) :
    (s.tim.cnt.toNat + 1 = s.cfg.periodTicks ∧ (nextCount s.tim).toNat = 0 ∧
      tick s = .ok (irqOvf (advance s))) ∨
    (s.tim.cnt.toNat + 1 < s.cfg.periodTicks ∧ (nextCount s.tim).toNat = s.tim.cnt.toNat + 1 ∧
      tick s = .ok (advance s)) := by
  have hf : s.eng.state ≠ .idle := by rw [ht]; simp
  obtain ⟨hude, hcc1, hcc2, huie⟩ := h.lines_off ht
  have h1 := s.cfg.c1Ticks_lt
  have h2 := s.cfg.c2Ticks_lt
  rcases timerEvent_cases h hf with ⟨hc, hn, he⟩ | ⟨hc, hn, he⟩ | ⟨hc, hn, he⟩ | ⟨hc, hc1, hc2, hn, he⟩
  · exact .inl ⟨hc, hn, by simp [tick_update he, updateEvent, hude, overflow, huie]⟩
  · exact .inr ⟨by omega, by omega, by simp [tick_cc1 he, cc1Event, hcc1]⟩
  · exact .inr ⟨by omega, by omega, by simp [tick_cc2 he, cc2Event, hcc2]⟩
  · exact .inr ⟨hc, hn, tick_none he⟩

theorem TickFrame.validBytes (h : TickFrame s t) : t.validBytes = s.validBytes := by
  unfold State.validBytes
  rw [h.n]

/-- R95 (g) of the state after a TICK that leaves the strip and `ENG.LEN` alone. -/
theorem TickFrame.frameClause (h : TickFrame s t) (hi : Inv s) (hf : s.eng.state ≠ .idle) :
    t.begun = true ∧ t.n ≠ 0 ∧ t.eng.len.toNat = t.validBytes := by
  rw [h.begun, h.n, h.len, h.validBytes]
  exact hi.engine.frame hf

/-! ### The invariants are kept -/

/-- A TICK does not touch the buffer (R134), so the buffer's invariants are kept. -/
theorem TickFrame.bufferInv (hfr : TickFrame s t) (h : BufferInv s) : BufferInv t where
  size := by rw [hfr.n, hfr.cfg]; exact h.size
  canonical := by rw [hfr.buf]; exact h.canonical
  inside := by rw [hfr.buf, hfr.cfg]; exact h.inside
  binary := by
    unfold State.validBytes
    rw [hfr.buf, hfr.n]
    exact h.binary
  channel := by rw [hfr.n, hfr.buf, hfr.brt]; exact h.channel

/-- The engine's invariants depend on what a TICK within one state leaves alone. -/
theorem EngineInv.of_same (h : EngineInv s) (heng : t.eng = s.eng)
    (htim : t.tim = { s.tim with cnt := t.tim.cnt })
    (hen : t.dma.h.en = s.dma.h.en ∧ t.dma.d.en = s.dma.d.en ∧ t.dma.l.en = s.dma.l.en)
    (hlow : t.eng.state ≠ .transmitting → t.gpio.out = false) (hmode : t.gpio.mode = s.gpio.mode)
    (hcfg : t.cfg = s.cfg) (hn : t.n = s.n) (hbegun : t.begun = s.begun) : EngineInv t where
  tc := by rw [heng]; exact h.tc
  run := by rw [heng, htim]; exact h.run
  lines := by rw [heng, htim]; exact h.lines
  enables := by rw [heng, hen.1, hen.2.1, hen.2.2]; exact h.enables
  uie := by rw [heng, htim]; exact h.uie
  ovf := by rw [heng]; exact h.ovf
  ovfLt := by rw [heng, hcfg]; exact h.ovfLt
  frame := by
    unfold State.validBytes
    rw [heng, hbegun, hn]
    exact h.frame
  ptr := by rw [heng]; exact h.ptr
  low := hlow
  mode := by rw [hmode, hbegun]; exact h.mode
  config := by rw [hbegun, htim, hcfg]; exact h.config

/-- The frame invariant of a state in Transmitting, without the clauses about the other states. -/
theorem FrameInv.of_transmitting (ht : t.eng.state = .transmitting)
    (count : t.tim.cnt.toNat < t.cfg.periodTicks)
    (left : 1 ≤ t.dma.l.cnt.toNat ∧ t.dma.l.cnt.toNat ≤ t.eng.len.toNat)
    (src : t.dma.src.toNat + t.dma.d.cnt.toNat = t.eng.len.toNat)
    (early : t.tim.cnt.toNat < t.cfg.c1Ticks →
      t.dma.h.cnt.toNat + 1 = t.dma.l.cnt.toNat ∧ t.dma.d.cnt = t.dma.l.cnt ∧ t.gpio.out = true)
    (middle : t.cfg.c1Ticks ≤ t.tim.cnt.toNat → t.tim.cnt.toNat < t.cfg.c2Ticks →
      t.dma.h.cnt.toNat + 1 = t.dma.l.cnt.toNat ∧ t.dma.d.cnt = t.dma.h.cnt ∧
      t.gpio.out = decide (t.buf.read (t.eng.len.toNat - t.dma.l.cnt.toNat) = 0x01))
    (late : t.cfg.c2Ticks ≤ t.tim.cnt.toNat →
      t.dma.h.cnt = t.dma.l.cnt ∧ t.dma.d.cnt = t.dma.l.cnt ∧ t.gpio.out = false)
    (fresh : t.cfg.c2Ticks ≤ t.tim.cnt.toNat →
      t.dma.l.cnt.toNat = t.eng.len.toNat → t.tim.cnt.toNat + 1 = t.cfg.periodTicks)
    (flags : (t.dma.h.tcf = true ↔ t.dma.h.cnt = 0) ∧ (t.dma.d.tcf = true ↔ t.dma.d.cnt = 0) ∧
      (t.dma.l.tcf = true ↔ t.dma.l.cnt = 0)) : FrameInv t where
  count _ := count
  done hne := absurd ht hne
  left _ := left
  src _ := src
  early _ := early
  middle _ := middle
  late _ := late
  fresh _ := fresh
  flags _ := flags

/-- The frame invariant of a state in DeadTime, without the clauses about Transmitting. -/
theorem FrameInv.of_deadTime (ht : t.eng.state = .deadTime)
    (count : t.tim.cnt.toNat < t.cfg.periodTicks)
    (done : t.dma.h.cnt = 0 ∧ t.dma.d.cnt = 0 ∧ t.dma.l.cnt = 0)
    (src : t.dma.src.toNat = t.eng.len.toNat)
    (flags : t.dma.h.tcf = true ∧ t.dma.d.tcf = true ∧ t.dma.l.tcf = true) : FrameInv t where
  count _ := count
  done _ := done
  left h := absurd (ht.symm.trans h) (by simp)
  src _ := by rw [done.2.1]; simpa using src
  early h := absurd (ht.symm.trans h) (by simp)
  middle h := absurd (ht.symm.trans h) (by simp)
  late h := absurd (ht.symm.trans h) (by simp)
  fresh h := absurd (ht.symm.trans h) (by simp)
  flags _ := by simp [done, flags]

/-- Counting a stream down keeps "the flag is set exactly when the count is 0". -/
theorem Stream.countDown_flag {x : Stream} (hc : x.cnt ≠ 0) (h : x.tcf = true ↔ x.cnt = 0) :
    x.countDown.tcf = true ↔ x.countDown.cnt = 0 := by
  have hf : x.tcf = false := by
    rw [← Bool.not_eq_true, h]
    exact hc
  simp [hf]

/-- The engine's invariants of a state in DeadTime, without the clauses about the other states. -/
theorem EngineInv.of_deadTime (ht : t.eng.state = .deadTime) (tc : t.eng.tc = false)
    (run : t.tim.run = true)
    (lines : t.tim.ude = false ∧ t.tim.cc1de = false ∧ t.tim.cc2de = false)
    (enables : t.dma.h.en = false ∧ t.dma.d.en = false ∧ t.dma.l.en = false)
    (uie : t.tim.uie = true) (ovfLt : t.eng.ovf.toNat < t.cfg.deadOverflows)
    (frame : t.begun = true ∧ t.n ≠ 0 ∧ t.eng.len.toNat = t.validBytes) (ptr : t.eng.ptr = 0)
    (low : t.gpio.out = false) (mode : t.gpio.mode = t.begun)
    (config : t.begun = true → t.tim.arr.toNat = t.cfg.periodTicks - 1 ∧
      t.tim.ccr1.toNat = t.cfg.c1Ticks ∧ t.tim.ccr2.toNat = t.cfg.c2Ticks) : EngineInv t where
  tc := by simp [tc, ht]
  run := by simp [run, ht]
  lines := by simp [lines, ht]
  enables := by simp [enables, ht]
  uie := by simp [uie, ht]
  ovf hne := absurd ht hne
  ovfLt := ovfLt
  frame _ := frame
  ptr := ptr
  low _ := low
  mode := mode
  config := config

/-- The engine's invariants of a state in Idle, without the clauses about the other states. -/
theorem EngineInv.of_idle (ht : t.eng.state = .idle) (tc : t.eng.tc = true)
    (run : t.tim.run = false)
    (lines : t.tim.ude = false ∧ t.tim.cc1de = false ∧ t.tim.cc2de = false)
    (enables : t.dma.h.en = false ∧ t.dma.d.en = false ∧ t.dma.l.en = false)
    (uie : t.tim.uie = false) (ovf : t.eng.ovf = 0) (ptr : t.eng.ptr = 0)
    (low : t.gpio.out = false) (mode : t.gpio.mode = t.begun)
    (config : t.begun = true → t.tim.arr.toNat = t.cfg.periodTicks - 1 ∧
      t.tim.ccr1.toNat = t.cfg.c1Ticks ∧ t.tim.ccr2.toNat = t.cfg.c2Ticks) : EngineInv t where
  tc := by simp [tc, ht]
  run := by simp [run, ht]
  lines := by simp [lines, ht]
  enables := by simp [enables, ht]
  uie := by simp [uie, ht]
  ovf _ := ovf
  ovfLt := by
    rw [ovf]
    exact t.cfg.deadOverflows_pos
  frame hne := absurd ht hne
  ptr := ptr
  low _ := low
  mode := mode
  config := config

/-- The frame invariant of a state in Idle, without the clauses about the other states. -/
theorem FrameInv.of_idle (ht : t.eng.state = .idle)
    (done : t.dma.h.cnt = 0 ∧ t.dma.d.cnt = 0 ∧ t.dma.l.cnt = 0) : FrameInv t where
  count hne := absurd ht hne
  done _ := done
  left h := absurd (ht.symm.trans h) (by simp)
  src hne := absurd ht hne
  early h := absurd (ht.symm.trans h) (by simp)
  middle h := absurd (ht.symm.trans h) (by simp)
  late h := absurd (ht.symm.trans h) (by simp)
  fresh h := absurd (ht.symm.trans h) (by simp)
  flags hne := absurd ht hne

/-- In Transmitting a TICK answers a state that meets the invariants. -/
theorem tick_keeps_inv_transmitting (h : Inv s) (ht : s.eng.state = .transmitting) :
    ∃ t, tick s = .ok t ∧ Inv t := by
  have hf : s.eng.state ≠ .idle := by rw [ht]; simp
  obtain ⟨harr, hccr1, hccr2, hcnt⟩ := h.timer hf
  have hleft := h.frame.left ht
  have hl := ne_zero_of_one_le hleft.1
  have hsubl := toNat_sub_one hl
  have hsrc := h.frame.src hf
  have hlen := (h.engine.frame hf).2.2
  have hflags := h.frame.flags hf
  have h0 := s.cfg.c1Ticks_pos
  have h1 := s.cfg.c1Ticks_lt
  have h2 := s.cfg.c2Ticks_lt
  have hbuf : ∀ {u}, tick s = .ok u → BufferInv u := fun hu => (TickFrame.tick hu).bufferInv h.buffer
  rcases tick_transmitting h ht with
    ⟨hc, hn, hr⟩ | ⟨hc, hn, hr⟩ | ⟨hc, hn, hone, hr⟩ | ⟨hc, hn, hone, hr⟩ | ⟨hc, hne1, hne2, hn, hr⟩
  · have hlate := h.frame.late ht (by omega)
    have hh0 : s.dma.h.cnt ≠ 0 := by rw [hlate.1]; exact hl
    have hsub := toNat_sub_one hh0
    have hhl : s.dma.h.cnt.toNat = s.dma.l.cnt.toNat := by rw [hlate.1]
    refine ⟨_, hr, hbuf hr, h.engine.of_same rfl rfl ⟨rfl, rfl, rfl⟩ (fun hne => absurd ht hne) rfl rfl rfl rfl,
      FrameInv.of_transmitting ht ?_ hleft hsrc ?_ ?_ ?_ ?_ ?_⟩
    · show (nextCount s.tim).toNat < s.cfg.periodTicks
      omega
    · intro _
      refine ⟨?_, hlate.2.1, by simp⟩
      show (s.dma.h.cnt - 1).toNat + 1 = s.dma.l.cnt.toNat
      omega
    · intro (hge : s.cfg.c1Ticks ≤ (nextCount s.tim).toNat)
      omega
    · intro (hge : s.cfg.c2Ticks ≤ (nextCount s.tim).toNat)
      omega
    · intro (hge : s.cfg.c2Ticks ≤ (nextCount s.tim).toNat)
      omega
    · exact ⟨Stream.countDown_flag hh0 hflags.1, hflags.2⟩
  · have hearly := h.frame.early ht (by omega)
    have hd0 : s.dma.d.cnt ≠ 0 := by rw [hearly.2.1]; exact hl
    have hsub := toNat_sub_one hd0
    have hdl : s.dma.d.cnt.toNat = s.dma.l.cnt.toNat := by rw [hearly.2.1]
    have hadd : (s.dma.src + 1).toNat = s.dma.src.toNat + 1 := toNat_add_one_of_lt (by
      have := s.eng.len.isLt
      omega)
    refine ⟨_, hr, hbuf hr, h.engine.of_same rfl rfl ⟨rfl, rfl, rfl⟩ (fun hne => absurd ht hne) rfl rfl rfl rfl,
      FrameInv.of_transmitting ht ?_ hleft ?_ ?_ ?_ ?_ ?_ ?_⟩
    · show (nextCount s.tim).toNat < s.cfg.periodTicks
      omega
    · show (s.dma.src + 1).toNat + (s.dma.d.cnt - 1).toNat = s.eng.len.toNat
      omega
    · intro (hlt : (nextCount s.tim).toNat < s.cfg.c1Ticks)
      omega
    · intro _ _
      refine ⟨hearly.1, BitVec.eq_of_toNat_eq ?_, ?_⟩
      · show (s.dma.d.cnt - 1).toNat = s.dma.h.cnt.toNat
        omega
      · show (s.gpio.out && (nextByte s).getLsbD 0) =
          decide (s.buf.read (s.eng.len.toNat - s.dma.l.cnt.toNat) = 0x01)
        have hidx : s.eng.len.toNat - s.dma.l.cnt.toNat = s.dma.src.toNat := by omega
        have hb := h.nextByte_binary ht hd0
        rw [hidx, hearly.2.2]
        unfold nextByte at hb ⊢
        rcases hb with hb | hb <;> rw [hb] <;> decide
    · intro (hge : s.cfg.c2Ticks ≤ (nextCount s.tim).toNat)
      omega
    · intro (hge : s.cfg.c2Ticks ≤ (nextCount s.tim).toNat)
      omega
    · exact ⟨hflags.1, Stream.countDown_flag hd0 hflags.2.1, hflags.2.2⟩
  · have hmid := h.frame.middle ht (by omega) (by omega)
    have hhl : s.dma.h.cnt = s.dma.l.cnt - 1 := BitVec.eq_of_toNat_eq (by omega)
    refine ⟨_, hr, hbuf hr, h.engine.of_same rfl rfl ⟨rfl, rfl, rfl⟩ (fun hne => absurd ht hne) rfl rfl rfl rfl,
      FrameInv.of_transmitting ht ?_ ?_ hsrc ?_ ?_ ?_ ?_ ?_⟩
    · show (nextCount s.tim).toNat < s.cfg.periodTicks
      omega
    · show 1 ≤ (s.dma.l.cnt - 1).toNat ∧ (s.dma.l.cnt - 1).toNat ≤ s.eng.len.toNat
      omega
    · intro (hlt : (nextCount s.tim).toNat < s.cfg.c1Ticks)
      omega
    · intro _ (hlt : (nextCount s.tim).toNat < s.cfg.c2Ticks)
      omega
    · exact fun _ => ⟨hhl, hmid.2.1.trans hhl, by simp⟩
    · intro _ (heq : (s.dma.l.cnt - 1).toNat = s.eng.len.toNat)
      omega
    · exact ⟨hflags.1, hflags.2.1, Stream.countDown_flag hl hflags.2.2⟩
  · have hmid := h.frame.middle ht (by omega) (by omega)
    have hlast : s.dma.l.cnt - 1 = 0 := eq_zero_iff_toNat.2 (by omega)
    have hhz : s.dma.h.cnt = 0 := eq_zero_iff_toNat.2 (by omega)
    have hdz : s.dma.d.cnt = 0 := hmid.2.1.trans hhz
    have htc : s.eng.tc = false := by
      rw [← Bool.not_eq_true, h.engine.tc]
      exact hf
    have hd0 : s.dma.d.cnt.toNat = 0 := eq_zero_iff_toNat.1 hdz
    refine ⟨_, hr, hbuf hr,
      EngineInv.of_deadTime rfl htc (h.engine.run.2 hf) ⟨rfl, rfl, rfl⟩ ⟨rfl, rfl, rfl⟩ rfl h.engine.ovfLt
        ((TickFrame.tick hr).frameClause h hf) h.engine.ptr (by simp) h.engine.mode h.engine.config,
      FrameInv.of_deadTime rfl ?_ ⟨hhz, hdz, hlast⟩ ?_ ⟨hflags.1.2 hhz, hflags.2.1.2 hdz, ?_⟩⟩
    · show (nextCount s.tim).toNat < s.cfg.periodTicks
      omega
    · show s.dma.src.toNat = s.eng.len.toNat
      omega
    · show (s.dma.l.tcf || s.dma.l.cnt - 1 == 0) = true
      rw [hlast]
      simp
  · refine ⟨_, hr, hbuf hr, h.engine.of_same rfl rfl ⟨rfl, rfl, rfl⟩ (fun hne => absurd ht hne) rfl rfl rfl rfl,
      FrameInv.of_transmitting ht ?_ hleft hsrc ?_ ?_ ?_ ?_ hflags⟩
    · show (nextCount s.tim).toNat < s.cfg.periodTicks
      omega
    · intro (hlt : (nextCount s.tim).toNat < s.cfg.c1Ticks)
      exact h.frame.early ht (by omega)
    · intro (hge : s.cfg.c1Ticks ≤ (nextCount s.tim).toNat) (hlt : (nextCount s.tim).toNat < s.cfg.c2Ticks)
      exact h.frame.middle ht (by omega) (by omega)
    · intro (hge : s.cfg.c2Ticks ≤ (nextCount s.tim).toNat)
      exact h.frame.late ht (by omega)
    · intro (hge : s.cfg.c2Ticks ≤ (nextCount s.tim).toNat) (heq : s.dma.l.cnt.toNat = s.eng.len.toNat)
      have := h.frame.fresh ht (by omega) heq
      omega

/-- In DeadTime a TICK answers a state that meets the invariants (R103, R104, R108). -/
theorem tick_keeps_inv_deadTime (h : Inv s) (ht : s.eng.state = .deadTime) :
    ∃ t, tick s = .ok t ∧ Inv t := by
  have hf : s.eng.state ≠ .idle := by rw [ht]; simp
  have hnt : s.eng.state ≠ .transmitting := by rw [ht]; simp
  have hsrc := h.frame.src hf
  have hdone := h.frame.done hnt
  have hlow := h.engine.low hnt
  obtain ⟨hude, hcc1, hcc2, huie⟩ := h.lines_off ht
  have hen := h.engine.enables
  have hen' : s.dma.h.en = false ∧ s.dma.d.en = false ∧ s.dma.l.en = false := by
    simp only [← Bool.not_eq_true, hen, ht]
    simp
  have hsrc' : s.dma.src.toNat = s.eng.len.toNat := by
    have : s.dma.d.cnt.toNat = 0 := eq_zero_iff_toNat.1 hdone.2.1
    omega
  have hflags := h.frame.flags hf
  have hflags' := And.intro (hflags.1.2 hdone.1) (And.intro (hflags.2.1.2 hdone.2.1) (hflags.2.2.2 hdone.2.2))
  have hbuf : ∀ {u}, tick s = .ok u → BufferInv u := fun hu => (TickFrame.tick hu).bufferInv h.buffer
  have hovf := h.engine.ovfLt
  have hdov := s.cfg.deadOverflows_le
  have hadd : (s.eng.ovf + 1).toNat = s.eng.ovf.toNat + 1 := toNat_add_one_of_lt (by omega)
  have htc : s.eng.tc = false := by
    rw [← Bool.not_eq_true, h.engine.tc]
    exact hf
  rcases tick_deadTime h ht with ⟨hc, hn, hr⟩ | ⟨hc, hn, hr⟩
  · refine ⟨_, hr, hbuf hr, ?_, ?_⟩ <;> rcases irqOvf_cases (advance s) with ⟨hne, hi⟩ | ⟨heq, hi⟩ <;> rw [hi]
    · have hne' : (s.eng.ovf + 1).toNat ≠ s.cfg.deadOverflows := hne
      refine EngineInv.of_deadTime ht htc (h.engine.run.2 hf) ⟨hude, hcc1, hcc2⟩ hen' huie ?_
        ((hi ▸ TickFrame.tick hr).frameClause h hf) h.engine.ptr hlow h.engine.mode h.engine.config
      show (s.eng.ovf + 1).toNat < s.cfg.deadOverflows
      omega
    · exact EngineInv.of_idle rfl rfl rfl ⟨hude, hcc1, hcc2⟩ hen' rfl rfl h.engine.ptr hlow h.engine.mode
        h.engine.config
    · refine FrameInv.of_deadTime ht ?_ hdone hsrc' hflags'
      show (nextCount s.tim).toNat < s.cfg.periodTicks
      have := s.cfg.periodTicks_ge
      omega
    · exact FrameInv.of_idle rfl hdone
  · refine ⟨_, hr, hbuf hr,
      h.engine.of_same rfl rfl ⟨rfl, rfl, rfl⟩ (fun _ => hlow) rfl rfl rfl rfl,
      FrameInv.of_deadTime ht ?_ hdone hsrc' hflags'⟩
    show (nextCount s.tim).toNat < s.cfg.periodTicks
    omega

/-- A TICK in flight answers a state that meets the invariants. -/
theorem tick_keeps_inv (h : Inv s) (hf : s.eng.state ≠ .idle) : ∃ t, tick s = .ok t ∧ Inv t := by
  cases hs : s.eng.state with
  | idle => exact absurd hs hf
  | transmitting => exact tick_keeps_inv_transmitting h hs
  | deadTime => exact tick_keeps_inv_deadTime h hs

/-- A clock edge answers a state that meets the invariants. -/
theorem clockEdge_keeps_inv (h : Inv s) : ∃ t, clockEdge s = .next t ∧ Inv t := by
  unfold clockEdge
  split
  · obtain ⟨t, ht, hi⟩ := tick_keeps_inv h (h.engine.run.1 ‹_›)
    exact ⟨t, by rw [ht]; rfl, hi⟩
  · exact ⟨s, rfl, h⟩

end Sys2Proof.Machine
end

