-- ==== Sys2Proof/Laws/Commands.lean ====
section
/-! SUPPORT. The commands in a state that meets the invariants: each answers a next state that meets them
too (R62 to R64, R95), and so does every step. -/

namespace Sys2Proof.Machine

variable {s t : State}

/-! ### What the invariants depend on -/

theorem BufferInv.congr (h : BufferInv s) (hcfg : t.cfg = s.cfg) (hn : t.n = s.n) (hbrt : t.brt = s.brt)
    (hbuf : t.buf = s.buf) : BufferInv t where
  size := by rw [hn, hcfg]; exact h.size
  canonical := by rw [hbuf]; exact h.canonical
  inside := by rw [hbuf, hcfg]; exact h.inside
  binary := by
    unfold State.validBytes
    rw [hbuf, hn]
    exact h.binary
  channel := by rw [hn, hbuf, hbrt]; exact h.channel

/-- A buffer that is zeroed over the whole valid region meets the invariants (R63 to R65, R71). -/
theorem BufferInv.of_zeroed (h : BufferInv s) (hcfg : t.cfg = s.cfg) (hsize : t.n.toNat ≤ t.cfg.maxPixels)
    (hbuf : t.buf = s.buf.zeroBelow (24 * t.n.toNat)) : BufferInv t where
  size := hsize
  canonical := by rw [hbuf]; exact Memory.wf_zeroBelow h.canonical _
  inside c hc := by
    rw [hbuf] at hc
    rw [hcfg]
    exact h.inside c (Memory.mem_zeroBelow hc)
  binary a ha := by
    have ha' : a < 24 * t.n.toNat := ha
    rw [hbuf, Memory.read_zeroBelow, if_pos ha']
    exact .inl rfl
  channel p hp k hk := by
    rw [hbuf, collapse8_of_zero fun i hi => by
      rw [Memory.read_zeroBelow, if_pos (by omega)]
      rfl]
    exact feff_pos t.brt

/-- An absent buffer meets the invariants (R32, R65). -/
theorem BufferInv.of_absent (h : BufferInv s) (hcfg : t.cfg = s.cfg) (hn : t.n = 0)
    (hbuf : t.buf = s.buf) : BufferInv t where
  size := by simp [hn]
  canonical := by rw [hbuf]; exact h.canonical
  inside := by rw [hbuf, hcfg]; exact h.inside
  binary a ha := by simp [State.validBytes, hn] at ha
  channel p hp := by simp [hn] at hp

/-- The engine's invariants after a host command that leaves the engine alone. -/
theorem EngineInv.of_host (h : EngineInv s) (hcfg : t.cfg = s.cfg) (hbegun : t.begun = s.begun)
    (heng : t.eng = s.eng) (htim : t.tim = s.tim) (hdma : t.dma = s.dma) (hgpio : t.gpio = s.gpio)
    (hn : s.eng.state ≠ .idle → t.n = s.n) : EngineInv t where
  tc := by rw [heng]; exact h.tc
  run := by rw [heng, htim]; exact h.run
  lines := by rw [heng, htim]; exact h.lines
  enables := by rw [heng, hdma]; exact h.enables
  uie := by rw [heng, htim]; exact h.uie
  ovf := by rw [heng]; exact h.ovf
  ovfLt := by rw [heng, hcfg]; exact h.ovfLt
  frame hf := by
    rw [heng] at hf
    unfold State.validBytes
    rw [heng, hbegun, hn hf]
    exact h.frame hf
  ptr := by rw [heng]; exact h.ptr
  low := by rw [heng, hgpio]; exact h.low
  mode := by rw [hbegun, hgpio]; exact h.mode
  config := by rw [hbegun, htim, hcfg]; exact h.config

/-- The frame invariant after a host command that leaves the engine alone. -/
theorem FrameInv.of_host (h : FrameInv s) (hcfg : t.cfg = s.cfg) (heng : t.eng = s.eng)
    (htim : t.tim = s.tim) (hdma : t.dma = s.dma) (hgpio : t.gpio = s.gpio)
    (hbuf : s.eng.state ≠ .idle → t.buf = s.buf) : FrameInv t where
  count := by rw [heng, htim, hcfg]; exact h.count
  done := by rw [heng, hdma]; exact h.done
  left := by rw [heng, hdma]; exact h.left
  src := by rw [heng, hdma]; exact h.src
  early := by rw [heng, htim, hdma, hgpio, hcfg]; exact h.early
  middle ht := by
    rw [heng] at ht
    rw [heng, htim, hdma, hgpio, hcfg, hbuf (by rw [ht]; simp)]
    exact h.middle ht
  late := by rw [heng, htim, hdma, hgpio, hcfg]; exact h.late
  fresh := by rw [heng, htim, hdma, hcfg]; exact h.fresh
  flags := by rw [heng, hdma]; exact h.flags

/-- The invariants see nothing of ORDER, FAULT, the response and the schedule. -/
theorem Inv.congr (h : Inv s) (hcfg : t.cfg = s.cfg) (hn : t.n = s.n) (hbrt : t.brt = s.brt)
    (hbuf : t.buf = s.buf) (hbegun : t.begun = s.begun) (heng : t.eng = s.eng) (htim : t.tim = s.tim)
    (hdma : t.dma = s.dma) (hgpio : t.gpio = s.gpio) : Inv t :=
  ⟨h.buffer.congr hcfg hn hbrt hbuf, h.engine.of_host hcfg hbegun heng htim hdma hgpio fun _ => hn,
    h.frame.of_host hcfg heng htim hdma hgpio fun _ => hbuf⟩

/-- While Idle, a host command that leaves the engine alone keeps the invariants with the buffer's. -/
theorem Inv.of_idle_host (h : Inv s) (hs : s.eng.state = .idle) (hb : BufferInv t) (hcfg : t.cfg = s.cfg)
    (hbegun : t.begun = s.begun) (heng : t.eng = s.eng) (htim : t.tim = s.tim)
    (hdma : t.dma = s.dma) (hgpio : t.gpio = s.gpio) : Inv t :=
  ⟨hb, h.engine.of_host hcfg hbegun heng htim hdma hgpio fun hf => absurd hs hf,
    h.frame.of_host hcfg heng htim hdma hgpio fun hf => absurd hs hf⟩

/-- Recording a fault keeps the invariants (R118). -/
theorem Inv.raise (h : Inv s) (f : ModelFault) : Inv (s.raise f) :=
  h.congr (by simp) (by simp) (by simp) (by simp) (by simp) (by simp) (by simp) (by simp) (by simp)

/-- Responding keeps the invariants (R51). -/
theorem Inv.respond (h : Inv s) (v : Colour) : Inv (s.respond v) :=
  h.congr rfl rfl rfl rfl rfl rfl rfl rfl rfl

/-- Taking an event keeps the invariants. -/
theorem Inv.takeEvent (h : Inv s) : Inv s.takeEvent :=
  h.congr rfl rfl rfl rfl rfl rfl rfl rfl rfl

/-- R95 (j): before BEGIN the engine is Idle. -/
theorem Inv.idle_of_not_begun (h : Inv s) (hb : s.begun = false) : s.eng.state = .idle := by
  by_contra hf
  rw [(h.engine.frame hf).1] at hb
  cases hb

/-! ### The commands, one by one -/

theorem BufferInv.resize (h : BufferInv s) (n : Index) : BufferInv (resize n s) := by
  by_cases hmax : s.cfg.maxPixels < n.toNat
  · exact h.of_absent (by simp) (by simp [hmax]) (by simp [hmax])
  · refine h.of_zeroed (by simp) ?_ (by simp [hmax])
    simp only [resize_n, resize_cfg, if_neg hmax]
    omega

theorem execStrip_keeps_inv (h : Inv s) (n : Index) (tf : Byte) :
    ∃ t, execStrip n tf s = .next t ∧ Inv t := by
  unfold execStrip
  split
  · exact ⟨_, rfl, h.raise _⟩
  · rename_i hb
    have hidle := h.idle_of_not_begun (by simpa using hb)
    refine ⟨_, rfl, h.of_idle_host hidle ?_ (by simp) (by simp) (by simp) (by simp) (by simp) (by simp)⟩
    by_cases hmax : s.cfg.maxPixels < n.toNat
    · exact h.buffer.of_absent (by simp) (by simp [hmax]) (by simp [hmax])
    · refine h.buffer.of_zeroed (by simp) ?_ (by simp [hmax])
      simp only [resize_n, resize_cfg, if_neg hmax]
      omega

theorem execUlen_keeps_inv (h : Inv s) (n : Index) : ∃ t, execUlen n s = .next t ∧ Inv t := by
  unfold execUlen
  split
  · exact ⟨_, rfl, h.raise _⟩
  · rename_i hb
    have hidle := h.idle_of_not_begun (by simpa using hb)
    exact ⟨_, rfl, h.of_idle_host hidle (h.buffer.resize n) (by simp) (by simp) (by simp) (by simp)
      (by simp) (by simp)⟩

theorem execUtype_keeps_inv (h : Inv s) (tf : Byte) : ∃ t, execUtype tf s = .next t ∧ Inv t := by
  unfold execUtype
  split
  · exact ⟨_, rfl, h.raise _⟩
  · exact ⟨_, rfl, h.congr rfl rfl rfl rfl rfl rfl rfl rfl rfl⟩

theorem toNat_ofNat_of_lt {w n : Nat} (h : n < 2 ^ w) : (BitVec.ofNat w n).toNat = n := by
  rw [BitVec.toNat_ofNat, Nat.mod_eq_of_lt h]

theorem execBegin_keeps_inv (h : Inv s) : ∃ t, execBegin s = .next t ∧ Inv t := by
  unfold execBegin
  split
  · exact ⟨_, rfl, h.raise _⟩
  · rename_i hb
    have hidle := h.idle_of_not_begun (by simpa using hb)
    have hp := s.cfg.periodTicks_le
    have hp3 := s.cfg.periodTicks_ge
    have h1 := s.cfg.c1Ticks_lt
    have h2 := s.cfg.c2Ticks_lt
    have hdone := h.frame.done (by rw [hidle]; simp)
    have hoff : ∀ {b : Bool} {x : EngState}, x ≠ .idle → (b = true ↔ s.eng.state = x) → b = false := by
      intro b x hx hbx
      rw [← Bool.not_eq_true, hbx, hidle]
      exact fun h' => hx h'.symm
    obtain ⟨hude, hcc1, hcc2⟩ := h.engine.lines
    obtain ⟨henh, hend, henl⟩ := h.engine.enables
    refine ⟨_, rfl, h.buffer.congr rfl rfl rfl rfl, ?_, FrameInv.of_idle hidle hdone⟩
    refine EngineInv.of_idle hidle (h.engine.tc.2 hidle) ?_
      ⟨hoff (by simp) hude, hoff (by simp) hcc1, hoff (by simp) hcc2⟩
      ⟨hoff (by simp) henh, hoff (by simp) hend, hoff (by simp) henl⟩ (hoff (by simp) h.engine.uie)
      (h.engine.ovf (by rw [hidle]; simp)) rfl rfl rfl fun _ => ⟨?_, ?_, ?_⟩
    · show s.tim.run = false
      rw [← Bool.not_eq_true, h.engine.run, hidle]
      simp
    · exact toNat_ofNat_of_lt (by omega)
    · exact toNat_ofNat_of_lt (by omega)
    · exact toNat_ofNat_of_lt (by omega)

/-- The byte count of a frame fits `CNT_W` bits (R7). -/
theorem toNat_frameLength (s : State) : (BitVec.ofNat 21 s.validBytes).toNat = s.validBytes :=
  toNat_ofNat_of_lt (by
    have := s.n.isLt
    unfold State.validBytes
    omega)

/-- Everything SHOW can do (R79, R112, R139). -/
theorem execShow_cases (s : State) :
    (s.n = 0 ∧ execShow s = .next s) ∨
    (s.n ≠ 0 ∧ s.begun = false ∧ execShow s = .next (s.raise .showBeforeBegin)) ∨
    (s.n ≠ 0 ∧ s.begun = true ∧ s.eng.state ≠ .idle ∧ execShow s = .next (s.raise .sendWhileBusy)) ∨
    (s.n ≠ 0 ∧ s.begun = true ∧ s.eng.state = .idle ∧
      execShow s = .next (hardwareSend 0 (BitVec.ofNat 21 s.validBytes) s)) := by
  have hz : s.n ≠ 0 → s.validBytes ≠ 0 := fun hn h0 => hn (by
    refine eq_zero_iff_toNat.2 ?_
    unfold State.validBytes at h0
    omega)
  unfold execShow send rawView
  by_cases hn : s.n = 0
  · exact .inl ⟨hn, if_pos hn⟩
  · rw [if_neg hn]
    by_cases hb : s.begun = false
    · exact .inr (.inl ⟨hn, hb, if_pos hb⟩)
    · rw [if_neg hb, if_neg (hz hn)]
      by_cases hs : s.eng.state = .idle
      · exact .inr (.inr (.inr ⟨hn, by simpa using hb, hs, if_neg (by simpa using hs)⟩))
      · exact .inr (.inr (.inl ⟨hn, by simpa using hb, hs, if_pos hs⟩))

/-- The state an effective SHOW leaves meets the invariants (R80). -/
theorem hardwareSend_inv (h : Inv s) (hn : s.n ≠ 0) (hb : s.begun = true) (hs : s.eng.state = .idle) :
    Inv (hardwareSend 0 (BitVec.ofNat 21 s.validBytes) s) := by
  have hlen := toNat_frameLength s
  have hc := h.engine.config hb
  have h1 := s.cfg.c1Ticks_lt
  have h2 := s.cfg.c2Ticks_lt
  have hpos : 1 ≤ s.validBytes := by
    have : s.n.toNat ≠ 0 := fun h0 => hn (eq_zero_iff_toNat.2 h0)
    unfold State.validBytes
    omega
  have hlow := h.engine.low (by rw [hs]; simp)
  have hlen0 : BitVec.ofNat 21 s.validBytes ≠ 0 := fun h0 => by
    rw [h0] at hlen
    simp at hlen
    omega
  refine ⟨h.buffer.congr rfl rfl rfl rfl, ?_, FrameInv.of_transmitting rfl ?_ ?_ ?_ ?_ ?_ ?_ ?_ ?_⟩
  · constructor
    case tc => simp
    case run => simp
    case lines => simp
    case enables => simp
    case uie =>
      have : s.tim.uie = false := by
        rw [← Bool.not_eq_true, h.engine.uie, hs]
        simp
      simp [this]
    case ovf => exact fun _ => h.engine.ovf (by rw [hs]; simp)
    case ovfLt => exact h.engine.ovfLt
    case frame => exact fun _ => ⟨hb, hn, hlen⟩
    case ptr => rfl
    case low => simp
    case mode => exact h.engine.mode
    case config => exact h.engine.config
  · show s.tim.arr.toNat < s.cfg.periodTicks
    omega
  · simp only [hardwareSend_dma, hardwareSend_eng, Stream.arm_cnt]
    omega
  · simp
  · intro (hlt : s.tim.arr.toNat < s.cfg.c1Ticks)
    omega
  · intro _ (hlt : s.tim.arr.toNat < s.cfg.c2Ticks)
    omega
  · exact fun _ => ⟨rfl, rfl, hlow⟩
  · intro _ _
    show s.tim.arr.toNat + 1 = s.cfg.periodTicks
    have := s.cfg.periodTicks_ge
    omega
  · simp only [hardwareSend_dma, Stream.arm_tcf, Stream.arm_cnt, hlen0, iff_false]
    simp

theorem execShow_keeps_inv (h : Inv s) : ∃ t, execShow s = .next t ∧ Inv t := by
  rcases execShow_cases s with ⟨-, he⟩ | ⟨-, -, he⟩ | ⟨-, -, -, he⟩ | ⟨hn, hb, hs, he⟩
  · exact ⟨_, he, h⟩
  · exact ⟨_, he, h.raise _⟩
  · exact ⟨_, he, h.raise _⟩
  · exact ⟨_, he, hardwareSend_inv h hn hb hs⟩

/-- The logical bytes of a buffer after SETRGB keep the channel bound (R59, R64). -/
theorem channel_writeSlot {m : Memory} (hm : m.wf) {brt : Byte} (base : Nat) (r g b : Byte) {p k : Nat}
    (hk : k < 3) {index : Nat} (hbase : base = 24 * index)
    (hold : p ≠ index → (collapse8 m (24 * p + 8 * k)).toNat < feff brt) :
    (collapse8 (writeSlot m base brt r g b) (24 * p + 8 * k)).toNat < feff brt := by
  subst hbase
  obtain ⟨h0, h1, h2⟩ := collapse8_writeSlot hm (24 * index) brt r g b
  by_cases hpi : p = index
  · subst hpi
    have hk3 : k = 0 ∨ k = 1 ∨ k = 2 := by omega
    rcases hk3 with rfl | rfl | rfl
    · rw [Nat.mul_zero, Nat.add_zero, h0]
      exact scaleIn_lt _ _
    · rw [Nat.mul_one, h1]
      exact scaleIn_lt _ _
    · rw [show 8 * 2 = 16 by norm_num, h2]
      exact scaleIn_lt _ _
  · rw [collapse8_writeSlot_of_disjoint hm _ _ _ _ (by omega)]
    exact hold hpi

/-- The buffer after SETRGB meets its invariants (R59, R63, R64). -/
theorem BufferInv.writeSlot (h : BufferInv s) {index : Index} (hi : index.toNat < s.n.toNat) {r g b : Byte}
    (hcfg : t.cfg = s.cfg) (hn : t.n = s.n) (hbrt : t.brt = s.brt)
    (hbuf : t.buf = Machine.writeSlot s.buf (slotBase index) s.brt r g b) : BufferInv t where
  size := by rw [hn, hcfg]; exact h.size
  canonical := by rw [hbuf]; exact wf_writeSlot h.canonical _ _ _ _ _
  inside c hc := by
    rw [hbuf] at hc
    rw [hcfg]
    rcases mem_writeSlot hc with hc | hc
    · exact h.inside c hc
    · have := slot_in_buffer h.size hi
      omega
  binary a ha := by
    unfold State.validBytes at ha
    rw [hn] at ha
    rw [hbuf, read_writeSlot h.canonical]
    split_ifs
    · exact bitByte_binary _ _
    · exact bitByte_binary _ _
    · exact bitByte_binary _ _
    · exact h.binary a ha
  channel p hp k hk := by
    rw [hn] at hp
    rw [hbuf, hbrt]
    exact channel_writeSlot h.canonical _ _ _ _ hk rfl fun _ => h.channel p hp k hk

theorem setPixel_keeps_inv (h : Inv s) (index : Index) (r g b : Byte) :
    ∃ t, setPixel index r g b s = .next t ∧ Inv t := by
  rcases setPixel_cases index r g b s with ⟨-, he⟩ | ⟨-, -, he⟩ | ⟨hi, -, hout, -⟩ | ⟨hi, hs, -, he⟩
  · exact ⟨_, he, h⟩
  · exact ⟨_, he, h.raise _⟩
  · exact absurd (slot_in_buffer h.buffer.size hi) (by omega)
  · refine ⟨_, he, h.of_idle_host hs (h.buffer.writeSlot (r := r) (g := g) (b := b) hi ?_ ?_ ?_ ?_)
      ?_ ?_ ?_ ?_ ?_ ?_⟩ <;> dsimp only

theorem execGetpix_keeps_inv (h : Inv s) (index : Index) : ∃ t, execGetpix index s = .next t ∧ Inv t := by
  unfold execGetpix
  split
  · rename_i hi
    rw [withRange_of_le (slot_in_buffer h.buffer.size (by simpa [State.inRange] using hi))]
    exact ⟨_, rfl, h.respond _⟩
  · exact ⟨_, rfl, h.respond _⟩

theorem execClear_keeps_inv (h : Inv s) : ∃ t, execClear s = .next t ∧ Inv t := by
  unfold execClear
  split
  · exact ⟨_, rfl, h⟩
  · split
    · exact ⟨_, rfl, h.raise _⟩
    · rename_i hs
      rw [withRange_of_le (valid_in_buffer h.buffer.size)]
      exact ⟨_, rfl, h.of_idle_host (by simpa using hs)
        (h.buffer.of_zeroed rfl h.buffer.size rfl) rfl rfl rfl rfl rfl rfl⟩

/-- The buffer after SETBRT meets its invariants (R61, R63, R64). -/
theorem BufferInv.rescale (h : BufferInv s) (hcfg : t.cfg = s.cfg) (hn : t.n = s.n)
    (hbuf : t.buf = rescaleAll (rescaleFactor s.brt t.brt) s.buf s.n.toNat) : BufferInv t where
  size := by rw [hn, hcfg]; exact h.size
  canonical := by rw [hbuf]; exact wf_rescaleAll h.canonical _ _
  inside c hc := by
    rw [hbuf] at hc
    rw [hcfg]
    rcases mem_rescaleAll hc with hc | hc
    · exact h.inside c hc
    · have := valid_in_buffer h.size
      unfold State.validBytes at this
      omega
  binary a ha := by
    unfold State.validBytes at ha
    rw [hn] at ha
    rw [hbuf, read_rescaleAll h.canonical, if_pos ha]
    exact bitByte_binary _ _
  channel p hp k hk := by
    rw [hn] at hp
    rw [hbuf, collapse8_rescaleAll h.canonical _ hp hk]
    exact rescale_lt t.brt (h.channel p hp k hk)

theorem execSetbrt_keeps_inv (h : Inv s) (level : Byte) : ∃ t, execSetbrt level s = .next t ∧ Inv t := by
  unfold execSetbrt
  simp only
  split
  · exact ⟨_, rfl, h⟩
  · split
    · exact ⟨_, rfl, h.raise _⟩
    · rename_i hne hs
      rw [withRange_of_le (valid_in_buffer h.buffer.size)]
      refine ⟨_, rfl, h.buffer.rescale rfl rfl rfl, h.engine.of_host rfl rfl rfl rfl rfl rfl fun _ => rfl,
        h.frame.of_host rfl rfl rfl rfl rfl fun hf => ?_⟩
      exact absurd (And.intro (h.engine.frame hf).2.1 hf) hs

/-- Every command answers a next state that meets the invariants. -/
theorem exec_keeps_inv (h : Inv s) (i : Instr) : ∃ t, exec i s = .next t ∧ Inv t := by
  cases i with
  | strip n tf => exact execStrip_keeps_inv h n tf
  | ulen n => exact execUlen_keeps_inv h n
  | utype tf => exact execUtype_keeps_inv h tf
  | begin_ => exact execBegin_keeps_inv h
  | show_ => exact execShow_keeps_inv h
  | poll => exact ⟨_, rfl, h.respond _⟩
  | numpix => exact ⟨_, rfl, h.respond _⟩
  | setrgb index r g b => exact setPixel_keeps_inv h index r g b
  | setpk index c => exact setPixel_keeps_inv h index _ _ _
  | getpix index => exact execGetpix_keeps_inv h index
  | clear => exact execClear_keeps_inv h
  | setbrt level => exact execSetbrt_keeps_inv h level

theorem Inv.exec (h : Inv s) {i : Instr} (he : Machine.exec i s = .next t) : Inv t := by
  obtain ⟨u, hu, hinv⟩ := exec_keeps_inv h i
  cases hu.symm.trans he
  exact hinv

theorem Inv.clockEdge (h : Inv s) (he : Machine.clockEdge s = .next t) : Inv t := by
  obtain ⟨u, hu, hinv⟩ := clockEdge_keeps_inv h
  cases hu.symm.trans he
  exact hinv

/-! ### One step -/

/-- The reset state meets the invariants, whatever the memory holds in canonical form (R142, R144). -/
theorem resetEdge_inv (h : Inv s) : Inv (resetEdge s) :=
  ⟨h.buffer.of_absent rfl rfl rfl,
    EngineInv.of_idle rfl rfl rfl ⟨rfl, rfl, rfl⟩ ⟨rfl, rfl, rfl⟩ rfl rfl rfl rfl rfl (fun hb => by cases hb),
    FrameInv.of_idle rfl ⟨rfl, rfl, rfl⟩⟩

/-- Everything one step can do: a reset edge, a stop after a fault, a command word, a clock edge. -/
theorem step_cases (s : State) :
    (s.nextEvent = .rst ∧ step s = .next (resetEdge s.takeEvent)) ∨
    (s.nextEvent ≠ .rst ∧ s.fault ≠ 0 ∧ step s = .fault (.stopped s.fault)) ∨
    (∃ w, s.nextEvent = .cmd w ∧ s.fault = 0 ∧ step s = acceptWord w s.takeEvent) ∨
    (s.nextEvent = .clk ∧ s.fault = 0 ∧ step s = clockEdge s.takeEvent) := by
  unfold step
  cases he : s.nextEvent with
  | rst => exact .inl ⟨rfl, rfl⟩
  | clk =>
    by_cases hf : s.fault = 0
    · exact .inr (.inr (.inr ⟨rfl, hf, if_pos hf⟩))
    · exact .inr (.inl ⟨by simp, hf, if_neg hf⟩)
  | cmd w =>
    by_cases hf : s.fault = 0
    · exact .inr (.inr (.inl ⟨w, rfl, hf, if_pos hf⟩))
    · exact .inr (.inl ⟨by simp, hf, if_neg hf⟩)

/-- Accepting a word: the decoded command runs, or IllegalCommand is raised (R119). -/
theorem acceptWord_cases (w : CmdWord) (s : State) :
    (∃ i, decode w = .ok i ∧ acceptWord w s = exec i s) ∨
    ((∃ e, decode w = .error e) ∧ acceptWord w s = .next (s.raise .illegalCommand)) := by
  unfold acceptWord
  cases hd : decode w with
  | ok i => exact .inl ⟨i, rfl, rfl⟩
  | error e => exact .inr ⟨⟨e, rfl⟩, rfl⟩

end Sys2Proof.Machine
end

