-- ==== Sys2Proof/Laws/PerInstr.lean ====
section
/-! SUPPORT. The statements made per command, one family each, with one lemma per constructor of `Instr`. -/

namespace Sys2Proof.Laws.MatchesRow

/-- The word of a well-formed command matches its row of the table of R47. -/
def Statement (i : Instr) : Prop := i.wf = true → encode i &&& (opRow i).mask = (opRow i).pat

/-- The rows whose mask and match, cut into fields, are given. -/
theorem of_fields {w : CmdWord} {row : OpRow} {o : BitVec 8} {a ma : Index} {v mv : Colour}
    (hw : w = formatC o a v) (hm : row.mask = formatC 0xFF ma mv) (hp : row.pat = formatC o 0 0)
    (ha : a &&& ma = 0) (hv : v &&& mv = 0) : w &&& row.mask = row.pat := by
  rw [hw, hm, hp, formatC_and, ha, hv, show (0xFF : BitVec 8) = BitVec.allOnes 8 by decide,
    BitVec.and_allOnes]

theorem strip (n : Index) (tf : Byte) : Statement (.strip n tf) := fun h =>
  of_fields (ma := 0x0000) (mv := 0xFFFFFC) rfl rfl rfl BitVec.and_zero (flags_masked h)

theorem ulen (n : Index) : Statement (.ulen n) := fun _ =>
  of_fields (ma := 0x0000) (mv := 0xFFFFFF) rfl rfl rfl BitVec.and_zero BitVec.zero_and

theorem utype (tf : Byte) : Statement (.utype tf) := fun h =>
  of_fields (ma := 0xFFFF) (mv := 0xFFFFFC) rfl rfl rfl BitVec.zero_and (flags_masked h)

theorem begin_ : Statement .begin_ := fun _ => by decide

theorem show_ : Statement .show_ := fun _ => by decide

theorem poll : Statement .poll := fun _ => by decide

theorem numpix : Statement .numpix := fun _ => by decide

theorem setrgb (index : Index) (r g b : Byte) : Statement (.setrgb index r g b) := fun _ =>
  of_fields (ma := 0x0000) (mv := 0x000000) rfl rfl rfl BitVec.and_zero BitVec.and_zero

theorem setpk (index : Index) (c : Colour) : Statement (.setpk index c) := fun _ =>
  of_fields (ma := 0x0000) (mv := 0x000000) rfl rfl rfl BitVec.and_zero BitVec.and_zero

theorem getpix (index : Index) : Statement (.getpix index) := fun _ =>
  of_fields (ma := 0x0000) (mv := 0xFFFFFF) rfl rfl rfl BitVec.and_zero BitVec.zero_and

theorem clear : Statement .clear := fun _ => by decide

theorem setbrt (level : Byte) : Statement (.setbrt level) := fun _ =>
  of_fields (ma := 0xFFFF) (mv := 0xFFFF00) rfl rfl rfl BitVec.zero_and (level_masked level)

end Sys2Proof.Laws.MatchesRow
end

