-- ==== Sys2Proof/Laws/Run.lean ====
section
/-! SUPPORT. Runs in which the host only waits and reads: the invariants are kept, and each TICK in flight moves
the engine one place along the schedule of R94. -/

namespace Sys2Proof.Machine

variable {s t : State}

/-! ### Runs of several steps -/

theorem runSteps_zero (s : State) : runSteps 0 s = .next s := rfl

theorem core_run_succ (M : Host.Core) (k : Nat) (s : M.State) : M.run (k + 1) s =
    match M.step s with
    | .next t => M.run k t
    | .fault r => .fault r
    | .refused r => .refused r := rfl

theorem runSteps_succ (k : Nat) (s : State) : runSteps (k + 1) s =
    match step s with
    | .next t => runSteps k t
    | .fault r => .fault r
    | .refused r => .refused r := by
  refine (core_run_succ Sys2Proof.core k s).trans ?_
  have hs : Sys2Proof.core.step s = step s := rfl
  rw [hs]
  cases step s <;> rfl

theorem runSteps_succ_of_step {k : Nat} (h : step s = .next t) : runSteps (k + 1) s = runSteps k t := by
  rw [runSteps_succ, h]

/-- A run of `a + b` steps is a run of `b` steps from where the first `a` lead. -/
theorem runSteps_add {a b : Nat} (h : runSteps a s = .next t) : runSteps (a + b) s = runSteps b t := by
  induction a generalizing s with
  | zero =>
    cases h
    rw [Nat.zero_add]
  | succ a ih =>
    rw [runSteps_succ] at h
    rw [Nat.add_right_comm, runSteps_succ]
    cases hs : step s with
    | next u =>
      rw [hs] at h
      exact ih h
    | fault r =>
      rw [hs] at h
      cases h
    | refused r =>
      rw [hs] at h
      cases h

/-! ### The events of a host that only waits and reads -/

theorem nextEvent_cons {e : Event} {es : List Event} (h : s.schedule = e :: es) : s.nextEvent = e := by
  unfold State.nextEvent
  rw [h]

theorem nextEvent_nil (h : s.schedule = []) : s.nextEvent = .clk := by
  unfold State.nextEvent
  rw [h]

/-- A reading command changes the response port and nothing else. -/
theorem exec_reads (h : BufferInv s) {i : Instr} (hi : i = .poll ∨ i = .numpix ∨ ∃ index, i = .getpix index) :
    ∃ v, exec i s = .next { s with rsp := some v } := by
  rcases hi with rfl | rfl | ⟨index, rfl⟩
  · exact ⟨_, rfl⟩
  · exact ⟨_, rfl⟩
  · show ∃ v, execGetpix index s = _
    unfold execGetpix
    split
    · rename_i hin
      rw [withRange_of_le (slot_in_buffer h.size (by simpa [State.inRange] using hin))]
      exact ⟨_, rfl⟩
    · exact ⟨_, rfl⟩

/-- A step at a reading command takes the event and writes the response port. -/
theorem step_reads (h : Inv s) (hf : s.fault = 0) {w : CmdWord} (hn : s.nextEvent = .cmd w)
    (hr : readsOnly (.cmd w)) :
    ∃ v, step s = .next { s with schedule := s.schedule.tail, rsp := some v } := by
  obtain ⟨i, hd, hi⟩ := hr
  obtain ⟨v, hv⟩ := exec_reads h.takeEvent.buffer hi
  refine ⟨v, ?_⟩
  rcases step_cases s with ⟨h', -⟩ | ⟨-, h', -⟩ | ⟨w', h', -, hs⟩ | ⟨h', -, -⟩
  · cases hn.symm.trans h'
  · exact absurd hf h'
  · cases hn.symm.trans h'
    rcases acceptWord_cases w s.takeEvent with ⟨j, hj, ha⟩ | ⟨⟨e, he⟩, -⟩
    · cases hd.symm.trans hj
      rw [hs, ha, hv]
      rfl
    · cases hd.symm.trans he
  · cases hn.symm.trans h'

theorem step_clk (hf : s.fault = 0) (hn : s.nextEvent = .clk) : step s = clockEdge s.takeEvent := by
  unfold step
  rw [hn]
  exact if_pos hf

theorem clockEdges_succ (events : List Event) (m : Nat) : clockEdges events (m + 1) =
    clockEdges events m + if events[m]? = none ∨ events[m]? = some .clk then 1 else 0 := by
  unfold clockEdges
  by_cases hm : m < events.length
  · rw [List.take_succ_eq_append_getElem hm, List.count_append, List.getElem?_eq_getElem hm]
    by_cases he : events[m] = .clk
    · rw [he]
      simp
      omega
    · rw [List.count_singleton, if_neg (by simpa using he), if_neg (by simpa using he)]
      omega
  · rw [List.getElem?_eq_none (by omega), List.take_of_length_le (by omega), List.take_of_length_le (by omega)]
    simp
    omega

/-- The place of the engine in the schedule of R94: the number of TICKs since the effective SHOW. -/
def tickNumber (s : State) : Nat :=
  match s.eng.state with
  | .idle => 0
  | .transmitting =>
    if s.tim.cnt.toNat < s.cfg.c2Ticks then
      1 + (s.eng.len.toNat - s.dma.l.cnt.toNat) * s.cfg.periodTicks + s.tim.cnt.toNat
    else (s.eng.len.toNat - s.dma.l.cnt.toNat) * s.cfg.periodTicks + s.tim.cnt.toNat + 1 - s.cfg.periodTicks
  | .deadTime =>
    1 + (s.eng.len.toNat - 1 + s.eng.ovf.toNat) * s.cfg.periodTicks + s.tim.cnt.toNat

theorem tickNumber_transmitting_lt (ht : s.eng.state = .transmitting)
    (h : s.tim.cnt.toNat < s.cfg.c2Ticks) : tickNumber s =
      1 + (s.eng.len.toNat - s.dma.l.cnt.toNat) * s.cfg.periodTicks + s.tim.cnt.toNat := by
  unfold tickNumber
  rw [ht]
  exact if_pos h

theorem tickNumber_transmitting_ge (ht : s.eng.state = .transmitting)
    (h : s.cfg.c2Ticks ≤ s.tim.cnt.toNat) : tickNumber s =
      (s.eng.len.toNat - s.dma.l.cnt.toNat) * s.cfg.periodTicks + s.tim.cnt.toNat + 1 -
        s.cfg.periodTicks := by
  unfold tickNumber
  rw [ht]
  exact if_neg (by omega)

theorem tickNumber_deadTime (ht : s.eng.state = .deadTime) : tickNumber s =
    1 + (s.eng.len.toNat - 1 + s.eng.ovf.toNat) * s.cfg.periodTicks + s.tim.cnt.toNat := by
  unfold tickNumber
  rw [ht]

/-- The next place in the schedule of a state in Transmitting (R94). -/
theorem tick_advances_transmitting (h : Inv s) (hs : s.eng.state = .transmitting) (ht : tick s = .ok t) :
    t.eng.state ≠ .idle ∧ tickNumber t = tickNumber s + 1 := by
  have h1 := s.cfg.c1Ticks_lt
  have h2 := s.cfg.c2Ticks_lt
  have hleft := h.frame.left hs
  have hl := ne_zero_of_one_le hleft.1
  have hsub := toNat_sub_one hl
  have hmul : (s.eng.len.toNat - (s.dma.l.cnt.toNat - 1)) * s.cfg.periodTicks =
      (s.eng.len.toNat - s.dma.l.cnt.toNat) * s.cfg.periodTicks + s.cfg.periodTicks := by
    rw [show s.eng.len.toNat - (s.dma.l.cnt.toNat - 1) = s.eng.len.toNat - s.dma.l.cnt.toNat + 1 by omega,
      Nat.add_mul, Nat.one_mul]
  rcases tick_transmitting h hs with
    ⟨hc, hn, hr⟩ | ⟨hc, hn, hr⟩ | ⟨hc, hn, hone, hr⟩ | ⟨hc, hn, hone, hr⟩ | ⟨hc, hne1, hne2, hn, hr⟩ <;>
    (rw [hr] at ht; cases ht)
  · refine ⟨by simp [hs], (tickNumber_transmitting_lt (by exact hs) ?_).trans ?_⟩
    · show (nextCount s.tim).toNat < s.cfg.c2Ticks
      omega
    · rw [tickNumber_transmitting_ge hs (by omega)]
      show 1 + (s.eng.len.toNat - s.dma.l.cnt.toNat) * s.cfg.periodTicks + (nextCount s.tim).toNat = _
      omega
  · refine ⟨by simp [hs], (tickNumber_transmitting_lt (by exact hs) ?_).trans ?_⟩
    · show (nextCount s.tim).toNat < s.cfg.c2Ticks
      omega
    · rw [tickNumber_transmitting_lt hs (by omega)]
      show 1 + (s.eng.len.toNat - s.dma.l.cnt.toNat) * s.cfg.periodTicks + (nextCount s.tim).toNat = _
      omega
  · refine ⟨by simp [hs], (tickNumber_transmitting_ge (by exact hs) ?_).trans ?_⟩
    · show s.cfg.c2Ticks ≤ (nextCount s.tim).toNat
      omega
    · rw [tickNumber_transmitting_lt hs (by omega)]
      show (s.eng.len.toNat - (s.dma.l.cnt - 1).toNat) * s.cfg.periodTicks + (nextCount s.tim).toNat + 1 -
        s.cfg.periodTicks = _
      rw [hsub]
      omega
  · refine ⟨by simp, (tickNumber_deadTime rfl).trans ?_⟩
    have hovf := h.engine.ovf (by rw [hs]; simp)
    rw [tickNumber_transmitting_lt hs (by omega)]
    show 1 + (s.eng.len.toNat - 1 + s.eng.ovf.toNat) * s.cfg.periodTicks + (nextCount s.tim).toNat = _
    rw [hovf, hone]
    show 1 + (s.eng.len.toNat - 1 + 0) * s.cfg.periodTicks + (nextCount s.tim).toNat = _
    rw [Nat.add_zero]
    omega
  · refine ⟨by simp [hs], ?_⟩
    by_cases hlt : s.tim.cnt.toNat + 1 < s.cfg.c2Ticks
    · refine (tickNumber_transmitting_lt (by exact hs) ?_).trans ?_
      · show (nextCount s.tim).toNat < s.cfg.c2Ticks
        omega
      · rw [tickNumber_transmitting_lt hs (by omega)]
        show 1 + (s.eng.len.toNat - s.dma.l.cnt.toNat) * s.cfg.periodTicks + (nextCount s.tim).toNat = _
        omega
    · refine (tickNumber_transmitting_ge (by exact hs) ?_).trans ?_
      · show s.cfg.c2Ticks ≤ (nextCount s.tim).toNat
        omega
      · rw [tickNumber_transmitting_ge hs (by omega)]
        show (s.eng.len.toNat - s.dma.l.cnt.toNat) * s.cfg.periodTicks + (nextCount s.tim).toNat + 1 -
          s.cfg.periodTicks = _
        have hfresh := h.frame.fresh hs (by omega)
        have hdone : 1 ≤ s.eng.len.toNat - s.dma.l.cnt.toNat := by omega
        have := Nat.mul_le_mul_right s.cfg.periodTicks hdone
        omega

/-- The next place in the schedule of a state in DeadTime, or the return to Idle (R94, R104). -/
theorem tick_advances_deadTime (h : Inv s) (hs : s.eng.state = .deadTime) (ht : tick s = .ok t) :
    (t.eng.state = .deadTime ∧ tickNumber t = tickNumber s + 1) ∨
    (t.eng.state = .idle ∧
      tickNumber s + 1 = 1 + (s.eng.len.toNat + s.cfg.deadOverflows - 1) * s.cfg.periodTicks) := by
  have hf : s.eng.state ≠ .idle := by rw [hs]; simp
  have hovf := h.engine.ovfLt
  have hdov := s.cfg.deadOverflows_le
  have hadd : (s.eng.ovf + 1).toNat = s.eng.ovf.toNat + 1 := toNat_add_one_of_lt (by omega)
  have hlen : 1 ≤ s.eng.len.toNat := by
    obtain ⟨-, hn, hv⟩ := h.engine.frame hf
    have : s.n.toNat ≠ 0 := fun h0 => hn (eq_zero_iff_toNat.2 h0)
    unfold State.validBytes at hv
    omega
  have hmul : (s.eng.len.toNat - 1 + (s.eng.ovf.toNat + 1)) * s.cfg.periodTicks =
      (s.eng.len.toNat - 1 + s.eng.ovf.toNat) * s.cfg.periodTicks + s.cfg.periodTicks := by
    rw [← Nat.add_assoc, Nat.add_mul, Nat.one_mul]
  have hnow := tickNumber_deadTime hs
  rcases tick_deadTime h hs with ⟨hc, hn, hr⟩ | ⟨hc, hn, hr⟩
  · rcases irqOvf_cases (advance s) with ⟨hne, hi⟩ | ⟨heq, hi⟩ <;> (rw [hr, hi] at ht; cases ht)
    · refine .inl ⟨hs, (tickNumber_deadTime (by exact hs)).trans ?_⟩
      show 1 + (s.eng.len.toNat - 1 + (s.eng.ovf + 1).toNat) * s.cfg.periodTicks + (nextCount s.tim).toNat = _
      rw [hadd]
      omega
    · refine .inr ⟨rfl, ?_⟩
      have heq' : (s.eng.ovf + 1).toNat = s.cfg.deadOverflows := heq
      rw [← heq', hadd, show s.eng.len.toNat + (s.eng.ovf.toNat + 1) - 1 =
        s.eng.len.toNat - 1 + (s.eng.ovf.toNat + 1) by omega]
      omega
  · cases hr.symm.trans ht
    refine .inl ⟨hs, (tickNumber_deadTime (by exact hs)).trans ?_⟩
    show 1 + (s.eng.len.toNat - 1 + s.eng.ovf.toNat) * s.cfg.periodTicks + (nextCount s.tim).toNat = _
    omega

/-! ### A whole frame (R94, R104) -/

/-- A frame's length in bits, from `ENG.LEN` (R95 (g)). -/
theorem Inv.len_eq (h : Inv s) (hf : s.eng.state ≠ .idle) :
    s.eng.len.toNat = frameBits s ∧ 1 ≤ frameBits s := by
  obtain ⟨-, hn, hv⟩ := h.engine.frame hf
  have : s.n.toNat ≠ 0 := fun h0 => hn (eq_zero_iff_toNat.2 h0)
  unfold State.validBytes at hv
  unfold frameBits
  omega

/-- In Transmitting the last bit's CC2 is still to come (R94). -/
theorem Inv.tickNumber_lt (h : Inv s) (hs : s.eng.state = .transmitting) : tickNumber s < lastBitTick s := by
  have hf : s.eng.state ≠ .idle := by rw [hs]; simp
  have hleft := h.frame.left hs
  have hcount := h.frame.count hf
  obtain ⟨hlen, -⟩ := h.len_eq hf
  unfold lastBitTick
  rw [← hlen]
  by_cases hc : s.tim.cnt.toNat < s.cfg.c2Ticks
  · rw [tickNumber_transmitting_lt hs hc]
    have := Nat.mul_le_mul_right s.cfg.periodTicks
      (show s.eng.len.toNat - s.dma.l.cnt.toNat ≤ s.eng.len.toNat - 1 by omega)
    omega
  · rw [tickNumber_transmitting_ge hs (by omega)]
    have := Nat.mul_le_mul_right s.cfg.periodTicks
      (show s.eng.len.toNat - s.dma.l.cnt.toNat ≤ s.eng.len.toNat - 1 by omega)
    omega

/-- IRQ_DMA runs in the TICK that R94 numbers `1 + (LEN - 1) * P + C2_TICKS`. -/
theorem tick_enters_deadTime (h : Inv s) (hs : s.eng.state = .transmitting) (ht : tick s = .ok t)
    (hd : t.eng.state = .deadTime) : tickNumber t = lastBitTick t := by
  have hleft := h.frame.left hs
  obtain ⟨hlen, -⟩ := h.len_eq (by rw [hs]; simp)
  rcases tick_transmitting h hs with
    ⟨-, -, hr⟩ | ⟨-, -, hr⟩ | ⟨-, -, -, hr⟩ | ⟨-, hn, -, hr⟩ | ⟨-, -, -, -, hr⟩ <;>
    (rw [hr] at ht; cases ht)
  · exact absurd (hs.symm.trans hd) (by simp)
  · exact absurd (hs.symm.trans hd) (by simp)
  · exact absurd (hs.symm.trans hd) (by simp)
  · have hovf := h.engine.ovf (by rw [hs]; simp)
    rw [tickNumber_deadTime hd]
    show 1 + (s.eng.len.toNat - 1 + s.eng.ovf.toNat) * s.cfg.periodTicks + (nextCount s.tim).toNat =
      1 + (frameBits s - 1) * s.cfg.periodTicks + s.cfg.c2Ticks
    rw [hovf, hn, hlen]
    rfl
  · exact absurd (hs.symm.trans hd) (by simp)

theorem TickFrame.schedule_numbers (hfr : TickFrame s t) :
    lastBitTick t = lastBitTick s ∧ idleTick t = idleTick s ∧ frameBits t = frameBits s := by
  unfold lastBitTick idleTick frameBits
  rw [hfr.n, hfr.cfg]
  exact ⟨rfl, rfl, rfl⟩

/-- The TICK that ends the dead time leaves what R104 lists. -/
structure AtRest (t : State) : Prop where
  state : t.eng.state = .idle
  tc : t.eng.tc = true
  run : t.tim.run = false
  uie : t.tim.uie = false
  ovf : t.eng.ovf = 0
  cnt : t.tim.cnt = 0
  out : t.gpio.out = false
  ptr : t.eng.ptr = 0
  len : t.eng.len.toNat = frameBits t
  counts : t.dma.h.cnt = 0 ∧ t.dma.d.cnt = 0 ∧ t.dma.l.cnt = 0
  flags : t.dma.h.tcf = true ∧ t.dma.d.tcf = true ∧ t.dma.l.tcf = true
  src : t.dma.src = t.eng.len

theorem tick_ends_deadTime (h : Inv s) (hs : s.eng.state = .deadTime) (ht : tick s = .ok t)
    (hi : t.eng.state = .idle) : AtRest t := by
  have hf : s.eng.state ≠ .idle := by rw [hs]; simp
  have hnt : s.eng.state ≠ .transmitting := by rw [hs]; simp
  have hdone := h.frame.done hnt
  have hflags := h.frame.flags hf
  have hsrc := h.frame.src hf
  rcases tick_deadTime h hs with ⟨-, -, hr⟩ | ⟨-, -, hr⟩
  · rcases irqOvf_cases (advance s) with ⟨-, hi'⟩ | ⟨-, hi'⟩ <;> (rw [hr, hi'] at ht; cases ht)
    · exact absurd (hs.symm.trans hi) (by simp)
    · refine ⟨rfl, rfl, rfl, rfl, rfl, rfl, h.engine.low hnt, h.engine.ptr, (h.len_eq hf).1, hdone,
        ⟨hflags.1.2 hdone.1, hflags.2.1.2 hdone.2.1, hflags.2.2.2 hdone.2.2⟩, ?_⟩
      refine BitVec.eq_of_toNat_eq ?_
      show s.dma.src.toNat = s.eng.len.toNat
      rw [← hsrc, hdone.2.1]
      rfl
  · cases hr.symm.trans ht
    exact absurd (hs.symm.trans hi) (by simp)

theorem lastBitTick_lt_idleTick (h : 1 ≤ frameBits s) : lastBitTick s < idleTick s := by
  have h2 := s.cfg.c2Ticks_lt
  have hd := s.cfg.deadOverflows_pos
  unfold lastBitTick idleTick
  have := Nat.mul_le_mul_right s.cfg.periodTicks
    (show frameBits s - 1 + 1 ≤ frameBits s + s.cfg.deadOverflows - 1 by omega)
  rw [Nat.add_mul] at this
  omega

/-- Where the engine is `k` TICKs after the effective SHOW that left `u`: on the schedule of R94. -/
structure OnSchedule (u : State) (k : Nat) (s : State) : Prop where
  inv : Inv s
  frame : TickFrame { u with schedule := s.schedule, rsp := s.rsp } s
  transmitting : k < lastBitTick u → s.eng.state = .transmitting ∧ tickNumber s = k
  deadTime : lastBitTick u ≤ k → k < idleTick u → s.eng.state = .deadTime ∧ tickNumber s = k
  idle : idleTick u ≤ k → AtRest s

theorem clockEdge_running (hrun : s.tim.run = true) (ht : tick s = .ok t) : clockEdge s = .next t := by
  rw [clockEdge, if_pos hrun, ht]
  rfl

theorem clockEdge_stopped (hrun : s.tim.run = false) : clockEdge s = .next s := by
  rw [clockEdge, if_neg (by simp [hrun])]

/-- What the response port and the events to come hold has no part in it. -/
theorem OnSchedule.port {u : State} {k : Nat} (h : OnSchedule u k s) (events : List Event) (r : Option Colour) :
    OnSchedule u k { s with schedule := events, rsp := r } where
  inv := h.inv.congr rfl rfl rfl rfl rfl rfl rfl rfl rfl
  frame := ⟨h.frame.cfg, h.frame.n, h.frame.order, h.frame.brt, h.frame.buf, h.frame.begun, h.frame.fault, rfl,
    rfl, h.frame.arr, h.frame.ccr1, h.frame.ccr2, h.frame.ptr, h.frame.len, h.frame.mode⟩
  transmitting := h.transmitting
  deadTime := h.deadTime
  idle := fun hk => ⟨(h.idle hk).1, (h.idle hk).2, (h.idle hk).3, (h.idle hk).4, (h.idle hk).5, (h.idle hk).6,
    (h.idle hk).7, (h.idle hk).8, (h.idle hk).9, (h.idle hk).10, (h.idle hk).11, (h.idle hk).12⟩

/-- One clock edge along the schedule of R94. -/
theorem OnSchedule.edge {u : State} (hn : 1 ≤ frameBits u) {k : Nat}
    (h : OnSchedule u k s) : ∃ t, Machine.clockEdge s = .next t ∧ TickFrame s t ∧ OnSchedule u (k + 1) t := by
  have hlt := lastBitTick_lt_idleTick hn
  by_cases hk : idleTick u ≤ k
  · have hrest := h.idle hk
    exact ⟨s, clockEdge_stopped hrest.run, TickFrame.refl s, h.inv, h.frame, fun hk' => by omega,
      fun _ hk' => by omega, fun _ => hrest⟩
  · have hf : s.eng.state ≠ .idle := by
      by_cases hk' : k < lastBitTick u
      · rw [(h.transmitting hk').1]
        simp
      · rw [(h.deadTime (by omega) (by omega)).1]
        simp
    obtain ⟨t, ht, hinv⟩ := tick_keeps_inv h.inv hf
    have hfr := TickFrame.tick ht
    have hfu : TickFrame { u with schedule := t.schedule, rsp := t.rsp } t := by
      rw [hfr.schedule, hfr.rsp]
      exact h.frame.trans hfr
    obtain ⟨hlast, hidle, hbits⟩ : lastBitTick t = lastBitTick u ∧ idleTick t = idleTick u ∧
      frameBits t = frameBits u := hfu.schedule_numbers
    refine ⟨t, clockEdge_running (h.inv.engine.run.2 hf) ht, hfr, hinv, hfu, ?_, ?_, ?_⟩
    · intro hk'
      obtain ⟨hs, hnum⟩ := h.transmitting (by omega)
      obtain ⟨htf, htn⟩ := tick_advances_transmitting h.inv hs ht
      refine ⟨?_, by omega⟩
      cases hts : t.eng.state with
      | idle => exact absurd hts htf
      | transmitting => rfl
      | deadTime =>
        have := tick_enters_deadTime h.inv hs ht hts
        omega
    · intro hk1 hk2
      by_cases hk' : k < lastBitTick u
      · obtain ⟨hs, hnum⟩ := h.transmitting hk'
        obtain ⟨htf, htn⟩ := tick_advances_transmitting h.inv hs ht
        refine ⟨?_, by omega⟩
        cases hts : t.eng.state with
        | idle => exact absurd hts htf
        | transmitting =>
          have := hinv.tickNumber_lt hts
          omega
        | deadTime => rfl
      · obtain ⟨hs, hnum⟩ := h.deadTime (by omega) (by omega)
        rcases tick_advances_deadTime h.inv hs ht with ⟨hts, htn⟩ | ⟨-, hend⟩
        · exact ⟨hts, by omega⟩
        · have hlen := (h.inv.len_eq hf).1
          have hbits' : frameBits s = frameBits u := h.frame.schedule_numbers.2.2
          have hcfg : s.cfg = u.cfg := h.frame.cfg
          rw [hlen, hbits', hcfg] at hend
          unfold idleTick at hk2
          omega
    · intro hk1
      obtain ⟨hs, hnum⟩ := h.deadTime (by omega) (by omega)
      rcases tick_advances_deadTime h.inv hs ht with ⟨hts, htn⟩ | ⟨hti, -⟩
      · exfalso
        have hf' : t.eng.state ≠ .idle := by rw [hts]; simp
        have hovf := hinv.engine.ovfLt
        have hcnt := hinv.frame.count hf'
        have hlen := (hinv.len_eq hf').1
        have hnum' := tickNumber_deadTime hts
        have hmul := Nat.mul_le_mul_right t.cfg.periodTicks
          (show t.eng.len.toNat - 1 + t.eng.ovf.toNat + 1 ≤ frameBits t + t.cfg.deadOverflows - 1 by omega)
        rw [Nat.add_mul] at hmul
        unfold idleTick at hidle hk1
        omega
      · exact tick_ends_deadTime h.inv hs ht hti

/-- One step along the schedule of R94: a clock edge moves on by one, a reading command stays. -/
theorem OnSchedule.step {u : State} (hf : u.fault = 0) (hn : 1 ≤ frameBits u) {k : Nat} (h : OnSchedule u k s)
    (hr : readsOnly s.nextEvent) : ∃ t, Machine.step s = .next t ∧ t.schedule = s.schedule.tail ∧
      OnSchedule u (k + if s.nextEvent = .clk then 1 else 0) t := by
  have hfs : s.fault = 0 := h.frame.fault.trans hf
  cases he : s.nextEvent with
  | rst =>
    rw [he] at hr
    cases hr
  | clk =>
    obtain ⟨t, ht, hfr, hon⟩ := (h.port s.schedule.tail none).edge hn
    exact ⟨t, (step_clk hfs he).trans ht, hfr.schedule, hon⟩
  | cmd w =>
    rw [he] at hr
    obtain ⟨v, hv⟩ := step_reads h.inv hfs he hr
    exact ⟨_, hv, rfl, h.port _ _⟩

/-- The whole run from a place on the schedule, as long as the host only waits and reads. -/
theorem OnSchedule.run {u : State} (hf : u.fault = 0) (hn : 1 ≤ frameBits u) {k : Nat} (h : OnSchedule u k s)
    (hr : ∀ e ∈ s.schedule, readsOnly e) (m : Nat) : ∃ t, runSteps m s = .next t ∧
      t.schedule = s.schedule.drop m ∧ OnSchedule u (k + clockEdges s.schedule m) t := by
  induction m with
  | zero => exact ⟨s, runSteps_zero s, rfl, by simpa [clockEdges] using h⟩
  | succ m ih =>
    obtain ⟨t, ht, hsch, hon⟩ := ih
    have hnext : t.nextEvent = s.schedule[m]?.getD .clk := by
      unfold State.nextEvent
      rw [hsch]
      cases hd : s.schedule.drop m with
      | nil => rw [List.getElem?_eq_none (List.drop_eq_nil_iff.1 hd)]; rfl
      | cons e es =>
        have : (s.schedule.drop m)[0]? = some e := by rw [hd]; rfl
        rw [List.getElem?_drop, Nat.add_zero] at this
        rw [this]
        rfl
    have hre : readsOnly t.nextEvent := by
      rw [hnext]
      cases hg : s.schedule[m]? with
      | none => trivial
      | some e => exact hr e (List.mem_of_getElem? hg)
    obtain ⟨v, hv, hsv, hon'⟩ := hon.step hf hn hre
    refine ⟨v, by rw [runSteps_add ht, runSteps_succ_of_step hv, runSteps_zero], ?_, ?_⟩
    · rw [hsv, hsch, List.tail_drop]
    · rw [clockEdges_succ, ← Nat.add_assoc]
      convert hon' using 3
      rw [hnext]
      cases s.schedule[m]? <;> simp

/-- SHOW leaves the engine at the start of the schedule (R80, R94). -/
theorem onSchedule_start {u : State} (hu : Inv u) (hs : u.eng.state = .transmitting)
    (hl : u.dma.l.cnt = u.eng.len) (hc : u.tim.cnt.toNat + 1 = u.cfg.periodTicks) : OnSchedule u 0 u := by
  have h2 := u.cfg.c2Ticks_lt
  have hlt := lastBitTick_lt_idleTick (hu.len_eq (by rw [hs]; simp)).2
  have hpos : 0 < lastBitTick u := by
    unfold lastBitTick
    omega
  refine ⟨hu, TickFrame.refl _, fun _ => ⟨hs, ?_⟩, fun hk _ => by omega, fun hk => by omega⟩
  rw [tickNumber_transmitting_ge hs (by omega), hl]
  simp
  omega

/-! ### Where in a bit period (R28, R93, R94) -/

theorem period_unique {p a b c d : Nat} (h : a * p + b = c * p + d) (hb : b < p) (hd : d < p) :
    a = c ∧ b = d := by
  have hm : (p * a + b) % p = (p * c + d) % p := by rw [Nat.mul_comm p a, Nat.mul_comm p c, h]
  rw [Nat.mul_add_mod, Nat.mul_add_mod, Nat.mod_eq_of_lt hb, Nat.mod_eq_of_lt hd] at hm
  refine ⟨?_, hm⟩
  subst hm
  exact Nat.eq_of_mul_eq_mul_right (show 0 < p by omega) (by omega)

/-- In Transmitting the place in the schedule gives the counter and the transfers left of stream `L`. -/
theorem Inv.place (h : Inv s) (hs : s.eng.state = .transmitting) {k j : Nat}
    (hnum : tickNumber s = 1 + k * s.cfg.periodTicks + j) (hj : j < s.cfg.periodTicks) :
    s.tim.cnt.toNat = j ∧ (j < s.cfg.c2Ticks → s.dma.l.cnt.toNat + k = s.eng.len.toNat) ∧
    (s.cfg.c2Ticks ≤ j → s.dma.l.cnt.toNat + k + 1 = s.eng.len.toNat) := by
  have hf : s.eng.state ≠ .idle := by rw [hs]; simp
  have hleft := h.frame.left hs
  have hcount := h.frame.count hf
  by_cases hc : s.tim.cnt.toNat < s.cfg.c2Ticks
  · rw [tickNumber_transmitting_lt hs hc] at hnum
    obtain ⟨h1, h2⟩ := period_unique (p := s.cfg.periodTicks)
      (a := s.eng.len.toNat - s.dma.l.cnt.toNat) (b := s.tim.cnt.toNat) (c := k) (d := j) (by omega) hcount hj
    exact ⟨h2, fun _ => by omega, fun _ => by omega⟩
  · rw [tickNumber_transmitting_ge hs (by omega)] at hnum
    have hne : s.dma.l.cnt.toNat ≠ s.eng.len.toNat := fun he => by
      have hfr := h.frame.fresh hs (by omega) he
      rw [he, Nat.sub_self, Nat.zero_mul] at hnum
      omega
    have hmul : (s.eng.len.toNat - s.dma.l.cnt.toNat) * s.cfg.periodTicks =
        (s.eng.len.toNat - s.dma.l.cnt.toNat - 1) * s.cfg.periodTicks + s.cfg.periodTicks := by
      rw [← Nat.succ_mul]
      congr 1
      omega
    obtain ⟨h1, h2⟩ := period_unique (p := s.cfg.periodTicks)
      (a := s.eng.len.toNat - s.dma.l.cnt.toNat - 1) (b := s.tim.cnt.toNat) (c := k) (d := j)
      (by omega) hcount hj
    exact ⟨h2, fun _ => by omega, fun _ => by omega⟩

/-- In flight the pin shows the latch (R26, R95 (g), (j)). -/
theorem Inv.dout_inFlight (h : Inv s) (hf : s.eng.state ≠ .idle) : s.dout = some s.gpio.out := by
  unfold State.dout
  rw [h.engine.mode, (h.engine.frame hf).1, if_pos rfl]

/-- The level of the line in bit period `k`, `j` TICKs after its UPDATE (R93). -/
theorem OnSchedule.level {u : State} {k j : Nat}
    (h : OnSchedule u (1 + k * u.cfg.periodTicks + j) s) (hk : k < frameBits u)
    (hj : j < u.cfg.periodTicks) : s.dout =
      some (if j < u.cfg.c1Ticks then true
        else if j < u.cfg.c2Ticks then decide (u.buf.read k = 0x01) else false) := by
  have hcfg : s.cfg = u.cfg := h.frame.cfg
  have hbuf : s.buf = u.buf := h.frame.buf
  have hlast : lastBitTick u = 1 + (frameBits u - 1) * u.cfg.periodTicks + u.cfg.c2Ticks := rfl
  have hidle : idleTick u = 1 + (frameBits u + u.cfg.deadOverflows - 1) * u.cfg.periodTicks := rfl
  have h1 := u.cfg.c1Ticks_lt
  have h2 := u.cfg.c2Ticks_lt
  have hd := u.cfg.deadOverflows_pos
  by_cases ht : 1 + k * u.cfg.periodTicks + j < lastBitTick u
  · obtain ⟨hs, hnum⟩ := h.transmitting ht
    have hf : s.eng.state ≠ .idle := by rw [hs]; simp
    rw [← hcfg] at hnum hj h1 h2 ⊢
    obtain ⟨hcnt, hlow, hhigh⟩ := h.inv.place hs hnum hj
    rw [h.inv.dout_inFlight hf]
    congr 1
    split_ifs with hj1 hj2
    · exact (h.inv.frame.early hs (by omega)).2.2
    · rw [(h.inv.frame.middle hs (by omega) (by omega)).2.2, hbuf]
      have := hlow hj2
      rw [show s.eng.len.toNat - s.dma.l.cnt.toNat = k by omega]
    · exact (h.inv.frame.late hs (by omega)).2.2
  · have hmul : k * u.cfg.periodTicks ≤ (frameBits u - 1) * u.cfg.periodTicks :=
      Nat.mul_le_mul_right _ (by omega)
    have hmul2 : (frameBits u - 1) * u.cfg.periodTicks + u.cfg.periodTicks ≤
        (frameBits u + u.cfg.deadOverflows - 1) * u.cfg.periodTicks := by
      rw [← Nat.succ_mul]
      exact Nat.mul_le_mul_right _ (by omega)
    obtain ⟨hs, -⟩ := h.deadTime (by omega) (by omega)
    have hf : s.eng.state ≠ .idle := by rw [hs]; simp
    have hke : k = frameBits u - 1 := by
      by_contra hne
      have := Nat.mul_le_mul_right u.cfg.periodTicks (show k + 1 ≤ frameBits u - 1 by omega)
      rw [Nat.add_mul] at this
      omega
    subst hke
    rw [h.inv.dout_inFlight hf, h.inv.engine.low (by rw [hs]; simp), if_neg (by omega), if_neg (by omega)]

end Sys2Proof.Machine
end

