-- ==== Sys2Proof/Tests/Slice0.lean ====
section
/-! SUPPORT. Tests, each about one step or less, with the expected values taken from the vectors V<n> of
spec/95_test_vectors.md, and for every statement with hypotheses a state and operands that meet them. -/

namespace Sys2Proof.Tests

-- one theorem at a time: many kernel evaluations at once take a thread, and its stack, each
set_option Elab.async false

open Sys2Proof.Machine

/-! ### Helpers -/

/-- The next state of an answer, or the state it came from. -/
def nextOr (r : Result) (s : State) : State :=
  match r with
  | .next t => t
  | .fault _ => s
  | .refused _ => s

/-- What an answer's next state must meet. -/
def nextIs (r : Result) (p : State → Bool) : Bool :=
  match r with
  | .next t => p t
  | .fault _ => false
  | .refused _ => false

def isFault (r : Result) (f : Fault) : Bool :=
  match r with
  | .next _ => false
  | .fault g => g == f
  | .refused _ => false

/-- The state a command leaves. -/
def ran (i : Instr) (s : State) : State := nextOr (exec i s) s

/-- The state a few clock edges leave. -/
def ticked : Nat → State → State
  | 0, s => s
  | k + 1, s => ticked k (nextOr (clockEdge s) s)

/-- The bytes of the buffer from `base` on. -/
def bytes (s : State) (base len : Nat) : List Byte := (List.range len).map fun i => s.buf.read (base + i)

theorem next_of_nextIs {r : Result} {p : State → Bool} (h : nextIs r p = true) : ∃ t, r = .next t ∧ p t = true := by
  cases r with
  | next t => exact ⟨t, rfl, h⟩
  | fault f => cases h
  | refused f => cases h

theorem inv_ran {s : State} (h : Inv s) (i : Instr) : Inv (ran i s) := by
  obtain ⟨t, ht, hinv⟩ := exec_keeps_inv h i
  rw [ran, ht]
  exact hinv

theorem inv_ticked {s : State} (h : Inv s) (k : Nat) : Inv (ticked k s) := by
  induction k generalizing s with
  | zero => exact h
  | succ k ih =>
    obtain ⟨t, ht, hinv⟩ := clockEdge_keeps_inv h
    rw [ticked, ht]
    exact ih hinv

/-! ### Small states, with the small parameters of G3 -/

/-- Reset. -/
def blank : State := State.resetWith Config.small

/-- `STRIP 1, GRB`. -/
def one : State := ran (.strip 1 0x00) blank

/-- `STRIP 4, GRB`: as many pixels as fit. -/
def full : State := ran (.strip 4 0x00) blank

/-- `STRIP 1, GRB`; `BEGIN`; `SETRGB 0, 128, 0, 0`: the start of V60 and V71, without SHOW. -/
def ready : State := ran (.setrgb 0 128 0 0) (ran .begin_ one)

/-- V60 row 0: the state after SHOW. -/
def sent : State := ran .show_ ready

/-- V60 row 237: the state IRQ_DMA leaves. -/
def dead : State :=
  { sent with
    eng := { state := .deadTime, tc := false, ovf := 0, ptr := 0, len := 24 }
    tim := { sent.tim with cnt := 6, ude := false, cc1de := false, cc2de := false, uie := true, run := true }
    dma := {
      h := { en := false, cnt := 0, tcf := true }
      d := { en := false, cnt := 0, tcf := true }
      l := { en := false, cnt := 0, tcf := true }
      src := 24 } }

theorem inv_blank : Inv blank :=
  ⟨⟨by decide, by decide, by decide, by decide, by decide⟩, by constructor <;> decide, by constructor <;> decide⟩

theorem inv_one : Inv one := inv_ran inv_blank _
theorem inv_ready : Inv ready := inv_ran (inv_ran inv_one _) _
theorem inv_sent : Inv sent := inv_ran inv_ready _

theorem inv_dead : Inv dead :=
  ⟨inv_sent.buffer.congr rfl rfl rfl rfl, by constructor <;> decide +kernel, by constructor <;> decide +kernel⟩

/-- `full` brought up, its last pixel written. -/
def fullReady : State := ran (.setrgb 3 255 255 255) (ran .begin_ full)

/-- `ready` with the host about to present SHOW and nothing after it. -/
def readyToShow : State := { ready with schedule := [.cmd 0x050000000000] }

/-- The smallest periods that R7 allows: 3 ticks, compares at 1 and 2, one dead overflow. -/
def tiny : Config where
  maxPixels := 1
  periodTicks := 3
  c1Ticks := 1
  c2Ticks := 2
  deadOverflows := 1
  maxPixels_pos := by decide
  maxPixels_le := by decide
  periodTicks_ge := by decide
  periodTicks_le := by decide
  c1Ticks_pos := by decide
  c1Ticks_lt := by decide
  c2Ticks_lt := by decide
  deadOverflows_pos := by decide
  deadOverflows_le := by decide

/-- The state IRQ_DMA leaves under `tiny`: a clock edge ends the dead time, and the host sends again. -/
def deadTiny : State :=
  { dead with
    cfg := tiny
    buf := []
    tim := { dead.tim with cnt := 2, arr := 2, ccr1 := 1, ccr2 := 2 }
    schedule := [.clk, .cmd 0x050000000000] }

theorem inv_full : Inv full := inv_ran inv_blank _
theorem inv_fullReady : Inv fullReady := inv_ran (inv_ran inv_full _) _

theorem inv_rescheduled {s : State} (h : Inv s) (events : List Event) : Inv { s with schedule := events } :=
  ⟨h.buffer.congr rfl rfl rfl rfl, ⟨h.engine.1, h.engine.2, h.engine.3, h.engine.4, h.engine.5, h.engine.6,
    h.engine.7, h.engine.8, h.engine.9, h.engine.10, h.engine.11, h.engine.12⟩,
    ⟨h.frame.1, h.frame.2, h.frame.3, h.frame.4, h.frame.5, h.frame.6, h.frame.7, h.frame.8, h.frame.9⟩⟩

theorem inv_readyToShow : Inv readyToShow := inv_rescheduled inv_ready _

theorem inv_deadTiny : Inv deadTiny :=
  ⟨⟨by decide, by decide, by decide, by decide +kernel, by decide +kernel⟩,
    by constructor <;> decide +kernel, by constructor <;> decide +kernel⟩

/-- One tick before the CC2 of the last bit: V60 row 236. -/
def lastBit : State :=
  { sent with
    buf := []
    tim := { sent.tim with cnt := 5 }
    dma := {
      h := { en := true, cnt := 0, tcf := true }
      d := { en := true, cnt := 0, tcf := true }
      l := { en := true, cnt := 1, tcf := false }
      src := 24 } }

theorem inv_lastBit : Inv lastBit :=
  ⟨⟨by decide, by decide, by decide, by decide +kernel, by decide +kernel⟩,
    by constructor <;> decide +kernel, by constructor <;> decide +kernel⟩

/-! ### WellFormed: a term that each check refuses (R48, R49) -/

theorem test_wf_strip_speed_class : Instr.wf (.strip 3 0x04) = false := by decide
theorem test_wf_strip_reserved_flag : Instr.wf (.strip 3 0x08) = false := by decide
theorem test_wf_utype_speed_class : Instr.wf (.utype 0x04) = false := by decide
theorem test_wf_utype_reserved_flag : Instr.wf (.utype 0x80) = false := by decide
theorem test_wf_accepts_the_four_orders :
    (List.range 4).all (fun k => Instr.wf (.strip 3 (BitVec.ofNat 8 k)) && Instr.wf (.utype (BitVec.ofNat 8 k))) =
      true := by decide

/-! ### Decoding: words written out from format C (V10, V11), and reserved words (V12) -/

theorem test_decode_strip : decode 0x010400000003 = .ok (.strip 1024 0x03) := by decide
theorem test_decode_ulen : decode 0x020014000000 = .ok (.ulen 20) := by decide
theorem test_decode_utype : decode 0x030000000002 = .ok (.utype 0x02) := by decide
theorem test_decode_begin : decode 0x040000000000 = .ok .begin_ := by decide
theorem test_decode_show : decode 0x050000000000 = .ok .show_ := by decide
theorem test_decode_poll : decode 0x060000000000 = .ok .poll := by decide
theorem test_decode_numpix : decode 0x070000000000 = .ok .numpix := by decide
theorem test_decode_setrgb : decode 0x100002A5F001 = .ok (.setrgb 2 0xA5 0xF0 0x01) := by decide
theorem test_decode_setpk : decode 0x11ABCD123456 = .ok (.setpk 0xABCD 0x123456) := by decide
theorem test_decode_getpix : decode 0x12FFFF000000 = .ok (.getpix 65535) := by decide
theorem test_decode_clear : decode 0x130000000000 = .ok .clear := by decide
theorem test_decode_setbrt : decode 0x1400000000FF = .ok (.setbrt 255) := by decide

theorem test_decode_reserved_words :
    [0x000000000000, 0xFFFFFFFFFFFF, 0x080000000000, 0x0F0000000000, 0x150000000000, 0x010003000004,
     0x010003000100, 0x020001000001, 0x030001000000, 0x030000000004, 0x040001000000, 0x050001000000,
     0x060000000001, 0x070001000000, 0x120000000001, 0x130000000001, 0x140000000100, 0x140001000000].all
      (fun w => decodeTableWord 48 w == none) = true := by decide

theorem test_fetch_word_runs_first :
    nextIs (step (State.reset.withFetchWord 48 0x060000000000)) (fun t => t.rsp == some 0x000001) = true ∧
    nextIs (step (State.reset.withFetchWord 48 0x010003000001)) (fun t => t.n == 3 && t.order == .rgb) = true ∧
    nextIs (step (State.reset.withFetchWord 48 0x000000000000)) (fun t => t.fault == 0x01) = true := by decide

/-! ### The commands (V20 to V54), and their faults (V70 to V73) -/

theorem test_strip : nextIs (exec (.strip 3 0x01) State.reset) (fun t => t.n == 3 && t.order == .rgb &&
    t.brt == 0) = true := by decide
theorem test_strip_after_begin : nextIs (exec (.strip 1 0x00) ready) (fun t => t.fault == 0x04 && t.n == 1 &&
    t.buf == ready.buf) = true := by decide +kernel
theorem test_ulen_too_long : nextIs (exec (.ulen 1025) State.reset) (fun t => t.n == 0 && t.fault == 0) = true := by
  decide
theorem test_ulen_longest : nextIs (exec (.ulen 1024) State.reset) (fun t => t.n == 1024) = true := by decide
theorem test_utype : nextIs (exec (.utype 0x01) State.reset) (fun t => t.order == .rgb) = true := by decide
theorem test_utype_after_begin : nextIs (exec (.utype 0x01) ready) (fun t => t.fault == 0x04 &&
    t.order == .grb) = true := by decide +kernel
theorem test_begin : nextIs (exec .begin_ State.reset) (fun t => t.begun && t.gpio.mode && !t.gpio.out &&
    t.tim.arr == 89 && t.tim.ccr1 == 29 && t.tim.ccr2 == 58 && t.eng.tc && !t.tim.run) = true := by decide
theorem test_begin_twice : nextIs (exec .begin_ ready) (fun t => t.fault == 0x03) = true := by decide +kernel
theorem test_show : nextIs (exec .show_ ready) (fun t => t.eng.state == .transmitting && !t.eng.tc &&
    t.eng.len == 24 && t.dma.h.cnt == 24 && t.dma.d.cnt == 24 && t.dma.l.cnt == 24 && t.tim.cnt == 9 &&
    t.tim.run && !t.gpio.out) = true := by decide +kernel
theorem test_show_busy : nextIs (exec .show_ sent) (fun t => t.fault == 0x05) = true := by decide +kernel
theorem test_poll_idle : nextIs (exec .poll State.reset) (fun t => t.rsp == some 0x000001) = true := by decide
theorem test_poll_busy : nextIs (exec .poll sent) (fun t => t.rsp == some 0x000000) = true := by decide +kernel
theorem test_numpix : nextIs (exec .numpix full) (fun t => t.rsp == some 0x000004) = true := by decide +kernel
theorem test_setrgb_slot : nextIs (exec (.setrgb 1 0xA5 0xF0 0x01) full) (fun t =>
    bytes t 24 24 == [1, 1, 1, 1, 0, 0, 0, 0, 1, 0, 1, 0, 0, 1, 0, 1, 0, 0, 0, 0, 0, 0, 0, 1] &&
    bytes t 0 24 == bytes full 0 24 && bytes t 48 48 == bytes full 48 48) = true := by decide +kernel
theorem test_setrgb_scaled : nextIs (exec (.setrgb 0 255 100 7) { one with brt := 129 }) (fun t =>
    collapse8 t.buf 0 == 50 && collapse8 t.buf 8 == 128 && collapse8 t.buf 16 == 3) = true := by decide +kernel
theorem test_setpk : nextIs (exec (.setpk 1 0xA5F001) full) (fun t =>
    collapse8 t.buf 24 == 0xF0 && collapse8 t.buf 32 == 0xA5 && collapse8 t.buf 40 == 0x01) = true := by
  decide +kernel
theorem test_setpk_in_flight : nextIs (exec (.setpk 0 0) sent) (fun t => t.fault == 0x06) = true := by
  decide +kernel
theorem test_getpix_under_each_order :
    [Order.grb, .rgb, .brg, .rbg].map (fun o =>
      (ran (.getpix 0) { ran (.setrgb 0 1 2 3) one with order := o }).rsp) =
    [some 0x010203, some 0x020103, some 0x010302, some 0x020301] := by decide +kernel
theorem test_getpix_scaled : nextIs (exec (.getpix 0) (ran (.setrgb 0 255 100 7) { one with brt := 129 }))
    (fun t => t.rsp == some 0xFE6305) = true := by decide +kernel
theorem test_clear : nextIs (exec .clear ready) (fun t => bytes t 0 24 == List.replicate 24 0 && t.n == 1) = true := by
  decide +kernel
theorem test_clear_in_flight : nextIs (exec .clear sent) (fun t => t.fault == 0x06) = true := by decide +kernel
theorem test_setbrt : nextIs (exec (.setbrt 128) (ran (.setrgb 0 255 100 7) one)) (fun t => t.brt == 129 &&
    collapse8 t.buf 0 == 50 && collapse8 t.buf 8 == 128 && collapse8 t.buf 16 == 3) = true := by decide +kernel
theorem test_setbrt_brighter : nextIs (exec (.setbrt 255) (ran (.setbrt 128) (ran (.setrgb 0 255 100 7) one)))
    (fun t => t.brt == 0 && collapse8 t.buf 0 == 99 && collapse8 t.buf 8 == 254 &&
      collapse8 t.buf 16 == 5) = true := by decide +kernel

/-! ### The engine: rows of V60, V72, V81 -/

theorem test_tick_1_raises_the_line : nextIs (clockEdge sent) (fun t => t.tim.cnt == 0 && t.gpio.out &&
    t.dma.h.cnt == 23 && t.dma.d.cnt == 24 && t.dma.l.cnt == 24) = true := by decide +kernel
theorem test_tick_4_reads_a_zero : nextIs (clockEdge (ticked 3 sent)) (fun t => t.tim.cnt == 3 && !t.gpio.out &&
    t.dma.h.cnt == 23 && t.dma.d.cnt == 23 && t.dma.l.cnt == 24 && t.dma.src == 1) = true := by decide +kernel
theorem test_tick_7_forces_low : nextIs (clockEdge (ticked 6 sent)) (fun t => t.tim.cnt == 6 && !t.gpio.out &&
    t.dma.l.cnt == 23 && t.eng.state == .transmitting) = true := by decide +kernel
theorem test_overflow_counts : nextIs (clockEdge { dead with tim := { dead.tim with cnt := 9 } }) (fun t =>
    t.tim.cnt == 0 && t.eng.ovf == 1 && t.eng.state == .deadTime && !t.gpio.out) = true := by decide +kernel
theorem test_last_overflow_ends_the_dead_time :
    nextIs (clockEdge { dead with tim := { dead.tim with cnt := 9 }, eng := { dead.eng with ovf := 1 } }) (fun t =>
      t.eng.state == .idle && t.eng.tc && t.eng.ovf == 0 && !t.tim.run && t.tim.cnt == 0 && !t.tim.uie) = true := by
  decide +kernel
theorem test_non_binary_byte_discards_the_tick :
    nextIs (clockEdge { ticked 3 sent with buf := (ticked 3 sent).buf.write 0 0x02 }) (fun t =>
      t.fault == 0x07 && t.tim.cnt == 2 && t.gpio.out && t.dma.d.cnt == 24 && t.dma.src == 0) = true := by
  decide +kernel
theorem test_reset_edge_in_mid_frame : nextIs (step { sent with schedule := [.rst] }) (fun t =>
    t.eng.state == .idle && t.eng.tc && !t.tim.run && !t.begun && t.n == 0 && !t.gpio.mode) = true := by
  decide +kernel
theorem test_step_after_a_fault_stops :
    isFault (step { sent with fault := 0x05 }) (.stopped 0x05) = true := by decide +kernel

/-- The order of the counts as R95 (f) prints it is false of V60's own first row (log 12). -/
theorem test_r95f_as_printed_fails_in_v60 : nextIs (clockEdge sent) (fun t =>
    t.eng.state == .transmitting && !(t.dma.l.cnt ≤ t.dma.d.cnt && t.dma.d.cnt ≤ t.dma.h.cnt)) = true := by
  decide +kernel

/-! ### For every statement with hypotheses, states and operands that meet them, clause by clause

`test_hyp_<Statement>`: each conjunct is one clause's hypotheses together, at a boundary of its range. -/

theorem test_hyp_DecodeFollowsTheOpcodeTable :
    (0x010000000000, 0xFF0000FFFFFC) ∈ specTable ∧
    (0x01FFFF000003 : CmdWord) &&& 0xFF0000FFFFFC = 0x010000000000 ∧
    decode 0x01FFFF000003 = .ok (.strip 0xFFFF 0x03) := by decide

theorem test_hyp_DecodeOfEncode :
    [Instr.strip 0xFFFF 0x03, .ulen 0xFFFF, .utype 0x03, .begin_, .show_, .poll, .numpix,
     .setrgb 0xFFFF 255 255 255, .setpk 0xFFFF 0xFFFFFF, .getpix 0xFFFF, .clear, .setbrt 255].all
      (fun i => i.wf) = true := by decide

theorem test_hyp_EncodeOfDecode : decode 0x10FFFFFFFFFF = .ok (.setrgb 0xFFFF 255 255 255) := by decide

theorem test_hyp_ReservedWordsRaiseIllegalCommand :
    (sent.fault = 0x00 ∧ specTable.all (fun row => (0x010001000004 : CmdWord) &&& row.2 != row.1) = true) ∧
    fieldOpc 0x00FFFF000000 = 0x00 ∧
    (0x08 ≤ fieldOpc 0x080000000000 ∧ fieldOpc 0x080000000000 ≤ 0x0F) ∧
    (0x08 ≤ fieldOpc 0x0F0000000000 ∧ fieldOpc 0x0F0000000000 ≤ 0x0F) ∧
    0x15 ≤ fieldOpc 0x150000000000 ∧ 0x15 ≤ fieldOpc 0xFF0000000000 ∧
    (fieldOpc 0x010001000004 = 0x01 ∧ (0x010001000004 : CmdWord).extractLsb' 2 6 ≠ 0) ∧
    (fieldOpc 0x030000000080 = 0x03 ∧ (0x030000000080 : CmdWord).extractLsb' 2 6 ≠ 0) := by decide +kernel

theorem test_hyp_TypeFlagsSelectTheOrder :
    decode 0x010001000003 = .ok (.strip 1 0x03) ∧ decode 0x030000000002 = .ok (.utype 0x02) ∧
    blank.begun = false := by decide

theorem test_hyp_StepRunsTheDecodedCommand :
    readyToShow.schedule = .cmd 0x050000000000 :: [] ∧ readyToShow.fault = 0x00 ∧
    decode 0x050000000000 = .ok .show_ := by decide +kernel

/-- `ticked 3 sent` with a byte that stream `D` is about to read made non-binary. -/
def tainted : State := { ticked 3 sent with buf := (ticked 3 sent).buf.write 0 0x02 }

theorem test_hyp_StepAtAClockEdge :
    (blank.fault = 0x00 ∧ blank.schedule = [] ∧ blank.tim.run = false) ∧
    (∃ t, deadTiny.fault = 0x00 ∧ (∃ rest, deadTiny.schedule = .clk :: rest) ∧ deadTiny.tim.run = true ∧
      tick { deadTiny with schedule := deadTiny.schedule.tail, rsp := none } = .ok t) ∧
    (tainted.fault = 0x00 ∧ tainted.schedule = [] ∧ tainted.tim.run = true ∧
      tick { tainted with schedule := tainted.schedule.tail, rsp := none } =
        .error (.raised .nonBinaryBufferByte)) :=
  ⟨by decide, ⟨endDeadTime (countOverflow (advance { deadTiny with
    schedule := deadTiny.schedule.tail, rsp := none })), by decide +kernel, ⟨_, rfl⟩, by decide +kernel,
    by decide +kernel⟩, by decide +kernel⟩

theorem test_hyp_FaultRecordIsWrittenOnceAndStops :
    sent.fault = 0x00 ∧ (ran .show_ sent).fault ≠ 0x00 ∧ (ran .show_ sent).nextEvent ≠ .rst := by
  decide +kernel

theorem test_hyp_ResetValues :
    ∃ t, { sent with schedule := [.rst], fault := 0x05 }.nextEvent = .rst ∧
      step { sent with schedule := [.rst], fault := 0x05 } = .next t :=
  ⟨_, rfl, rfl⟩

theorem test_hyp_ResetEdgeInAnyState :
    { sent with schedule := [.rst, .clk], fault := 0x05 }.schedule = .rst :: [.clk] := rfl

/-- `ticked 3 sent` with stream `D` at the first address above the buffer. -/
def beyond : State := { ticked 3 sent with dma := { (ticked 3 sent).dma with src := 96 } }

/-- Four pixels fit; of 65535 the fifth is the first whose slot does not. -/
theorem test_hyp_AccessOutsideTheBufferStops :
    ((4 : Index).toNat < ({ one with n := 65535 } : State).n.toNat ∧
      ({ one with n := 65535 } : State).cfg.bufBytes < 24 * (4 : Index).toNat + 24 ∧
      ({ one with n := 65535 } : State).eng.state = .idle) ∧
    (({ one with n := 5 } : State).cfg.bufBytes < 24 * ({ one with n := 5 } : State).n.toNat ∧
      ({ one with n := 5 } : State).eng.state = .idle ∧ (0 : Byte) + 1 ≠ ({ one with n := 5 } : State).brt) ∧
    (beyond.tim.run = true ∧ nextCount beyond.tim ≠ 0 ∧ nextCount beyond.tim = beyond.tim.ccr1 ∧
      beyond.tim.cc1de = true ∧ beyond.dma.d.en = true ∧ beyond.dma.d.cnt ≠ 0 ∧
      beyond.cfg.bufBytes ≤ beyond.dma.src.toNat) := by
  decide +kernel

theorem test_hyp_ExpandStoresEightBits : fullReady.buf.wf := by decide +kernel

theorem test_hyp_CollapseInvertsExpand : fullReady.buf.wf ∧
    ∀ i < 8, fullReady.buf.read (88 + i) = 0x00 ∨ fullReady.buf.read (88 + i) = 0x01 := by decide +kernel

theorem test_hyp_EffectiveFactor : (1 : Byte) ≠ 0 := by decide

theorem test_hyp_ReadSideScaling : (128 : Byte).toNat ≤ feff 129 - 1 ∧ (255 : Byte).toNat ≤ feff 0 - 1 ∧
    (0 : Byte).toNat ≤ feff 1 - 1 := by decide

theorem test_hyp_RescaleMultiplier : (129 : Byte) ≠ 0 ∧ (128 : Byte).toNat ≤ feff 129 - 1 := by decide

theorem test_hyp_ResizeZeroesOrFails :
    blank.cfg.maxPixels < (5 : Index).toNat ∧ (4 : Index).toNat ≤ blank.cfg.maxPixels ∧
    20 ≤ State.reset.cfg.maxPixels := by decide

theorem test_hyp_StripConstructs :
    (ready.begun = true ∧ ready.fault = 0x00) ∧
    (one.begun = false ∧ one.cfg.maxPixels < (5 : Index).toNat) ∧
    (one.begun = false ∧ (4 : Index).toNat ≤ one.cfg.maxPixels) := by decide +kernel

theorem test_hyp_UlenResizes :
    (ready.begun = true ∧ ready.fault = 0x00) ∧
    (State.reset.begun = false ∧ State.reset.cfg.maxPixels < (1025 : Index).toNat) ∧
    (State.reset.begun = false ∧ (1024 : Index).toNat ≤ State.reset.cfg.maxPixels) := by decide +kernel

theorem test_hyp_UtypeSetsTheOrder : (ready.begun = true ∧ ready.fault = 0x00) ∧ one.begun = false := by
  decide +kernel

theorem test_hyp_SetrgbStoresOneSlot :
    full.n.toNat ≤ (4 : Index).toNat ∧ blank.n.toNat ≤ (0 : Index).toNat ∧
    ((0 : Index).toNat < sent.n.toNat ∧ sent.eng.state ≠ .idle ∧ sent.fault = 0x00) ∧
    (fullReady.buf.wf ∧ fullReady.n.toNat ≤ fullReady.cfg.maxPixels ∧ (3 : Index).toNat < fullReady.n.toNat ∧
      fullReady.eng.state = .idle) := by decide +kernel

theorem test_hyp_SetpkForwardsToSetrgb :
    (fullReady.n.toNat ≤ fullReady.cfg.maxPixels ∧
      ((3 : Index).toNat < fullReady.n.toNat → fullReady.eng.state = .idle)) ∧
    (sent.n.toNat ≤ sent.cfg.maxPixels ∧ ((1 : Index).toNat < sent.n.toNat → sent.eng.state = .idle)) := by
  decide +kernel

theorem test_hyp_GetpixResponds :
    fullReady.n.toNat ≤ (4 : Index).toNat ∧
    (fullReady.n.toNat ≤ fullReady.cfg.maxPixels ∧ (3 : Index).toNat < fullReady.n.toNat ∧
      (255 : Byte) = scaleOut (collapse8 fullReady.buf (24 * (3 : Index).toNat)) fullReady.brt ∧
      (255 : Byte) = scaleOut (collapse8 fullReady.buf (24 * (3 : Index).toNat + 8)) fullReady.brt ∧
      (255 : Byte) = scaleOut (collapse8 fullReady.buf (24 * (3 : Index).toNat + 16)) fullReady.brt) := by
  decide +kernel

theorem test_hyp_ClearZeroesTheValidRegion :
    blank.n = 0 ∧ (sent.n ≠ 0 ∧ sent.eng.state ≠ .idle ∧ sent.fault = 0x00) ∧
    (fullReady.n ≠ 0 ∧ fullReady.eng.state = .idle ∧ fullReady.n.toNat ≤ fullReady.cfg.maxPixels) := by
  decide +kernel

theorem test_hyp_SetbrtRescalesTheBuffer :
    ((255 : Byte).toNat + 1) % 256 = sent.brt.toNat ∧
    (((0 : Byte).toNat + 1) % 256 ≠ sent.brt.toNat ∧ sent.n ≠ 0 ∧ sent.eng.state ≠ .idle ∧ sent.fault = 0x00) ∧
    (((0 : Byte).toNat + 1) % 256 ≠ blank.brt.toNat ∧ blank.n = 0 ∧ blank.buf.wf ∧
      blank.n.toNat ≤ blank.cfg.maxPixels) ∧
    (((254 : Byte).toNat + 1) % 256 ≠ fullReady.brt.toNat ∧ fullReady.eng.state = .idle ∧ fullReady.buf.wf ∧
      fullReady.n.toNat ≤ fullReady.cfg.maxPixels) := by decide +kernel

theorem test_hyp_BeginBringsUp : (ready.begun = true ∧ ready.fault = 0x00) ∧ blank.begun = false := by
  decide +kernel

theorem test_hyp_ShowStartsAFrame :
    blank.n = 0 ∧ (one.n ≠ 0 ∧ one.begun = false ∧ one.fault = 0x00) ∧
    (sent.n ≠ 0 ∧ sent.begun = true ∧ sent.eng.state ≠ .idle ∧ sent.fault = 0x00) ∧
    (dead.n ≠ 0 ∧ dead.begun = true ∧ dead.eng.state ≠ .idle ∧ dead.fault = 0x00) ∧
    (ready.n ≠ 0 ∧ ready.begun = true ∧ ready.eng.state = .idle) := by decide +kernel

theorem test_hyp_PollRespondsTheFlag : EngineInv blank ∧ EngineInv sent ∧ EngineInv dead :=
  ⟨inv_blank.engine, inv_sent.engine, inv_dead.engine⟩

theorem test_hyp_OnlyThreeCommandsRespond :
    (∃ t, exec .poll sent = .next t ∧ EngineInv sent) ∧ (∃ t, exec .numpix full = .next t) ∧
    (∃ t, exec (.getpix 0) sent = .next t) ∧
    ∃ t, exec .show_ ready = .next t ∧ Instr.show_ ≠ .poll ∧ Instr.show_ ≠ .numpix ∧
      ∀ index, Instr.show_ ≠ .getpix index :=
  ⟨⟨_, rfl, inv_sent.engine⟩, ⟨_, rfl⟩, (exec_keeps_inv inv_sent _).imp fun _ h => h.1,
    (exec_keeps_inv inv_ready _).imp fun _ h => ⟨h.1, by decide, by decide, fun _ => by simp⟩⟩

theorem test_hyp_WrittenOnlyByItsCommands :
    nextIs (exec (.strip 4 0x01) { one with brt := 1 }) (fun t => t.n != 1 && t.order != .grb && t.brt != 1) =
      true ∧
    nextIs (exec .clear ready) (fun t => t.buf != ready.buf) = true ∧
    nextIs (exec .begin_ one) (fun t => t.begun != one.begun && t.gpio != one.gpio && t.tim != one.tim) = true ∧
    nextIs (exec .show_ ready) (fun t => t.dma != ready.dma && t.tim != ready.tim && t.eng != ready.eng) =
      true := by decide +kernel

theorem test_hyp_FaultOfEachCommand :
    (sent.fault = 0x00 ∧ sent.n.toNat ≤ sent.cfg.maxPixels ∧ faultOfTable .show_ sent ≠ 0x00) ∧
    (full.fault = 0x00 ∧ full.n.toNat ≤ full.cfg.maxPixels ∧ faultOfTable .clear full = 0x00) := by
  decide +kernel

theorem test_hyp_ReadBackPermutesTheRoles :
    fullReady.buf.wf ∧ fullReady.n.toNat ≤ fullReady.cfg.maxPixels ∧ fullReady.brt = 0 ∧
    (3 : Index).toNat < fullReady.n.toNat ∧ fullReady.eng.state = .idle := by decide +kernel

theorem test_hyp_DimmingCommutesWithWriting :
    BufferInv fullReady ∧ fullReady.brt = 0 ∧ fullReady.eng.state = .idle :=
  ⟨inv_fullReady.buffer, by decide +kernel, by decide +kernel⟩

theorem test_hyp_OrderAffectsOnlyReadBack :
    (∃ t, step readyToShow = .next t) ∧ ∃ f, step { sent with fault := 0x05 } = .fault f :=
  ⟨⟨_, (next_of_nextIs (r := step readyToShow) (p := fun _ => true) (by decide +kernel)).choose_spec.1⟩,
    ⟨.stopped 0x05, by rfl⟩⟩

theorem test_hyp_TickRaisesAtMostOneEvent :
    (sent.tim.run = true ∧ (advance sent).tim.cnt = 0) ∧
    ((ticked 3 sent).tim.run = true ∧ (advance (ticked 3 sent)).tim.cnt ≠ 0 ∧
      (advance (ticked 3 sent)).tim.cnt = (ticked 3 sent).tim.ccr1) ∧
    ((ticked 6 sent).tim.run = true ∧ (advance (ticked 6 sent)).tim.cnt ≠ 0 ∧
      (advance (ticked 6 sent)).tim.cnt ≠ (ticked 6 sent).tim.ccr1 ∧
      (advance (ticked 6 sent)).tim.cnt = (ticked 6 sent).tim.ccr2) ∧
    ((ticked 1 sent).tim.run = true ∧ (advance (ticked 1 sent)).tim.cnt ≠ 0 ∧
      (advance (ticked 1 sent)).tim.cnt ≠ (ticked 1 sent).tim.ccr1 ∧
      (advance (ticked 1 sent)).tim.cnt ≠ (ticked 1 sent).tim.ccr2) ∧
    sent.tim.cnt ≤ sent.tim.arr := by decide +kernel

theorem test_hyp_EventsRequestTheirStreams :
    (sent.tim.ude = true ∧ sent.tim.uie = false ∧ sent.tim.cc1de = true ∧ sent.tim.cc2de = true) ∧
    (dead.tim.ude = false ∧ dead.tim.uie = true ∧ dead.tim.cc1de = false ∧ dead.tim.cc2de = false) ∧
    (blank.tim.ude = false ∧ blank.tim.uie = false) ∧
    (∃ t, ({ dead with tim := { dead.tim with ude := true } } : State).tim.ude = true ∧
      ({ dead with tim := { dead.tim with ude := true } } : State).tim.uie = true ∧
      dmaReq .h { dead with tim := { dead.tim with ude := true } } = .ok t) ∧
    (EngineInv dead ∧ dead.eng.state = .deadTime) ∧ (EngineInv blank ∧ blank.eng.state = .idle) :=
  ⟨by decide +kernel, by decide +kernel, by decide, ⟨_, rfl, rfl, rfl⟩, ⟨inv_dead.engine, rfl⟩,
    ⟨inv_blank.engine, rfl⟩⟩

theorem test_hyp_DmaRequestTransfersOnce :
    ((dead.dma.stream .h).en = false ∨ (dead.dma.stream .h).cnt = 0) ∧
    (sent.dma.h.en = true ∧ sent.dma.h.cnt ≠ 0) ∧
    (sent.dma.d.en = true ∧ sent.dma.d.cnt ≠ 0 ∧ sent.dma.src.toNat < sent.cfg.bufBytes ∧
      (sent.buf.read sent.dma.src.toNat = 0x00 ∨ sent.buf.read sent.dma.src.toNat = 0x01)) ∧
    (sent.dma.d.en = true ∧ sent.dma.d.cnt ≠ 0 ∧ sent.dma.src.toNat < sent.cfg.bufBytes ∧
      ((sent.buf.write 0 0x02).read sent.dma.src.toNat).extractLsb' 1 7 ≠ 0) ∧
    (sent.dma.l.en = true ∧ sent.dma.l.cnt ≠ 0 ∧ sent.dma.l.cnt ≠ 1) ∧
    (lastBit.dma.l.en = true ∧ lastBit.dma.l.cnt = 1) := by decide +kernel

theorem test_hyp_GpioPortsAndPin : ready.gpio.mode = true ∧ blank.gpio.mode = false := by decide +kernel

theorem test_hyp_DmaCompletionHandler :
    (lastBit.dma.l.en = true ∧ lastBit.dma.l.cnt = 1) ∧
    (EngineInv lastBit ∧ lastBit.eng.state = .transmitting) :=
  ⟨by decide +kernel, inv_lastBit.engine, by decide +kernel⟩

theorem test_hyp_TimerOverflowHandler :
    (∃ t, dead.tim.uie = true ∧
      (dead.tim.ude = true ∧ dmaReq .h dead = .ok t ∨ dead.tim.ude = false ∧ t = dead)) ∧
    (dead.eng.ovf.toNat < dead.cfg.deadOverflows ∧ dead.eng.ovf.toNat + 1 ≠ dead.cfg.deadOverflows) ∧
    (deadTiny.eng.ovf.toNat < deadTiny.cfg.deadOverflows ∧
      deadTiny.eng.ovf.toNat + 1 = deadTiny.cfg.deadOverflows) :=
  ⟨⟨dead, by decide +kernel, .inr ⟨rfl, rfl⟩⟩, by decide +kernel⟩

theorem test_hyp_NonBinaryByteDiscardsTheTick :
    ((ticked 3 sent).fault = 0x00 ∧ (ticked 3 sent).tim.run = true ∧ nextCount (ticked 3 sent).tim ≠ 0 ∧
      nextCount (ticked 3 sent).tim = (ticked 3 sent).tim.ccr1 ∧ (ticked 3 sent).tim.cc1de = true ∧
      (ticked 3 sent).dma.d.en = true ∧ (ticked 3 sent).dma.d.cnt ≠ 0 ∧
      (ticked 3 sent).dma.src.toNat < (ticked 3 sent).cfg.bufBytes ∧
      (((ticked 3 sent).buf.write 0 0x02).read (ticked 3 sent).dma.src.toNat).extractLsb' 1 7 ≠ 0) ∧
    Inv (ticked 3 sent) :=
  ⟨by decide +kernel, inv_ticked inv_sent 3⟩

theorem test_hyp_OnlyThreeTransitions :
    (∃ t, Inv readyToShow ∧ step readyToShow = .next t ∧ readyToShow.nextEvent ≠ .rst ∧
      t.eng.state ≠ readyToShow.eng.state) ∧
    (∃ t, Inv lastBit ∧ step lastBit = .next t ∧ lastBit.nextEvent ≠ .rst ∧
      t.eng.state ≠ lastBit.eng.state) ∧
    (∃ t, Inv deadTiny ∧ step deadTiny = .next t ∧ deadTiny.nextEvent ≠ .rst ∧
      t.eng.state ≠ deadTiny.eng.state) ∧
    ∃ t, Inv { sent with schedule := [.rst] } ∧ step { sent with schedule := [.rst] } = .next t ∧
      ({ sent with schedule := [.rst] } : State).nextEvent = .rst := by
  obtain ⟨t, ht, h1⟩ := next_of_nextIs (r := step readyToShow)
    (p := fun t => t.eng.state == .transmitting) (by decide +kernel)
  obtain ⟨u, hu, h2⟩ := next_of_nextIs (r := step lastBit) (p := fun t => t.eng.state == .deadTime)
    (by decide +kernel)
  obtain ⟨v, hv, h3⟩ := next_of_nextIs (r := step deadTiny) (p := fun t => t.eng.state == .idle)
    (by decide +kernel)
  simp only [beq_iff_eq] at h1 h2 h3
  exact ⟨⟨t, inv_readyToShow, ht, by decide, by rw [h1]; decide +kernel⟩,
    ⟨u, inv_lastBit, hu, by decide, by rw [h2]; decide⟩,
    ⟨v, inv_deadTiny, hv, by decide, by rw [h3]; decide⟩, ⟨_, inv_rescheduled inv_sent _, rfl, rfl⟩⟩

theorem test_hyp_StepKeepsTheInvariants : ∃ t, Inv readyToShow ∧ step readyToShow = .next t :=
  (next_of_nextIs (r := step readyToShow) (p := fun _ => true) (by decide +kernel)).imp fun _ h =>
    ⟨inv_readyToShow, h.1⟩

theorem test_hyp_StepsAlwaysComplete : Inv readyToShow ∧ readyToShow.fault = 0x00 :=
  ⟨inv_readyToShow, by decide +kernel⟩

/-- `STRIP 1, GRB`; `BEGIN`; `SHOW`, from reset: ReachableBuffers, ReachableEngines, PinOutsideAFrame. -/
theorem test_hyp_Reachable :
    ∃ t, runSteps 3 { State.resetWith Config.small with
      schedule := [.cmd 0x010001000000, .cmd 0x040000000000, .cmd 0x050000000000] } = .next t ∧
      (t.eng.state == .transmitting && t.begun && t.n == 1) = true :=
  next_of_nextIs (by decide +kernel)

/-- After `BEGIN` alone, and from reset: the other two clauses of PinOutsideAFrame and ReachableEngines. -/
theorem test_hyp_Reachable_idle :
    (∃ t, runSteps 1 { State.resetWith Config.small with schedule := [.cmd 0x040000000000] } = .next t ∧
      (t.begun && t.eng.state == .idle) = true) ∧
    ∃ t, runSteps 0 { State.resetWith Config.small with schedule := [] } = .next t ∧ (!t.begun) = true :=
  ⟨next_of_nextIs (by decide +kernel), next_of_nextIs (by decide +kernel)⟩

theorem test_hyp_BufferIsStableInFlight :
    ∃ t, Inv sent ∧ sent.eng.state ≠ .idle ∧ sent.nextEvent ≠ .rst ∧ step sent = .next t := by
  obtain ⟨t, ht, -⟩ := next_of_nextIs (r := step sent) (p := fun _ => true) (by decide +kernel)
  exact ⟨t, inv_sent, by decide +kernel, by decide +kernel, ht⟩

theorem test_hyp_ContractHostNeverFaults :
    Inv readyToShow ∧ readyToShow.fault = 0x00 ∧
    ∀ j < 1, ∀ u, runSteps j readyToShow = .next u → keepsContract u.nextEvent u := by
  refine ⟨inv_readyToShow, by decide +kernel, ?_⟩
  intro j hj u hu
  obtain rfl : j = 0 := by omega
  rw [runSteps_zero] at hu
  cases hu
  exact ⟨.show_, by decide, by decide +kernel⟩

theorem readsOnly_poll : readsOnly (.cmd 0x060000000000) := ⟨.poll, by decide, .inl rfl⟩

/-- FrameWaveform and FrameSchedule, with a POLL in the frame: the last bit and the last TICK of its period, and
the edge that ends the dead time. -/
theorem test_hyp_Frame :
    (Inv { ready with schedule := [.cmd 0x050000000000, .cmd 0x060000000000] } ∧ ready.fault = 0x00 ∧
      ready.begun = true ∧ ready.n ≠ 0 ∧ ready.eng.state = .idle ∧
      ∀ e ∈ [Event.cmd 0x060000000000], readsOnly e) ∧
    (23 < 24 * ready.n.toNat ∧ 9 < ready.cfg.periodTicks ∧
      clockEdges [.cmd 0x060000000000] 241 = 1 + 23 * ready.cfg.periodTicks + 9) ∧
    251 = clockEdges [.cmd 0x060000000000] 252 ∧
    1 + (24 * ready.n.toNat + ready.cfg.deadOverflows - 1) * ready.cfg.periodTicks ≤ 251 :=
  ⟨⟨inv_rescheduled inv_ready _, by decide +kernel, by decide +kernel, by decide +kernel, by decide +kernel,
    by simpa using readsOnly_poll⟩, by decide +kernel⟩

/-- A clock edge, SHOW, a clock edge: the line is high again after the three steps. -/
theorem test_hyp_DeadTimeIsGuaranteed :
    ∃ t, Inv deadTiny ∧ deadTiny.eng.state = .deadTime ∧ deadTiny.tim.cnt.toNat = deadTiny.cfg.c2Ticks ∧
      deadTiny.eng.ovf = 0 ∧ .rst ∉ deadTiny.schedule ∧ runSteps 3 deadTiny = .next t ∧ t.gpio.out = true := by
  obtain ⟨t, ht, h⟩ := next_of_nextIs (r := runSteps 3 deadTiny) (p := fun t => t.gpio.out) (by decide +kernel)
  exact ⟨t, inv_deadTiny, by decide, by decide, by decide, by decide, ht, h⟩

theorem test_hyp_DeadTimeLength :
    Inv { dead with schedule := [.cmd 0x060000000000] } ∧ dead.fault = 0x00 ∧
    (∀ e ∈ ({ dead with schedule := [.cmd 0x060000000000] } : State).schedule, readsOnly e) ∧
    dead.eng.state = .deadTime ∧ dead.tim.cnt.toNat = dead.cfg.c2Ticks ∧ dead.eng.ovf = 0 ∧
    14 = clockEdges [.cmd 0x060000000000] 15 :=
  ⟨inv_rescheduled inv_dead _, by decide +kernel, by simpa using readsOnly_poll, by decide +kernel⟩

end Sys2Proof.Tests
end

section
/-! Proofs about the command word: a decoded word is the encoding of a well-formed command, what matching a row
of R47 says about a word, and from these the reserved words (R48, R119) and the type flags (R49). -/

namespace Sys2Proof

/-! ### Must-be-zero bits and the fields they lie in (R45, R47) -/

theorem formatC_eq_iff {o : BitVec 8} {a : Index} {v : Colour} {w : CmdWord} :
    formatC o a v = w ↔ fieldOpc w = o ∧ fieldA w = a ∧ fieldV w = v := by
  conv_lhs => rw [← formatC_fields w, formatC_inj]
  simp only [eq_comm]

/-- Zero bits from `lo` up to 39 are those of `A` and of `V` from `lo` on. -/
theorem fields_of_bits_zero {w : CmdWord} (lo : Nat) (hlo : lo ≤ 24) (h : w.extractLsb' lo (40 - lo) = 0) :
    fieldA w = 0 ∧ (fieldV w).toNat < 2 ^ lo := by
  have hbit : ∀ i, lo ≤ i → i < 40 → w.getLsbD i = false := fun i hi h40 => by
    have hb := congrArg (BitVec.getLsbD · (i - lo)) h
    simpa [show i - lo < 40 - lo by omega, show lo + (i - lo) = i by omega] using hb
  constructor
  · refine BitVec.eq_of_getLsbD_eq fun i hi => ?_
    simp [fieldA, hi, hbit (24 + i) (by omega) (by omega)]
  · refine Nat.lt_pow_two_of_testBit _ fun i hi => ?_
    rw [BitVec.testBit_toNat]
    by_cases h24 : i < 24
    · simp [fieldV, h24, hbit i hi (by omega)]
    · exact BitVec.getLsbD_of_ge _ _ (by omega)

/-- A 24-bit value below 256 is its own lowest byte. -/
theorem packColour_blueOf {v : Colour} (h : v.toNat < 2 ^ 8) : packColour 0 0 (blueOf v) = v := by
  have hb : (blueOf v).toNat = v.toNat := by
    rw [blueOf, BitVec.extractLsb'_toNat, Nat.shiftRight_zero, Nat.mod_eq_of_lt h]
  rw [← BitVec.toNat_inj, packColour_toNat, hb]
  simp

theorem flagsOk_blueOf {v : Colour} (h : v.toNat < 2 ^ 2) :
    (speedClassOk (blueOf v) && flagsReservedOk (blueOf v)) = true := by
  rw [flagsOk_iff, blueOf, BitVec.extractLsb'_toNat, Nat.shiftRight_zero]
  omega

/-! ### Decoding answers well-formed commands, each from its own word (R46 to R49) -/

/-- A word with the three fields of a command's encoding is that encoding. -/
theorem encode_eq_of_fields {w : CmdWord} {i : Instr} {o : BitVec 8} {a : Index} {v : Colour}
    (hi : encode i = formatC o a v) (ho : (fieldOpc w).toNat = o.toNat) (ha : fieldA w = a) (hv : fieldV w = v) :
    encode i = w := by
  rw [hi, formatC_eq_iff]
  exact ⟨BitVec.eq_of_toNat_eq ho, ha, hv⟩

/-- A row without operands: all bits below the opcode must be zero. -/
theorem wf_and_encode_of_no_operands {w : CmdWord} {i j : Instr} {o : BitVec 8}
    (ho : (fieldOpc w).toNat = o.toNat) (h : needZero (w.extractLsb' 0 40) j = .ok i)
    (hj : encode j = formatC o 0 0) (hwf : j.wf = true) : i.wf = true ∧ encode i = w := by
  obtain ⟨hz, rfl⟩ := needZero_ok.1 h
  obtain ⟨ha, hv⟩ := fields_of_bits_zero 0 (by omega) hz
  exact ⟨hwf, encode_eq_of_fields hj ho ha (BitVec.eq_of_toNat_eq (by simpa using hv))⟩

/-- The decoder answers well-formed commands only, and a command from no word but its encoding. -/
theorem wf_and_encode_of_decode {w : CmdWord} {i : Instr} (h : decode w = .ok i) :
    i.wf = true ∧ encode i = w := by
  unfold decode at h
  split at h
  case h_1 ho =>
    obtain ⟨hz, rfl⟩ := needZero_ok.1 h
    have hv : (fieldV w).toNat < 2 ^ 2 := by
      have := (fieldV w).isLt
      rw [extractLsb'_eq_zero_iff] at hz
      omega
    exact ⟨flagsOk_blueOf hv, encode_eq_of_fields (o := 0x01) rfl ho rfl (packColour_blueOf (by omega)).symm⟩
  case h_2 ho =>
    obtain ⟨hz, rfl⟩ := needZero_ok.1 h
    exact ⟨rfl, encode_eq_of_fields (o := 0x02) rfl ho rfl hz⟩
  case h_3 ho =>
    obtain ⟨hz, rfl⟩ := needZero_ok.1 h
    obtain ⟨ha, hv⟩ := fields_of_bits_zero 2 (by omega) hz
    exact ⟨flagsOk_blueOf hv, encode_eq_of_fields (o := 0x03) rfl ho ha (packColour_blueOf (by omega)).symm⟩
  case h_4 ho => exact wf_and_encode_of_no_operands (o := 0x04) ho h rfl rfl
  case h_5 ho => exact wf_and_encode_of_no_operands (o := 0x05) ho h rfl rfl
  case h_6 ho => exact wf_and_encode_of_no_operands (o := 0x06) ho h rfl rfl
  case h_7 ho => exact wf_and_encode_of_no_operands (o := 0x07) ho h rfl rfl
  case h_8 ho =>
    cases h
    exact ⟨rfl, encode_eq_of_fields (o := 0x10) rfl ho rfl (packColour_parts _).symm⟩
  case h_9 ho =>
    cases h
    exact ⟨rfl, encode_eq_of_fields (o := 0x11) rfl ho rfl rfl⟩
  case h_10 ho =>
    obtain ⟨hz, rfl⟩ := needZero_ok.1 h
    exact ⟨rfl, encode_eq_of_fields (o := 0x12) rfl ho rfl hz⟩
  case h_11 ho => exact wf_and_encode_of_no_operands (o := 0x13) ho h rfl rfl
  case h_12 ho =>
    obtain ⟨hz, rfl⟩ := needZero_ok.1 h
    obtain ⟨ha, hv⟩ := fields_of_bits_zero 8 (by omega) hz
    exact ⟨rfl, encode_eq_of_fields (o := 0x14) rfl ho ha (packColour_blueOf hv).symm⟩
  case h_13 => cases h

end Sys2Proof

namespace Sys2Proof.Machine

/-! ### What matching a row of R47 says about a word -/

theorem opRow_mem_specTable (i : Instr) : ((opRow i).pat, (opRow i).mask) ∈ specTable := by
  cases i <;> simp [opRow, specTable]

/-- The word of a well-formed command matches the command's row. -/
theorem encode_matches_row {i : Instr} (h : i.wf = true) : encode i &&& (opRow i).mask = (opRow i).pat := by
  cases i with
  | strip n tf => exact Laws.MatchesRow.strip n tf h
  | ulen n => exact Laws.MatchesRow.ulen n h
  | utype tf => exact Laws.MatchesRow.utype tf h
  | begin_ => exact Laws.MatchesRow.begin_ h
  | show_ => exact Laws.MatchesRow.show_ h
  | poll => exact Laws.MatchesRow.poll h
  | numpix => exact Laws.MatchesRow.numpix h
  | setrgb index r g b => exact Laws.MatchesRow.setrgb index r g b h
  | setpk index c => exact Laws.MatchesRow.setpk index c h
  | getpix index => exact Laws.MatchesRow.getpix index h
  | clear => exact Laws.MatchesRow.clear h
  | setbrt level => exact Laws.MatchesRow.setbrt level h

/-- A decoded word matches the row of its command. -/
theorem matches_row_of_decode {w : CmdWord} {i : Instr} (h : decode w = .ok i) :
    w &&& (opRow i).mask = (opRow i).pat := by
  obtain ⟨hwf, rfl⟩ := wf_and_encode_of_decode h
  exact encode_matches_row hwf

/-- Where a mask is all ones on the bits from `lo`, a match fixes these bits of the word. -/
theorem bits_eq_of_match {w mask pat : CmdWord} (lo k : Nat) (hmask : mask.extractLsb' lo k = BitVec.allOnes k)
    (h : w &&& mask = pat) : w.extractLsb' lo k = pat.extractLsb' lo k := by
  rw [← h, BitVec.extractLsb'_and, hmask, BitVec.and_allOnes]

/-- Every row fixes the whole opcode (R47). -/
theorem fieldOpc_eq_of_match {w : CmdWord} {row : CmdWord × CmdWord} (hrow : row ∈ specTable)
    (h : w &&& row.2 = row.1) : fieldOpc w = fieldOpc row.1 := by
  have hmasks : ∀ r ∈ specTable, r.2.extractLsb' 40 8 = BitVec.allOnes 8 := by simp [specTable]
  exact bits_eq_of_match 40 8 (hmasks row hrow) h

/-- The rows of STRIP and UTYPE ask for `tf[7:2] = 0` (R49). -/
theorem flags_zero_of_match {w : CmdWord} {row : CmdWord × CmdWord} (hrow : row ∈ specTable)
    (hopc : fieldOpc row.1 = 0x01 ∨ fieldOpc row.1 = 0x03) (h : w &&& row.2 = row.1) :
    w.extractLsb' 2 6 = 0 := by
  have hrows : ∀ r ∈ specTable, fieldOpc r.1 = 0x01 ∨ fieldOpc r.1 = 0x03 →
      r.2.extractLsb' 2 6 = BitVec.allOnes 6 ∧ r.1.extractLsb' 2 6 = 0 := by simp [specTable, fieldOpc]
  obtain ⟨hmask, hpat⟩ := hrows row hrow hopc
  exact (bits_eq_of_match 2 6 hmask h).trans hpat

/-- The opcodes that R48 lists as reserved are in no row. -/
theorem no_row_of_reserved_opcode {w : CmdWord}
    (hopc : fieldOpc w = 0x00 ∨ (0x08 ≤ fieldOpc w ∧ fieldOpc w ≤ 0x0F) ∨ 0x15 ≤ fieldOpc w) :
    ∀ row ∈ specTable, w &&& row.2 ≠ row.1 := fun row hrow hmatch => by
  have hopcodes : ∀ r ∈ specTable, ¬(fieldOpc r.1 = 0x00 ∨
      (0x08 ≤ fieldOpc r.1 ∧ fieldOpc r.1 ≤ 0x0F) ∨ 0x15 ≤ fieldOpc r.1) := by
    simp [specTable, fieldOpc]
  rw [fieldOpc_eq_of_match hrow hmatch] at hopc
  exact hopcodes row hrow hopc

theorem raise_of_no_fault {s : State} (h : s.fault = 0) (f : ModelFault) :
    s.raise f = { s with fault := f.code } := if_pos h

/-- A word that matches no row is accepted as an illegal command (R48, R119). -/
theorem acceptWord_of_no_row {w : CmdWord} {s : State} (hrow : ∀ row ∈ specTable, w &&& row.2 ≠ row.1) :
    acceptWord w s = .next (s.raise .illegalCommand) := by
  rcases acceptWord_cases w s with ⟨i, hd, -⟩ | ⟨-, ha⟩
  · exact absurd (matches_row_of_decode hd) (hrow _ (opRow_mem_specTable i))
  · exact ha

/-- Settles O6: a decoded word matches a row of the table, and every row fixes the opcode and the must-be-zero
bits of its words. -/
theorem reservedWordsRaiseIllegalCommand : Obligations.ReservedWordsRaiseIllegalCommand := by
  unfold Obligations.ReservedWordsRaiseIllegalCommand
  refine ⟨fun w s hf hrow => ?_, fun w hopc => no_row_of_reserved_opcode hopc,
    fun w hopc hflags row hrow hmatch => ?_, fun row hrow => ⟨?_, ?_⟩⟩
  · rw [acceptWord_of_no_row hrow, raise_of_no_fault hf]
    rfl
  · rw [fieldOpc_eq_of_match hrow hmatch] at hopc
    exact hflags (flags_zero_of_match hrow hopc hmatch)
  · exact no_row_of_reserved_opcode (.inl (by decide)) row hrow
  · exact no_row_of_reserved_opcode (.inr (.inr (by decide))) row hrow

/-! ### The type flags (R49, R67, R110) -/

@[simp] theorem code_ofCode (c : BitVec 2) : (Order.ofCode c).code = c := by
  revert c
  decide

theorem flags_high_bits_zero {tf : Byte} (h : (speedClassOk tf && flagsReservedOk tf) = true) :
    tf.extractLsb' 2 6 = 0 := by
  have := (flagsOk_iff tf).1 h
  rw [extractLsb'_eq_zero_iff]
  omega

theorem execStrip_of_not_begun {s : State} (hb : s.begun = false) (n : Index) (tf : Byte) :
    exec (.strip n tf) s = .next (resize n { s with order := orderOfFlags tf, brt := 0 }) := by
  simp [exec, execStrip, hb]

theorem execUtype_of_not_begun {s : State} (hb : s.begun = false) (tf : Byte) :
    exec (.utype tf) s = .next { s with order := orderOfFlags tf } := by
  simp [exec, execUtype, hb]

/-- Settles O7: decoded flags are well formed, and both commands write `ORDER` from `tf[1:0]`. -/
theorem typeFlagsSelectTheOrder : Obligations.TypeFlagsSelectTheOrder := by
  unfold Obligations.TypeFlagsSelectTheOrder
  refine ⟨fun w n tf hd => flags_high_bits_zero ?_, fun s n tf hb => ?_, rfl, rfl, rfl, rfl⟩
  · rcases hd with hd | hd <;> exact (wf_and_encode_of_decode hd).1
  · exact ⟨_, _, execStrip_of_not_begun hb n tf, execUtype_of_not_begun hb tf, resize_order _ n, rfl,
      code_ofCode _⟩

end Sys2Proof.Machine
end

section
/-! Proofs about the response port (R51): what each command can leave behind where it completes, and which
commands write the port. -/

namespace Sys2Proof.Machine

variable {s t : State}

/-! ### Inversion: the next states of each command (R139) -/

theorem next_of_withRange {base len : Nat} {k : Result} (h : s.withRange base len k = .next t) :
    base + len ≤ s.cfg.bufBytes ∧ k = .next t := by
  unfold State.withRange at h
  split at h
  · exact ⟨‹_›, h⟩
  · cases h

/-- A command of two branches, each of which completes. -/
theorem next_of_ite {b : Bool} {u v : State} (h : (if b then .next u else .next v : Result) = .next t) :
    (b = true ∧ t = u) ∨ (b = false ∧ t = v) := by
  cases b with
  | true =>
    cases h
    exact .inl ⟨rfl, rfl⟩
  | false =>
    cases h
    exact .inr ⟨rfl, rfl⟩

theorem execStrip_next {n : Index} {tf : Byte} (h : execStrip n tf s = .next t) :
    (s.begun = true ∧ t = s.raise .reconfigAfterBegin) ∨
    (s.begun = false ∧ t = resize n { s with order := orderOfFlags tf, brt := 0 }) :=
  next_of_ite h

theorem execUlen_next {n : Index} (h : execUlen n s = .next t) :
    (s.begun = true ∧ t = s.raise .reconfigAfterBegin) ∨ (s.begun = false ∧ t = resize n s) :=
  next_of_ite h

theorem execUtype_next {tf : Byte} (h : execUtype tf s = .next t) :
    (s.begun = true ∧ t = s.raise .reconfigAfterBegin) ∨
    (s.begun = false ∧ t = { s with order := orderOfFlags tf }) :=
  next_of_ite h

theorem execBegin_next (h : execBegin s = .next t) :
    (s.begun = true ∧ t = s.raise .beginTwice) ∨
    (s.begun = false ∧ t = { hardwareInit 0 s with begun := true }) :=
  next_of_ite h

theorem execShow_next (h : execShow s = .next t) :
    (s.n = 0 ∧ t = s) ∨
    (s.n ≠ 0 ∧ s.begun = false ∧ t = s.raise .showBeforeBegin) ∨
    (s.n ≠ 0 ∧ s.begun = true ∧ s.eng.state ≠ .idle ∧ t = s.raise .sendWhileBusy) ∨
    (s.n ≠ 0 ∧ s.begun = true ∧ s.eng.state = .idle ∧
      t = hardwareSend 0 (BitVec.ofNat 21 s.validBytes) s) := by
  simpa only [h, Host.Outcome.next.injEq] using execShow_cases s

theorem setPixel_next {index : Index} {r g b : Byte} (h : setPixel index r g b s = .next t) :
    (s.n.toNat ≤ index.toNat ∧ t = s) ∨
    (index.toNat < s.n.toNat ∧ s.eng.state ≠ .idle ∧ t = s.raise .bufferWriteInFlight) ∨
    (index.toNat < s.n.toNat ∧ s.eng.state = .idle ∧ slotBase index + 24 ≤ s.cfg.bufBytes ∧
      t = { s with buf := writeSlot s.buf (slotBase index) s.brt r g b }) := by
  simpa only [h, Host.Outcome.next.injEq, reduceCtorEq, and_false, false_or] using setPixel_cases index r g b s

theorem execGetpix_next {index : Index} (h : execGetpix index s = .next t) :
    (index.toNat < s.n.toNat ∧ slotBase index + 24 ≤ s.cfg.bufBytes ∧
      t = s.respond (readSlot s.buf (slotBase index) s.order s.brt)) ∨
    (s.n.toNat ≤ index.toNat ∧ t = s.respond 0x000000) := by
  unfold execGetpix at h
  split at h
  case isTrue hi =>
    obtain ⟨hb, hk⟩ := next_of_withRange h
    cases hk
    exact .inl ⟨by simpa [State.inRange] using hi, hb, rfl⟩
  case isFalse hi =>
    cases h
    exact .inr ⟨by simpa [State.inRange] using hi, rfl⟩

theorem execClear_next (h : execClear s = .next t) :
    (s.n = 0 ∧ t = s) ∨
    (s.n ≠ 0 ∧ s.eng.state ≠ .idle ∧ t = s.raise .bufferWriteInFlight) ∨
    (s.n ≠ 0 ∧ s.eng.state = .idle ∧ s.validBytes ≤ s.cfg.bufBytes ∧
      t = { s with buf := s.buf.zeroBelow s.validBytes }) := by
  unfold execClear at h
  split at h
  case isTrue hn =>
    cases h
    exact .inl ⟨hn, rfl⟩
  case isFalse hn =>
    split at h
    case isTrue hs =>
      cases h
      exact .inr (.inl ⟨hn, hs, rfl⟩)
    case isFalse hs =>
      obtain ⟨hb, hk⟩ := next_of_withRange h
      cases hk
      exact .inr (.inr ⟨hn, by simpa using hs, by simpa using hb, rfl⟩)

theorem execSetbrt_next {level : Byte} (h : execSetbrt level s = .next t) :
    (storedLevel level = s.brt ∧ t = s) ∨
    (storedLevel level ≠ s.brt ∧ (s.n ≠ 0 ∧ s.eng.state ≠ .idle) ∧
      t = s.raise .bufferWriteInFlight) ∨
    (storedLevel level ≠ s.brt ∧ ¬(s.n ≠ 0 ∧ s.eng.state ≠ .idle) ∧ s.validBytes ≤ s.cfg.bufBytes ∧
      t = { s with
        buf := rescaleAll (rescaleFactor s.brt (storedLevel level)) s.buf s.n.toNat
        brt := storedLevel level }) := by
  unfold execSetbrt at h
  simp only at h
  split at h
  case isTrue hl =>
    cases h
    exact .inl ⟨hl, rfl⟩
  case isFalse hl =>
    split at h
    case isTrue hs =>
      cases h
      exact .inr (.inl ⟨hl, hs, rfl⟩)
    case isFalse hs =>
      obtain ⟨hb, hk⟩ := next_of_withRange h
      cases hk
      exact .inr (.inr ⟨hl, hs, by simpa using hb, rfl⟩)

/-! ### The response port (R51) -/

theorem setPixel_rsp {index : Index} {r g b : Byte} (h : setPixel index r g b s = .next t) : t.rsp = s.rsp := by
  rcases setPixel_next h with ⟨-, rfl⟩ | ⟨-, -, rfl⟩ | ⟨-, -, -, rfl⟩
  · rfl
  · exact raise_rsp s _
  · rfl

/-- A command that is none of the three readers leaves the response port alone. -/
theorem exec_rsp_of_not_reader {i : Instr} (h : exec i s = .next t) (hpoll : i ≠ .poll) (hnumpix : i ≠ .numpix)
    (hgetpix : ∀ index, i ≠ .getpix index) : t.rsp = s.rsp := by
  cases i with
  | strip n tf =>
    rcases execStrip_next h with ⟨-, rfl⟩ | ⟨-, rfl⟩
    · exact raise_rsp s _
    · exact resize_rsp _ n
  | ulen n =>
    rcases execUlen_next h with ⟨-, rfl⟩ | ⟨-, rfl⟩
    · exact raise_rsp s _
    · exact resize_rsp s n
  | utype tf =>
    rcases execUtype_next h with ⟨-, rfl⟩ | ⟨-, rfl⟩
    · exact raise_rsp s _
    · rfl
  | begin_ =>
    rcases execBegin_next h with ⟨-, rfl⟩ | ⟨-, rfl⟩
    · exact raise_rsp s _
    · exact hardwareInit_rsp s 0
  | show_ =>
    rcases execShow_next h with ⟨-, rfl⟩ | ⟨-, -, rfl⟩ | ⟨-, -, -, rfl⟩ | ⟨-, -, -, rfl⟩
    · rfl
    · exact raise_rsp s _
    · exact raise_rsp s _
    · exact hardwareSend_rsp s 0 _
  | poll => exact absurd rfl hpoll
  | numpix => exact absurd rfl hnumpix
  | setrgb index r g b => exact setPixel_rsp h
  | setpk index c => exact setPixel_rsp h
  | getpix index => exact absurd rfl (hgetpix index)
  | clear =>
    rcases execClear_next h with ⟨-, rfl⟩ | ⟨-, -, rfl⟩ | ⟨-, -, -, rfl⟩
    · rfl
    · exact raise_rsp s _
    · rfl
  | setbrt level =>
    rcases execSetbrt_next h with ⟨-, rfl⟩ | ⟨-, -, rfl⟩ | ⟨-, -, -, rfl⟩
    · rfl
    · exact raise_rsp s _
    · rfl

theorem poll_rsp (h : exec .poll s = .next t) : t.rsp = some (tcWord s.eng.tc) := by
  cases h
  rfl

theorem numpix_rsp (h : exec .numpix s = .next t) : t.rsp = some (s.n.setWidth 24) := by
  cases h
  rfl

theorem getpix_rsp {index : Index} (h : exec (.getpix index) s = .next t) :
    ∃ r g b, t.rsp = some (packColour r g b) := by
  rcases execGetpix_next h with ⟨-, -, rfl⟩ | ⟨-, rfl⟩
  · exact ⟨_, _, _, rfl⟩
  · exact ⟨0, 0, 0, congrArg some (by decide : (0x000000 : Colour) = packColour 0 0 0)⟩

/-- `ENG.TC` zero-extended to 24 bits (R51). -/
theorem tcWord_eq_append (tc : Bool) : tcWord tc = 0x000000#23 ++ BitVec.ofBool tc := by
  cases tc <;> decide

/-- Under the engine's invariants the flag is 1 exactly in Idle (R95 (a)). -/
theorem EngineInv.tcWord_eq (h : EngineInv s) :
    tcWord s.eng.tc = if s.eng.state = .idle then 0x000001 else 0x000000 := by
  simp only [tcWord, h.tc]

/-- Settles O35: the three readers each by its own meaning, the other nine together. -/
theorem onlyThreeCommandsRespond : Obligations.OnlyThreeCommandsRespond := by
  unfold Obligations.OnlyThreeCommandsRespond
  refine fun i s t h => ⟨?_, ?_, ?_, ?_, exec_rsp_of_not_reader h⟩
  · rintro ⟨rfl, hinv⟩
    rw [poll_rsp h, hinv.tcWord_eq]
  · rintro rfl
    rw [poll_rsp h, tcWord_eq_append]
  · rintro rfl
    rw [numpix_rsp h, BitVec.ofNat_toNat]
  · rintro ⟨index, rfl⟩
    exact getpix_rsp h

end Sys2Proof.Machine
end

section
/-! Proofs about the other half of the decoder (R46, R47): the encoding of a well-formed command decodes to the
command, so a word is a command's exactly when it is the command's encoding. -/

namespace Sys2Proof

/-- The type flags and the level stand alone in `V`, in its lowest byte (R46). -/
theorem packColour_zero_toNat (l : Byte) : (packColour 0 0 l).toNat = l.toNat := by
  rw [packColour_toNat]
  simp

/-- No operand is lost on the way to the word and back (R46, R47). -/
theorem decode_encode {i : Instr} (h : i.wf = true) : decode (encode i) = .ok i := by
  cases i with
  | strip n tf =>
    have hz : (packColour 0 0 tf).extractLsb' 2 22 = 0 := by
      have := (flagsOk_iff tf).1 h
      rw [extractLsb'_eq_zero_iff, packColour_zero_toNat]
      omega
    simp only [encode, decode, fieldOpc_formatC, fieldA_formatC, fieldV_formatC, blueOf_packColour]
    exact needZero_ok.2 ⟨hz, rfl⟩
  | utype tf =>
    have hz : (formatC 0x03 0 (packColour 0 0 tf)).extractLsb' 2 38 = 0 := by
      have := (flagsOk_iff tf).1 h
      rw [extractLsb'_eq_zero_iff, formatC_toNat, packColour_zero_toNat]
      simp only [BitVec.ofNat_eq_ofNat, BitVec.toNat_ofNat]
      omega
    simp only [encode, decode, fieldOpc_formatC, fieldV_formatC, blueOf_packColour]
    exact needZero_ok.2 ⟨hz, rfl⟩
  | setbrt level =>
    have hz : (formatC 0x14 0 (packColour 0 0 level)).extractLsb' 8 32 = 0 := by
      have := level.isLt
      rw [extractLsb'_eq_zero_iff, formatC_toNat, packColour_zero_toNat]
      simp only [BitVec.ofNat_eq_ofNat, BitVec.toNat_ofNat]
      omega
    simp only [encode, decode, fieldOpc_formatC, fieldV_formatC, blueOf_packColour]
    exact needZero_ok.2 ⟨hz, rfl⟩
  | ulen n =>
    simp only [encode, decode, fieldOpc_formatC, fieldA_formatC, fieldV_formatC]
    exact needZero_zero _
  | getpix index =>
    simp only [encode, decode, fieldOpc_formatC, fieldA_formatC, fieldV_formatC]
    exact needZero_zero _
  | setrgb index r g b => simp [encode, decode]
  | setpk index c => simp [encode, decode]
  | begin_ => rfl
  | show_ => rfl
  | poll => rfl
  | numpix => rfl
  | clear => rfl

/-- A command has exactly one word, and every word a command decodes from is that one. -/
theorem decode_eq_ok_iff {w : CmdWord} {i : Instr} : decode w = .ok i ↔ i.wf = true ∧ w = encode i := by
  constructor
  · intro h
    obtain ⟨hwf, he⟩ := wf_and_encode_of_decode h
    exact ⟨hwf, he.symm⟩
  · rintro ⟨hwf, rfl⟩
    exact decode_encode hwf

/-- The word of a command all of whose operands are legal. -/
theorem decode_eq_ok_iff_of_wf {w : CmdWord} {i : Instr} (h : i.wf = true) : decode w = .ok i ↔ w = encode i := by
  rw [decode_eq_ok_iff, and_iff_right h]

/-- A word written byte by byte after its index (R45, R46). -/
theorem append_bytes_eq_formatC (o : BitVec 8) (a : Index) (r g b : Byte) :
    (o ++ a ++ r ++ g ++ b : CmdWord) = formatC o a (packColour r g b) := by
  rw [← BitVec.toNat_inj, formatC_toNat]
  simp only [packColour, toNat_append_add]
  omega

/-- A word with an operand in the lowest byte alone (R45, R46). -/
theorem append_low_byte_eq_formatC (o : BitVec 8) (l : Byte) :
    (o ++ 0x00000000#32 ++ l : CmdWord) = formatC o 0 (packColour 0 0 l) := by
  rw [← BitVec.toNat_inj, formatC_toNat, packColour_zero_toNat]
  simp only [toNat_append_add, BitVec.ofNat_eq_ofNat, BitVec.toNat_ofNat]
  omega

end Sys2Proof
end

section
/-! Proofs about the helper functions of the pixel buffer: `expand8` and `collapse8` (R56, R57) and the arithmetic
of brightness (R58 to R61). -/

namespace Sys2Proof.Machine

/-! ### Expansion and collapse (R56, R57) -/

theorem holdsBits_iff {m : Memory} {base : Nat} {v : Byte} :
    holdsBits m base v ↔ ∀ i < 8, m.read (base + i) = bitByte v i := Iff.rfl

theorem holdsBits_expand8 {m : Memory} (h : m.wf) (base : Nat) (v : Byte) :
    holdsBits (expand8 m base v) base v := holdsBits_iff.2 fun i hi => by
  rw [read_expand8 h, if_pos (by omega), Nat.add_sub_cancel_left]

theorem sameOutside_expand8 {m : Memory} (h : m.wf) (base : Nat) (v : Byte) :
    sameOutside base (base + 8) m (expand8 m base v) := fun a ha => by
  rw [read_expand8 h, if_neg (by omega)]

/-- Settles O16: the run of eight writes, read back byte by byte. -/
theorem expandStoresEightBits : Obligations.ExpandStoresEightBits := by
  unfold Obligations.ExpandStoresEightBits
  exact ⟨fun m base v h => ⟨wf_expand8 h base v, holdsBits_expand8 h base v, sameOutside_expand8 h base v⟩,
    by decide⟩

theorem toNat_getLsbD_zero (x : Byte) : (x.getLsbD 0).toNat = x.toNat % 2 := by
  rw [BitVec.getLsbD, Nat.testBit_zero]
  rcases Nat.mod_two_eq_zero_or_one x.toNat with h | h <;> simp [h]

/-- The eight shifted bits add up to less than 256, so `collapse8` loses nothing to its width (R57). -/
theorem collapse8_toNat (m : Memory) (base : Nat) :
    (collapse8 m base).toNat =
      ((List.range 8).map fun i => ((m.read (base + i)).toNat % 2) <<< (7 - i)).sum := by
  simp only [collapse8, toNat_getLsbD_zero, BitVec.toNat_ofNat, Nat.shiftLeft_eq, List.range_succ, List.range_zero,
    List.nil_append, List.cons_append, List.foldl_cons, List.foldl_nil, List.map_cons, List.map_nil, List.sum_cons,
    List.sum_nil]
  omega

/-- Settles O17: the sum by its bound, and the two inverse laws of `expand8` and `collapse8`. -/
theorem collapseInvertsExpand : Obligations.CollapseInvertsExpand := by
  unfold Obligations.CollapseInvertsExpand
  exact ⟨collapse8_toNat, fun m base v h => collapse8_expand8 h base v,
    fun m base h hb => expand8_collapse8 h base hb⟩

/-! ### The effective factor (R58) -/

theorem feff_of_ne_zero {b : Byte} (h : b ≠ 0) : feff b = b.toNat := if_neg h

theorem lt_feff_of_le {c b : Byte} (h : c.toNat ≤ feff b - 1) : c.toNat < feff b := by
  have := feff_pos b
  omega

theorem storedLevel_toNat (level : Byte) : (storedLevel level).toNat = (level.toNat + 1) % 256 :=
  BitVec.toNat_add level 1

/-- Settles O18: the two cases of the factor and its bounds. -/
theorem effectiveFactor : Obligations.EffectiveFactor := by
  unfold Obligations.EffectiveFactor
  exact ⟨feff_zero, fun b h => feff_of_ne_zero h, fun b => ⟨feff_pos b, feff_le b⟩,
    fun level => ⟨storedLevel_toNat level, feff_storedLevel level⟩⟩

/-! ### Scaling on the way in and out (R59, R60) -/

/-- The product of R59 at its largest, 255 by 256. -/
theorem scaleIn_product_le (ch b : Byte) : ch.toNat * feff b ≤ 65280 :=
  Nat.mul_le_mul (Nat.le_of_lt_succ ch.isLt) (feff_le b)

theorem scaleIn_one (ch : Byte) : scaleIn ch 1 = 0 := by
  rw [← BitVec.toNat_inj, scaleIn_toNat]
  exact Nat.div_eq_of_lt (by simpa [feff] using ch.isLt)

/-- Settles O19: no narrowing of the product loses a bit, and the quotient by 256 stays below the factor. -/
theorem writeSideScaling : Obligations.WriteSideScaling := by
  unfold Obligations.WriteSideScaling
  refine ⟨fun ch b => ⟨?_, scaleIn_product_le ch b, Nat.le_sub_one_of_lt (scaleIn_lt ch b), scaleIn_zero ch,
    scaleIn_one ch⟩, by decide⟩
  rw [scaleIn_toNat, Nat.shiftRight_eq_div_pow]

/-- `min(255, ...)` fits a byte (R60, R61). -/
theorem toNat_ofNat_min (k : Nat) : (BitVec.ofNat 8 (min 255 k)).toNat = min 255 k := by
  rw [BitVec.toNat_ofNat, Nat.mod_eq_of_lt (by omega)]

/-- Under R64 the quotient of R60 is below 256. -/
theorem scaleOut_quotient_lt {c b : Byte} (h : c.toNat < feff b) : (c.toNat <<< 8) / feff b < 256 := by
  rw [Nat.div_lt_iff_lt_mul (feff_pos b), Nat.shiftLeft_eq, Nat.mul_comm 256]
  exact Nat.mul_lt_mul_of_pos_right h (by norm_num)

/-- Both divisions round down, so reading back never answers more than was written (R60). -/
theorem scaleOut_scaleIn_le (c b : Byte) : (scaleOut (scaleIn c b) b).toNat ≤ c.toNat := by
  rw [scaleOut_toNat (scaleIn_lt c b), scaleIn_toNat]
  calc c.toNat * feff b / 256 * 256 / feff b ≤ c.toNat * feff b / feff b :=
        Nat.div_le_div_right (Nat.div_mul_le_self _ _)
    _ = c.toNat := Nat.mul_div_cancel _ (feff_pos b)

theorem zero_scaleOut (b : Byte) : scaleOut 0 b = 0 := by
  rw [← BitVec.toNat_inj, scaleOut_toNat (c := 0) (feff_pos b)]
  simp

/-- Settles O20: the bounds by the two roundings; writing 1 at the lowest brightness reads back 0. -/
theorem readSideScaling : Obligations.ReadSideScaling := by
  unfold Obligations.ReadSideScaling
  exact ⟨fun c b => ⟨toNat_ofNat_min _, scaleOut_zero c, fun h => scaleOut_quotient_lt (lt_feff_of_le h),
    scaleOut_scaleIn_le c b, zero_scaleOut b⟩, ⟨1, 1, by decide⟩, by decide⟩

/-! ### Rescaling (R61) -/

/-- The "widened intermediate" of R61 has 24 bits. -/
theorem rescale_intermediate_lt (c bold bnew : Byte) : c.toNat * rescaleFactor bold bnew < 2 ^ 24 :=
  calc c.toNat * rescaleFactor bold bnew ≤ 255 * 65535 :=
        Nat.mul_le_mul (Nat.le_of_lt_succ c.isLt) (rescaleFactor_le bold bnew)
    _ < 2 ^ 24 := by norm_num

/-- From the sentinel the multiplier is the new factor (R61). -/
theorem rescaleFactor_from_zero {bnew : Byte} (h : bnew ≠ 0) : rescaleFactor 0 bnew = feff bnew := by
  have hlt := bnew.isLt
  rw [rescaleFactor, feff_zero, feff_of_ne_zero h, Nat.shiftLeft_eq, Nat.min_eq_right (by omega)]
  exact Nat.mul_div_cancel _ (by norm_num)

/-- To the sentinel the numerator is cut to 65535 (R61). -/
theorem rescaleFactor_to_zero (bold : Byte) : rescaleFactor bold 0 = 65535 / feff bold := rfl

/-- Settles O21: the bound of R64 on the old value carries over to the shifted product. -/
theorem rescaleMultiplier : Obligations.RescaleMultiplier := by
  unfold Obligations.RescaleMultiplier
  refine ⟨fun c bold bnew => ⟨rfl, rescaleFactor_le bold bnew, toNat_ofNat_min _,
    rescale_intermediate_lt c bold bnew, rescaleFactor_from_zero, rescaleFactor_to_zero bold, fun h => ?_⟩,
    by decide⟩
  have hlt := lt_feff_of_le h
  rw [Nat.shiftRight_eq_div_pow]
  exact ⟨Nat.le_sub_one_of_lt (rescale_product_lt bnew hlt), Nat.le_sub_one_of_lt (rescale_lt bnew hlt)⟩

end Sys2Proof.Machine
end

section
/-! Proofs about the commands of the pixel buffer (R68 to R73): the word of each, what it answers in each situation,
and what that leaves of the memory. -/

namespace Sys2Proof.Machine

variable {s : State} {m : Memory}

/-- A buffer write in flight records its code and nothing else (R118, R124). -/
theorem raise_bufferWriteInFlight (hf : s.fault = 0) :
    s.raise .bufferWriteInFlight = { s with fault := 0x06 } := raise_of_no_fault hf _

/-! ### SETRGB (R68) -/

theorem setPixel_of_out_of_range {index : Index} (h : s.n.toNat ≤ index.toNat) (r g b : Byte) :
    setPixel index r g b s = .next s := by
  rcases setPixel_cases index r g b s with ⟨-, he⟩ | ⟨hi, -⟩ | ⟨hi, -⟩ | ⟨hi, -⟩
  · exact he
  all_goals omega

theorem setPixel_of_in_flight {index : Index} (hi : index.toNat < s.n.toNat) (hs : s.eng.state ≠ .idle)
    (r g b : Byte) : setPixel index r g b s = .next (s.raise .bufferWriteInFlight) := by
  rcases setPixel_cases index r g b s with ⟨ho, -⟩ | ⟨-, -, he⟩ | ⟨-, hidle, -⟩ | ⟨-, hidle, -⟩
  · omega
  · exact he
  all_goals exact absurd hidle hs

theorem setPixel_of_idle {index : Index} (hsize : s.n.toNat ≤ s.cfg.maxPixels) (hi : index.toNat < s.n.toNat)
    (hs : s.eng.state = .idle) (r g b : Byte) :
    setPixel index r g b s = .next { s with buf := writeSlot s.buf (slotBase index) s.brt r g b } := by
  rcases setPixel_cases index r g b s with ⟨ho, -⟩ | ⟨-, hf, -⟩ | ⟨-, -, ho, -⟩ | ⟨-, -, -, he⟩
  · omega
  · exact absurd hs hf
  · exact absurd (slot_in_buffer hsize hi) (by omega)
  · exact he

/-- The three roles of a written slot: green, red, blue (R33, R68). -/
theorem holdsBits_writeSlot (h : m.wf) (base : Nat) (brt r g b : Byte) :
    holdsBits (writeSlot m base brt r g b) base (scaleIn g brt) ∧
    holdsBits (writeSlot m base brt r g b) (base + 8) (scaleIn r brt) ∧
    holdsBits (writeSlot m base brt r g b) (base + 16) (scaleIn b brt) := by
  refine ⟨holdsBits_iff.2 fun i hi => ?_, holdsBits_iff.2 fun i hi => ?_, holdsBits_iff.2 fun i hi => ?_⟩
  · rw [read_writeSlot h, if_pos (by omega), Nat.add_sub_cancel_left]
  · rw [read_writeSlot h, if_neg (by omega), if_pos (by omega), Nat.add_sub_cancel_left]
  · rw [read_writeSlot h, if_neg (by omega), if_neg (by omega), if_pos (by omega), Nat.add_sub_cancel_left]

theorem sameOutside_writeSlot (h : m.wf) (base : Nat) (brt r g b : Byte) :
    sameOutside base (base + 24) m (writeSlot m base brt r g b) := fun a ha => by
  rw [read_writeSlot h, if_neg (by omega), if_neg (by omega), if_neg (by omega)]

/-- Writing the same colour again changes no byte (R68). -/
theorem writeSlot_writeSlot (h : m.wf) (base : Nat) (brt r g b : Byte) :
    writeSlot (writeSlot m base brt r g b) base brt r g b = writeSlot m base brt r g b := by
  have hw := wf_writeSlot h base brt r g b
  refine Memory.ext_of_wf (wf_writeSlot hw base brt r g b) hw fun a => ?_
  rw [read_writeSlot hw, read_writeSlot h]
  split_ifs <;> rfl

/-- The second of two equal SETRGB finds its slot as it would write it (R68). -/
theorem setPixel_again (hwf : s.buf.wf) {index : Index} (hsize : s.n.toNat ≤ s.cfg.maxPixels)
    (hi : index.toNat < s.n.toNat) (hs : s.eng.state = .idle) (r g b : Byte) :
    setPixel index r g b { s with buf := writeSlot s.buf (slotBase index) s.brt r g b } =
      .next { s with buf := writeSlot s.buf (slotBase index) s.brt r g b } := by
  rw [setPixel_of_idle (s := { s with buf := writeSlot s.buf (slotBase index) s.brt r g b }) hsize hi hs,
    writeSlot_writeSlot hwf]

/-- Settles O26: the three cases of `setPixel`, and the slot it writes read back byte by byte. -/
theorem setrgbStoresOneSlot : Obligations.SetrgbStoresOneSlot := by
  unfold Obligations.SetrgbStoresOneSlot
  refine ⟨fun w index r g b => ?_, fun s index r g b ho => setPixel_of_out_of_range ho r g b,
    fun s index r g b hi hs hf => ?_, fun s index r g b hwf hsize hi hs => ?_, fun index => rfl⟩
  · rw [append_bytes_eq_formatC]
    exact decode_eq_ok_iff_of_wf rfl
  · exact (setPixel_of_in_flight hi hs r g b).trans (congrArg _ (raise_bufferWriteInFlight hf))
  · obtain ⟨hg, hr, hb⟩ := holdsBits_writeSlot hwf (slotBase index) s.brt r g b
    refine ⟨_, setPixel_of_idle hsize hi hs r g b, ?_⟩
    dsimp only
    exact ⟨hg, hr, hb, sameOutside_writeSlot hwf _ _ _ _ _, rfl, setPixel_again hwf hsize hi hs r g b⟩

/-! ### SETPK (R69) -/

/-- Where SETRGB completes: in Idle, and out of range in every state (R68). -/
theorem setPixel_completes {index : Index} (hsize : s.n.toNat ≤ s.cfg.maxPixels)
    (hs : index.toNat < s.n.toNat → s.eng.state = .idle) (r g b : Byte) :
    ∃ t, setPixel index r g b s = .next t ∧ { t with buf := s.buf } = s := by
  by_cases hi : index.toNat < s.n.toNat
  · exact ⟨_, setPixel_of_idle hsize hi (hs hi) r g b, rfl⟩
  · exact ⟨s, setPixel_of_out_of_range (by omega) r g b, rfl⟩

/-- Settles O27: SETPK runs `setPixel` on the three bytes of its operand. -/
theorem setpkForwardsToSetrgb : Obligations.SetpkForwardsToSetrgb := by
  unfold Obligations.SetpkForwardsToSetrgb
  refine ⟨fun w index c => decode_eq_ok_iff_of_wf rfl, fun s index c => rfl, fun s index r g b => ?_,
    fun s index c hsize hs => setPixel_completes hsize hs _ _ _⟩
  show setPixel index _ _ _ s = setPixel index r g b s
  rw [redOf_packColour, greenOf_packColour, blueOf_packColour]

/-! ### GETPIX (R70) -/

theorem execGetpix_of_out_of_range {index : Index} (h : s.n.toNat ≤ index.toNat) :
    execGetpix index s = .next (s.respond 0x000000) :=
  if_neg (by simpa [State.inRange] using h)

theorem execGetpix_of_in_range {index : Index} (hsize : s.n.toNat ≤ s.cfg.maxPixels)
    (hi : index.toNat < s.n.toNat) :
    execGetpix index s = .next (s.respond (readSlot s.buf (slotBase index) s.order s.brt)) := by
  rw [execGetpix, if_pos (by simpa [State.inRange] using hi), withRange_of_le (slot_in_buffer hsize hi)]

/-- Settles O28: each order places the three logical bytes by its row of the table. -/
theorem getpixResponds : Obligations.GetpixResponds := by
  unfold Obligations.GetpixResponds
  refine ⟨fun w index => decode_eq_ok_iff_of_wf rfl, fun s index ho => execGetpix_of_out_of_range ho,
    fun s index l0 l1 l2 hsize hi h0 h1 h2 => ?_⟩
  subst h0 h1 h2
  refine (execGetpix_of_in_range hsize hi).trans (congrArg (fun v => Host.Outcome.next (s.respond v)) ?_)
  cases s.order <;> rfl

/-! ### CLEAR (R71) -/

theorem execClear_of_empty (h : s.n = 0) : execClear s = .next s := if_pos h

theorem execClear_of_in_flight (hn : s.n ≠ 0) (hs : s.eng.state ≠ .idle) :
    execClear s = .next (s.raise .bufferWriteInFlight) := by
  rw [execClear, if_neg hn, if_pos hs]

theorem execClear_of_idle (hsize : s.n.toNat ≤ s.cfg.maxPixels) (hn : s.n ≠ 0) (hs : s.eng.state = .idle) :
    execClear s = .next { s with buf := s.buf.zeroBelow s.validBytes } := by
  rw [execClear, if_neg hn, if_neg (not_not.2 hs), withRange_of_le (valid_in_buffer hsize)]

/-- Zeroing a zeroed region changes nothing (R71). -/
theorem zeroBelow_zeroBelow (m : Memory) (len : Nat) : (m.zeroBelow len).zeroBelow len = m.zeroBelow len := by
  simp [Memory.zeroBelow]

theorem execClear_again (hsize : s.n.toNat ≤ s.cfg.maxPixels) (hn : s.n ≠ 0) (hs : s.eng.state = .idle) :
    execClear { s with buf := s.buf.zeroBelow s.validBytes } =
      .next { s with buf := s.buf.zeroBelow s.validBytes } := by
  rw [execClear_of_idle (s := { s with buf := s.buf.zeroBelow s.validBytes }) hsize hn hs]
  exact congrArg (fun m => Host.Outcome.next { s with buf := m }) (zeroBelow_zeroBelow s.buf s.validBytes)

/-- Settles O29: the three cases of CLEAR, and the zeroed region read back. -/
theorem clearZeroesTheValidRegion : Obligations.ClearZeroesTheValidRegion := by
  unfold Obligations.ClearZeroesTheValidRegion
  refine ⟨fun w => decode_eq_ok_iff_of_wf rfl, fun s hn => execClear_of_empty hn, fun s hn hs hf => ?_,
    fun s hn hs hsize => ?_⟩
  · exact (execClear_of_in_flight hn hs).trans (congrArg _ (raise_bufferWriteInFlight hf))
  · refine ⟨_, execClear_of_idle hsize hn hs, fun a ha => ?_, fun a ha => ?_, rfl, ?_⟩
    · exact (Memory.read_zeroBelow s.buf _ a).trans (if_pos ha)
    · exact (Memory.read_zeroBelow s.buf _ a).trans (if_neg (Nat.not_lt.2 ha))
    · exact execClear_again hsize hn hs

/-! ### SETBRT (R72) -/

/-- The test of R72 in numbers. -/
theorem storedLevel_eq_iff {level b : Byte} : storedLevel level = b ↔ (level.toNat + 1) % 256 = b.toNat := by
  rw [← BitVec.toNat_inj, storedLevel_toNat]

theorem execSetbrt_of_same {level : Byte} (h : storedLevel level = s.brt) : execSetbrt level s = .next s := if_pos h

theorem execSetbrt_of_in_flight {level : Byte} (h : storedLevel level ≠ s.brt) (hn : s.n ≠ 0)
    (hs : s.eng.state ≠ .idle) : execSetbrt level s = .next (s.raise .bufferWriteInFlight) := by
  simp only [execSetbrt, if_neg h, if_pos (And.intro hn hs)]

theorem execSetbrt_of_idle {level : Byte} (hsize : s.n.toNat ≤ s.cfg.maxPixels) (h : storedLevel level ≠ s.brt)
    (hs : s.n = 0 ∨ s.eng.state = .idle) :
    execSetbrt level s = .next { s with
      buf := rescaleAll (rescaleFactor s.brt (storedLevel level)) s.buf s.n.toNat
      brt := storedLevel level } := by
  simp only [execSetbrt, if_neg h]
  rw [if_neg (by tauto), withRange_of_le (valid_in_buffer hsize)]

/-- Every channel value is stored again one bit per byte, rescaled once (R72). -/
theorem holdsBits_rescaleAll (h : m.wf) (factor : Nat) {n p k : Nat} (hp : p < n) (hk : k < 3) :
    holdsBits (rescaleAll factor m n) (24 * p + 8 * k) (rescale (collapse8 m (24 * p + 8 * k)) factor) := by
  rw [← collapse8_rescaleAll h factor hp hk]
  refine holdsBits_iff.2 fun i hi => read_eq_bitByte_collapse8 hi ?_
  rw [read_rescaleAll h, if_pos (by omega)]
  exact bitByte_binary _ _

/-- Settles O30: the three cases of SETBRT, and what its loops leave at each region of a slot. -/
theorem setbrtRescalesTheBuffer : Obligations.SetbrtRescalesTheBuffer := by
  unfold Obligations.SetbrtRescalesTheBuffer
  refine ⟨fun w level => ?_, fun s level he => execSetbrt_of_same (storedLevel_eq_iff.2 he),
    fun s level he hn hs hf => ?_, fun s level he hs hwf hsize => ?_⟩
  · rw [append_low_byte_eq_formatC]
    exact decode_eq_ok_iff_of_wf rfl
  · exact (execSetbrt_of_in_flight (mt storedLevel_eq_iff.1 he) hn hs).trans
      (congrArg _ (raise_bufferWriteInFlight hf))
  · refine ⟨_, execSetbrt_of_idle hsize (mt storedLevel_eq_iff.1 he) hs, storedLevel_toNat level,
      fun p hp k hk => holdsBits_rescaleAll hwf _ hp hk, fun a ha => ?_, rfl⟩
    exact (read_rescaleAll hwf _ _ a).trans (if_neg (Nat.not_lt.2 ha))

/-! ### NUMPIX (R73) -/

/-- Settles O31: widening by eight bits puts a zero byte in front. -/
theorem numpixResponds : Obligations.NumpixResponds := by
  unfold Obligations.NumpixResponds
  refine ⟨fun w => decode_eq_ok_iff_of_wf rfl, fun s => ?_⟩
  have hext : s.n.setWidth 24 = 0x00#8 ++ s.n := by
    rw [← BitVec.toNat_inj, toNat_append_add, BitVec.toNat_setWidth, Nat.mod_eq_of_lt (by omega)]
    simp
  show Host.Outcome.next (s.respond (s.n.setWidth 24)) = _
  rw [hext]
  rfl

end Sys2Proof.Machine
end

section
/-! Proofs about the engine, event by event (R83 to R92): what each event requests, what a request to each stream does,
the GPIO ports, IRQ_DMA, and the transitions of the state machine. -/

namespace Sys2Proof.Machine

variable {s t : State}

/-! ### The GPIO driver (R87 to R90) -/

/-- Settles O44: one equation per port, and the two values of GPIO.MODE. -/
theorem gpioPortsAndPin : Obligations.GpioPortsAndPin := by
  unfold Obligations.GpioPortsAndPin
  refine fun s d => ⟨rfl, rfl, rfl, rfl, rfl, fun hm => ?_, fun hm => ?_⟩
  · exact if_pos hm
  · exact if_neg (by simp [hm])

/-- Stream `H`'s write drives the line high (R87). -/
theorem gpioWrite_set_wHigh (s : State) :
    gpioWrite .set wHigh s = { s with gpio := { s.gpio with out := true } } := by
  rw [gpioWrite, portValue_set_high]

/-- Stream `L`'s write drives the line low (R89). -/
theorem gpioWrite_clr_wLow (s : State) :
    gpioWrite .clr wLow s = { s with gpio := { s.gpio with out := false } } := by
  rw [gpioWrite, portValue_clr_low]

/-- A binary byte on port `AND` keeps the line high exactly for 0x01 (R88, R90). -/
theorem gpioWrite_and_of_binary {d : Byte} (hd : d = 0x00 ∨ d = 0x01) (s : State) :
    gpioWrite .and d s = { s with gpio := { s.gpio with out := s.gpio.out && d == 0x01 } } := by
  have hbit : d.getLsbD 0 = (d == 0x01) := by rcases hd with rfl | rfl <;> decide
  rw [gpioWrite, portValue_and, hbit]

theorem high_bits_zero_of_binary {d : Byte} (hd : d = 0x00 ∨ d = 0x01) : d.extractLsb' 1 7 = 0 := by
  rcases hd with rfl | rfl <;> decide

/-! ### The count of a stream (R86) -/

theorem Stream.countDown_eq (x : Stream) :
    x.countDown = { x with cnt := x.cnt - 1, tcf := x.tcf || x.cnt == 1 } := by
  have hflag : (x.cnt - 1 == 0) = (x.cnt == 1) := by
    rw [Bool.eq_iff_iff, beq_iff_eq, beq_iff_eq, sub_eq_zero]
  rw [Stream.countDown, hflag]

/-- A transfer that is not the last one leaves the flag alone. -/
theorem Stream.countDown_of_more {x : Stream} (hc : x.cnt ≠ 1) :
    x.countDown = { x with cnt := x.cnt - 1 } := by
  rw [Stream.countDown_eq, beq_eq_false_iff_ne.2 hc, Bool.or_false]

/-- The last transfer sets the flag. -/
theorem Stream.countDown_of_last {x : Stream} (hc : x.cnt = 1) :
    x.countDown = { x with cnt := 0, tcf := true } := by
  rw [Stream.countDown_eq, hc, BitVec.sub_self, beq_self_eq_true, Bool.or_true]
  rfl

/-! ### A request to each stream (R86 to R89) -/

/-- The request that does the last transfer of stream `L` runs IRQ_DMA after the write and the count (R86, R91). -/
theorem dmaReq_l_of_last (hen : s.dma.l.en = true) (hc : s.dma.l.cnt = 1) :
    dmaReq .l s = .ok (irqDma { s with
      gpio := { s.gpio with out := false }
      dma := { s.dma with l := { s.dma.l with cnt := 0, tcf := true } } }) := by
  rw [dmaReq_l_last (Stream.not_drops_iff.2 ⟨hen, by simp [hc]⟩) hc, ← Stream.countDown_of_last hc,
    gpioWrite_clr_wLow]
  rfl

/-- Settles O43: a dropped request, then one transfer and one count for each stream. -/
theorem dmaRequestTransfersOnce : Obligations.DmaRequestTransfersOnce := by
  unfold Obligations.DmaRequestTransfersOnce
  refine fun s => ⟨fun i hdrop => dmaReq_drops (Stream.drops_iff.2 hdrop), fun hen hc => ?_,
    fun hen hc hsrc hbyte => ?_, fun hen hc hsrc hbyte => ?_, fun hen hc hmore => ?_, dmaReq_l_of_last⟩
  · rw [dmaReq_h (Stream.not_drops_iff.2 ⟨hen, hc⟩), ← Stream.countDown_eq, gpioWrite_set_wHigh]
    rfl
  · rw [dmaReq_d (Stream.not_drops_iff.2 ⟨hen, hc⟩) hsrc (high_bits_zero_of_binary hbyte), ← Stream.countDown_eq,
      gpioWrite_and_of_binary (d := nextByte s) hbyte]
    rfl
  · exact dmaReq_d_raises (Stream.not_drops_iff.2 ⟨hen, hc⟩) hsrc hbyte
  · rw [dmaReq_l_more (Stream.not_drops_iff.2 ⟨hen, hc⟩) hmore, ← Stream.countDown_of_more hmore,
      gpioWrite_clr_wLow]
    rfl

/-! ### IRQ_DMA (R91) -/

/-- R95 (a): in flight the completion flag is 0. -/
theorem EngineInv.tc_eq_false (h : EngineInv s) (hf : s.eng.state ≠ .idle) : s.eng.tc = false :=
  Bool.eq_false_iff.2 (mt h.tc.1 hf)

/-- Settles O45: the handler's own writes, the request that runs it, and R95 (a) and (e) on entry. -/
theorem dmaCompletionHandler : Obligations.DmaCompletionHandler := by
  unfold Obligations.DmaCompletionHandler
  refine ⟨fun s => rfl, fun s => dmaReq_l_of_last, fun s h hs => ?_⟩
  have hovf : s.eng.ovf = 0 := h.ovf (by simp [hs])
  exact ⟨hovf, hovf, h.tc_eq_false (by simp [hs])⟩

/-! ### The three events (R83 to R85) -/

theorem overflow_of_uie (hi : s.tim.uie = true) : overflow s = irqOvf s := if_pos hi

theorem overflow_of_not_uie (hi : s.tim.uie = false) : overflow s = s := if_neg (by simp [hi])

theorem updateEvent_of_ude (hd : s.tim.ude = true) (hr : dmaReq .h s = .ok t) :
    updateEvent s = .ok (overflow t) := by
  rw [updateEvent, if_pos hd, hr]

theorem updateEvent_of_not_ude (hd : s.tim.ude = false) : updateEvent s = .ok (overflow s) := by
  rw [updateEvent, if_neg (by simp [hd])]

theorem cc1Event_of_enabled (hd : s.tim.cc1de = true) : cc1Event s = dmaReq .d s := if_pos hd

theorem cc1Event_of_disabled (hd : s.tim.cc1de = false) : cc1Event s = .ok s := if_neg (by simp [hd])

theorem cc2Event_of_enabled (hd : s.tim.cc2de = true) : cc2Event s = dmaReq .l s := if_pos hd

theorem cc2Event_of_disabled (hd : s.tim.cc2de = false) : cc2Event s = .ok s := if_neg (by simp [hd])

/-- A request to stream `H` is always answered, and leaves the timer alone (R86, R87). -/
theorem dmaReq_h_answers (s : State) : ∃ t, dmaReq .h s = .ok t ∧ t.tim = s.tim := by
  cases hdr : s.dma.h.drops with
  | true => exact ⟨s, dmaReq_drops hdr, rfl⟩
  | false => exact ⟨_, dmaReq_h hdr, rfl⟩

/-- R95 (c) and (d): UPDATE's two effects exclude each other. -/
theorem EngineInv.not_ude_and_uie (h : EngineInv s) : ¬ (s.tim.ude = true ∧ s.tim.uie = true) := by
  rintro ⟨hude, huie⟩
  cases (h.lines.1.1 hude).symm.trans (h.uie.1 huie)

/-- R95 (c): outside Transmitting the two compare events request nothing. -/
theorem EngineInv.compare_lines_off (h : EngineInv s) (hs : s.eng.state ≠ .transmitting) :
    s.tim.cc1de = false ∧ s.tim.cc2de = false :=
  ⟨Bool.eq_false_iff.2 (mt h.lines.2.1.1 hs), Bool.eq_false_iff.2 (mt h.lines.2.2.1 hs)⟩

/-- R95 (b): in Idle the timer is stopped. -/
theorem EngineInv.run_eq_false (h : EngineInv s) (hs : s.eng.state = .idle) : s.tim.run = false :=
  Bool.eq_false_iff.2 fun hrun => h.run.1 hrun hs

/-- Settles O42: the two halves of UPDATE by their enables, the compare events by theirs, and R95 (b) to (d). -/
theorem eventsRequestTheirStreams : Obligations.EventsRequestTheirStreams := by
  unfold Obligations.EventsRequestTheirStreams
  refine ⟨fun s => ⟨fun hd hi => ?_, fun hd hi => ?_, fun hd hi => ?_, fun t hd hi hr => ?_, cc1Event_of_enabled,
    cc1Event_of_disabled, cc2Event_of_enabled, cc2Event_of_disabled⟩,
    fun s h => ⟨h.not_ude_and_uie, fun hs => ?_, h.run_eq_false⟩⟩
  · obtain ⟨t, hr, htim⟩ := dmaReq_h_answers s
    rw [updateEvent_of_ude hd hr, overflow_of_not_uie (by rw [htim, hi]), hr]
  · rw [updateEvent_of_not_ude hd, overflow_of_uie hi]
  · rw [updateEvent_of_not_ude hd, overflow_of_not_uie hi]
  · obtain ⟨u, hu, htim⟩ := dmaReq_h_answers s
    cases hu.symm.trans hr
    rw [updateEvent_of_ude hd hr, overflow_of_uie (by rw [htim, hi])]
  · obtain ⟨hcc1, hcc2⟩ := h.compare_lines_off (by simp [hs])
    exact ⟨cc1Event_of_disabled hcc1, cc2Event_of_disabled hcc2⟩

/-! ### The transitions of the state machine (R92) -/

theorem raise_state (s : State) (f : ModelFault) : (s.raise f).eng.state = s.eng.state := by rw [raise_eng]

theorem setPixel_state {index : Index} {r g b : Byte} (h : setPixel index r g b s = .next t) :
    t.eng.state = s.eng.state := by
  rcases setPixel_next h with ⟨-, rfl⟩ | ⟨-, -, rfl⟩ | ⟨-, -, -, rfl⟩
  · rfl
  · exact raise_state s _
  · rfl

/-- No command but SHOW changes `ENG.STATE`. -/
theorem exec_state_of_not_show {i : Instr} (h : exec i s = .next t) (hi : i ≠ .show_) :
    t.eng.state = s.eng.state := by
  cases i with
  | strip n tf =>
    rcases execStrip_next h with ⟨-, rfl⟩ | ⟨-, rfl⟩
    · exact raise_state s _
    · rw [resize_eng]
  | ulen n =>
    rcases execUlen_next h with ⟨-, rfl⟩ | ⟨-, rfl⟩
    · exact raise_state s _
    · rw [resize_eng]
  | utype tf =>
    rcases execUtype_next h with ⟨-, rfl⟩ | ⟨-, rfl⟩
    · exact raise_state s _
    · rfl
  | begin_ =>
    rcases execBegin_next h with ⟨-, rfl⟩ | ⟨-, rfl⟩
    · exact raise_state s _
    · rfl
  | show_ => exact absurd rfl hi
  | poll =>
    cases h
    rfl
  | numpix =>
    cases h
    rfl
  | setrgb index r g b => exact setPixel_state h
  | setpk index c => exact setPixel_state h
  | getpix index =>
    rcases execGetpix_next h with ⟨-, -, rfl⟩ | ⟨-, rfl⟩
    · rfl
    · rfl
  | clear =>
    rcases execClear_next h with ⟨-, rfl⟩ | ⟨-, -, rfl⟩ | ⟨-, -, -, rfl⟩
    · rfl
    · exact raise_state s _
    · rfl
  | setbrt level =>
    rcases execSetbrt_next h with ⟨-, rfl⟩ | ⟨-, -, rfl⟩ | ⟨-, -, -, rfl⟩
    · rfl
    · exact raise_state s _
    · rfl

/-- SHOW changes `ENG.STATE` only by starting a frame (R80, R112). -/
theorem execShow_changes_state (h : execShow s = .next t) (hne : t.eng.state ≠ s.eng.state) :
    s.eng.state = .idle ∧ t.eng.state = .transmitting ∧ s.begun = true ∧ s.n ≠ 0 := by
  rcases execShow_next h with ⟨-, rfl⟩ | ⟨-, -, rfl⟩ | ⟨-, -, -, rfl⟩ | ⟨hn, hb, hs, rfl⟩
  · exact absurd rfl hne
  · exact absurd (raise_state s _) hne
  · exact absurd (raise_state s _) hne
  · exact ⟨hs, rfl, hb, hn⟩

/-- An accepted word changes `ENG.STATE` only where it is SHOW's and starts a frame. -/
theorem acceptWord_changes_state {w : CmdWord} (h : acceptWord w s = .next t) (hne : t.eng.state ≠ s.eng.state) :
    decode w = .ok .show_ ∧ s.eng.state = .idle ∧ t.eng.state = .transmitting ∧ s.begun = true ∧ s.n ≠ 0 := by
  rcases acceptWord_cases w s with ⟨i, hd, ha⟩ | ⟨-, ha⟩
  · have he : exec i s = .next t := ha.symm.trans h
    by_cases hi : i = .show_
    · subst hi
      exact ⟨hd, execShow_changes_state he hne⟩
    · exact absurd (exec_state_of_not_show he hi) hne
  · cases ha.symm.trans h
    exact absurd (raise_state s _) hne

/-- A TICK leaves Transmitting only at the falling edge of the last bit (R85, R91). -/
theorem tick_leaves_transmitting (h : Inv s) (hs : s.eng.state = .transmitting) (ht : tick s = .ok t)
    (hne : t.eng.state ≠ s.eng.state) :
    t.eng.state = .deadTime ∧ t.tim.cnt.toNat = s.cfg.c2Ticks ∧ s.dma.l.cnt = 1 := by
  rcases tick_transmitting h hs with
    ⟨-, -, hr⟩ | ⟨-, -, hr⟩ | ⟨-, -, -, hr⟩ | ⟨-, hcount, hlast, hr⟩ | ⟨-, -, -, -, hr⟩ <;>
    cases hr.symm.trans ht
  · exact absurd rfl hne
  · exact absurd rfl hne
  · exact absurd rfl hne
  · exact ⟨rfl, hcount, BitVec.eq_of_toNat_eq hlast⟩
  · exact absurd rfl hne

/-- A TICK leaves DeadTime only at the overflow that completes the count (R103). -/
theorem tick_leaves_deadTime (h : Inv s) (hs : s.eng.state = .deadTime) (ht : tick s = .ok t)
    (hne : t.eng.state ≠ s.eng.state) :
    t.eng.state = .idle ∧ s.tim.cnt.toNat + 1 = s.cfg.periodTicks ∧
      s.eng.ovf.toNat + 1 = s.cfg.deadOverflows := by
  rcases tick_deadTime h hs with ⟨hwrap, -, hr⟩ | ⟨-, -, hr⟩
  · rcases irqOvf_cases (advance s) with ⟨-, hi⟩ | ⟨hlast, hi⟩ <;> (rw [hr, hi] at ht; cases ht)
    · exact absurd rfl hne
    · have hadd : (s.eng.ovf + 1).toNat = s.eng.ovf.toNat + 1 := toNat_add_one_of_lt (by
        have := h.engine.ovfLt
        have := s.cfg.deadOverflows_le
        omega)
      exact ⟨rfl, hwrap, hadd.symm.trans hlast⟩
  · cases hr.symm.trans ht
    exact absurd rfl hne

/-- A clock edge of a state that meets the invariants: nothing in Idle, a TICK in flight. -/
theorem clockEdge_next (h : Inv s) (ht : clockEdge s = .next t) :
    (s.eng.state = .idle ∧ t = s) ∨ (s.eng.state ≠ .idle ∧ tick s = .ok t) := by
  by_cases hs : s.eng.state = .idle
  · cases (clockEdge_stopped (h.engine.run_eq_false hs)).symm.trans ht
    exact .inl ⟨hs, rfl⟩
  · obtain ⟨u, hu, -⟩ := tick_keeps_inv h hs
    cases (clockEdge_running (h.engine.run.2 hs) hu).symm.trans ht
    exact .inr ⟨hs, hu⟩

/-- A clock edge changes `ENG.STATE` only by the two transitions of a TICK. -/
theorem clockEdge_changes_state (h : Inv s) (ht : clockEdge s = .next t) (hne : t.eng.state ≠ s.eng.state) :
    (s.eng.state = .transmitting ∧ t.eng.state = .deadTime ∧ t.tim.cnt.toNat = s.cfg.c2Ticks ∧
      s.dma.l.cnt = 1) ∨
    (s.eng.state = .deadTime ∧ t.eng.state = .idle ∧ s.tim.cnt.toNat + 1 = s.cfg.periodTicks ∧
      s.eng.ovf.toNat + 1 = s.cfg.deadOverflows) := by
  rcases clockEdge_next h ht with ⟨-, rfl⟩ | ⟨hf, htick⟩
  · exact absurd rfl hne
  · cases hs : s.eng.state with
    | idle => exact absurd hs hf
    | transmitting => exact .inl ⟨rfl, tick_leaves_transmitting h hs htick hne⟩
    | deadTime => exact .inr ⟨rfl, tick_leaves_deadTime h hs htick hne⟩

/-- Settles O48: a step is a reset edge, an accepted word or a clock edge, and each has its own transitions. -/
theorem onlyThreeTransitions : Obligations.OnlyThreeTransitions := by
  unfold Obligations.OnlyThreeTransitions
  intro s t h hstep
  rcases step_cases s with ⟨he, hr⟩ | ⟨-, -, hr⟩ | ⟨w, he, -, hr⟩ | ⟨he, -, hr⟩
  · cases hr.symm.trans hstep
    exact ⟨fun _ => rfl, fun hne => absurd he hne⟩
  · cases hr.symm.trans hstep
  · refine ⟨fun hrst => absurd (he.symm.trans hrst) (by simp), fun _ hne => .inl ?_⟩
    obtain ⟨hshow, hidle, hsend, hbegun, hn⟩ := acceptWord_changes_state (hr.symm.trans hstep) hne
    exact ⟨hidle, hsend, hbegun, hn, w, he, hshow⟩
  · refine ⟨fun hrst => absurd (he.symm.trans hrst) (by simp), fun _ hne => .inr ?_⟩
    rcases clockEdge_changes_state h.takeEvent (hr.symm.trans hstep) hne with
      ⟨hs, hdead, hcount, hlast⟩ | ⟨hs, hidle, hwrap, hovf⟩
    · exact .inl ⟨hs, hdead, he, hcount, hlast⟩
    · exact .inr ⟨hs, hidle, he, hwrap, hovf⟩

end Sys2Proof.Machine
end

section

namespace Sys2Proof.Machine

variable {s t : State}

/-! ### IRQ_OVF (R103) -/

/-- R108: below `DEAD_OVERFLOWS` the increment of `ENG.OVF` does not wrap. -/
theorem toNat_ovf_add_one (h : s.eng.ovf.toNat < s.cfg.deadOverflows) :
    (s.eng.ovf + 1).toNat = s.eng.ovf.toNat + 1 :=
  toNat_add_one_of_lt (by
    have := s.cfg.deadOverflows_le
    omega)

theorem irqOvf_of_not_last (h : (s.eng.ovf + 1).toNat ≠ s.cfg.deadOverflows) : irqOvf s = countOverflow s :=
  if_neg h

theorem irqOvf_of_last (h : (s.eng.ovf + 1).toNat = s.cfg.deadOverflows) :
    irqOvf s = endDeadTime (countOverflow s) :=
  if_pos h

/-- UPDATE ends with IRQ_OVF where `TIM.UIE = 1`, after an answered request to stream `H`, which leaves
`TIM.UIE` alone (R83). -/
theorem updateEvent_runs_irqOvf_after_request (hi : s.tim.uie = true) (hd : s.tim.ude = true)
    (hr : dmaReq .h s = .ok t) : updateEvent s = .ok (irqOvf t) := by
  obtain ⟨u, hu, htim⟩ := dmaReq_h_answers s
  cases hu.symm.trans hr
  rw [updateEvent_of_ude hd hr, overflow_of_uie (by rw [htim, hi])]

/-- Settles O46: the count does not wrap, so the handler's test is on one more than the old count; UPDATE runs
it on the state after the request to stream `H`, or on its own where nothing is requested. -/
theorem timerOverflowHandler : Obligations.TimerOverflowHandler := by
  unfold Obligations.TimerOverflowHandler
  refine ⟨fun s hlt => ?_, fun s t hi hreq => ?_⟩
  · have hadd : (s.eng.ovf + 1).toNat = s.eng.ovf.toNat + 1 := toNat_ovf_add_one hlt
    refine ⟨fun hmore => ⟨countOverflow s, irqOvf_of_not_last (by rwa [hadd]), hadd, rfl⟩, fun hlast => ?_⟩
    rw [irqOvf_of_last (hadd.trans hlast)]
    rfl
  · rcases hreq with ⟨hd, hr⟩ | ⟨hd, rfl⟩
    · exact updateEvent_runs_irqOvf_after_request hi hd hr
    · rw [updateEvent_of_not_ude hd, overflow_of_uie hi]

end Sys2Proof.Machine
end

section
/-! Proofs about the strip controller (R111 to R113) and the packed colour (R116): the word of each command, what it
answers in each situation, and the registers BEGIN and SHOW leave behind. -/

namespace Sys2Proof.Machine

variable {s : State}

/-! ### BEGIN (R78, R111) -/

theorem execBegin_of_begun (hb : s.begun = true) : execBegin s = .next (s.raise .beginTwice) := if_pos hb

theorem execBegin_of_not_begun (hb : s.begun = false) :
    execBegin s = .next { hardwareInit 0 s with begun := true } :=
  if_neg (by simp [hb])

/-- The three timer parameters of R7 fit the 16-bit registers BEGIN writes them to (R78). -/
theorem timer_parameters_fit (c : Config) :
    (BitVec.ofNat 16 (c.periodTicks - 1)).toNat = c.periodTicks - 1 ∧
    (BitVec.ofNat 16 c.c1Ticks).toNat = c.c1Ticks ∧ (BitVec.ofNat 16 c.c2Ticks).toNat = c.c2Ticks := by
  have hp := c.periodTicks_le
  have hp3 := c.periodTicks_ge
  have h12 := c.c1Ticks_lt
  have h2p := c.c2Ticks_lt
  exact ⟨toNat_ofNat_of_lt (by omega), toNat_ofNat_of_lt (by omega), toNat_ofNat_of_lt (by omega)⟩

/-- Settles O32: the two branches of BEGIN; the configuration it writes loses nothing to the registers' width. -/
theorem beginBringsUp : Obligations.BeginBringsUp := by
  unfold Obligations.BeginBringsUp
  refine ⟨fun w => decode_eq_ok_iff_of_wf rfl, fun s hb hf => ?_, fun s hb => ?_⟩
  · exact (execBegin_of_begun hb).trans (congrArg _ (raise_of_no_fault hf _))
  · obtain ⟨harr, hccr1, hccr2⟩ := timer_parameters_fit s.cfg
    exact ⟨_, execBegin_of_not_begun hb, rfl, rfl, rfl, rfl, harr, hccr1, hccr2, rfl, rfl⟩

/-! ### SHOW (R80, R112) -/

theorem execShow_of_empty (hn : s.n = 0) : execShow s = .next s := if_pos hn

theorem execShow_of_not_begun (hn : s.n ≠ 0) (hb : s.begun = false) :
    execShow s = .next (s.raise .showBeforeBegin) := by
  rw [execShow, if_neg hn, if_pos hb]

theorem execShow_of_in_flight (hn : s.n ≠ 0) (hb : s.begun = true) (hs : s.eng.state ≠ .idle) :
    execShow s = .next (s.raise .sendWhileBusy) := by
  rcases execShow_cases s with ⟨h0, -⟩ | ⟨-, hnb, -⟩ | ⟨-, -, -, he⟩ | ⟨-, -, hidle, -⟩
  · exact absurd h0 hn
  · exact absurd (hb.symm.trans hnb) (by simp)
  · exact he
  · exact absurd hidle hs

theorem execShow_of_idle (hn : s.n ≠ 0) (hb : s.begun = true) (hs : s.eng.state = .idle) :
    execShow s = .next (hardwareSend 0 (BitVec.ofNat 21 s.validBytes) s) := by
  rcases execShow_cases s with ⟨h0, -⟩ | ⟨-, hnb, -⟩ | ⟨-, -, hbusy, -⟩ | ⟨-, -, -, he⟩
  · exact absurd h0 hn
  · exact absurd (hb.symm.trans hnb) (by simp)
  · exact absurd hs hbusy
  · exact he

/-- Settles O33: the four cases of SHOW; the frame's length `24 * N` fits the counters. -/
theorem showStartsAFrame : Obligations.ShowStartsAFrame := by
  unfold Obligations.ShowStartsAFrame
  refine ⟨fun w => decode_eq_ok_iff_of_wf rfl, fun s => rfl, fun s hn => execShow_of_empty hn,
    fun s hn hb hf => ?_, fun s hn hb hs hf => ?_, fun s hn hb hs => ?_⟩
  · exact (execShow_of_not_begun hn hb).trans (congrArg _ (raise_of_no_fault hf _))
  · exact (execShow_of_in_flight hn hb hs).trans (congrArg _ (raise_of_no_fault hf _))
  · exact ⟨BitVec.ofNat 21 s.validBytes, toNat_frameLength s, execShow_of_idle hn hb hs⟩

/-! ### POLL (R113) -/

theorem respond_inj {v v' : Colour} : s.respond v = s.respond v' ↔ v = v' := by
  refine ⟨fun h => ?_, congrArg s.respond⟩
  simpa using congrArg State.rsp h

theorem tcWord_eq_one_iff {tc : Bool} : tcWord tc = 0x000001 ↔ tc = true := by
  cases tc <;> decide

/-- POLL responds 1 exactly where the flag is set, whatever the engine's state. -/
theorem execPoll_eq_one_iff : execPoll s = .next (s.respond 0x000001) ↔ s.eng.tc = true := by
  rw [execPoll, Host.Outcome.next.injEq, respond_inj, tcWord_eq_one_iff]

/-- Settles O34: POLL's value is the flag, which R95 (a) ties to Idle. -/
theorem pollRespondsTheFlag : Obligations.PollRespondsTheFlag := by
  unfold Obligations.PollRespondsTheFlag
  exact ⟨fun w => decode_eq_ok_iff_of_wf rfl, fun s => rfl, fun s h => execPoll_eq_one_iff.trans h.tc⟩

/-! ### The packed colour (R116) -/

/-- `Color(r, g, b)` by shifts, as R116 writes it. -/
theorem packColour_toNat_or (r g b : Byte) :
    (packColour r g b).toNat = (r.toNat <<< 16) ||| (g.toNat <<< 8) ||| b.toNat := by
  rw [packColour, BitVec.toNat_append, BitVec.toNat_append, Nat.shiftLeft_or_distrib, ← Nat.shiftLeft_add]

/-- Settles O8: concatenation is shift and or, and each field is cut out where it was put. -/
theorem colourPacksAndUnpacks : Obligations.ColourPacksAndUnpacks := by
  unfold Obligations.ColourPacksAndUnpacks
  exact ⟨fun r g b => ⟨packColour_toNat_or r g b, redOf_packColour r g b, greenOf_packColour r g b,
    blueOf_packColour r g b⟩, by decide⟩

end Sys2Proof.Machine
end

section
/-! Proofs about the model faults (R118 to R125): which one each command records, and the byte that makes a clock edge
discard its whole TICK. -/

namespace Sys2Proof.Machine

variable {s u : State}

/-! ### What recording a code means (R118) -/

/-- The command whose answer in `s` is `r` completes with `code` in FAULT, and where `code` is a fault's it changes
nothing else. -/
def Records (s : State) (r : Result) (code : BitVec 8) : Prop :=
  ∃ t, r = .next t ∧ t.fault = code ∧ (code ≠ 0x00 → t = { s with fault := code })

/-- A command that leaves FAULT at 0 records nothing. -/
theorem records_none (hf : s.fault = 0x00) (hu : u.fault = s.fault) : Records s (.next u) 0x00 :=
  ⟨u, rfl, hu.trans hf, fun hne => absurd rfl hne⟩

/-- A command that raises a model fault records its code. -/
theorem records_raise (hf : s.fault = 0x00) (f : ModelFault) : Records s (.next (s.raise f)) f.code := by
  rw [raise_of_no_fault hf]
  exact ⟨_, rfl, rfl, fun _ => rfl⟩

/-! ### The commands (R120 to R124) -/

/-- A command that is legal before BEGIN only (R121, R122). -/
theorem records_of_begun (hf : s.fault = 0x00) (f : ModelFault) (hu : u.fault = s.fault) :
    Records s (if s.begun then .next (s.raise f) else .next u) (if s.begun then f.code else 0x00) := by
  by_cases hb : s.begun = true
  · rw [if_pos hb, if_pos hb]
    exact records_raise hf f
  · rw [if_neg hb, if_neg hb]
    exact records_none hf hu

theorem faultOfTable_show (s : State) : faultOfTable .show_ s =
    if s.n = 0 then 0x00
    else if s.begun = false then 0x02
    else if s.eng.state = .idle then 0x00 else 0x05 := rfl

/-- SHOW: before BEGIN ShowBeforeBegin, while busy SendWhileBusy, and neither on an empty strip (R120, R123). -/
theorem execShow_records (hf : s.fault = 0x00) : Records s (execShow s) (faultOfTable .show_ s) := by
  rcases execShow_cases s with ⟨hn, he⟩ | ⟨hn, hb, he⟩ | ⟨hn, hb, hs, he⟩ | ⟨hn, hb, hs, he⟩ <;> rw [he]
  · rw [faultOfTable_show, if_pos hn]
    exact records_none hf rfl
  · rw [faultOfTable_show, if_neg hn, if_pos hb]
    exact records_raise hf .showBeforeBegin
  · rw [faultOfTable_show, if_neg hn, if_neg (by simp [hb]), if_neg hs]
    exact records_raise hf .sendWhileBusy
  · rw [faultOfTable_show, if_neg hn, if_neg (by simp [hb]), if_pos hs]
    exact records_none hf (hardwareSend_fault s _ _)

/-- SETRGB and SETPK in flight raise the fault for an index in range only (R124). -/
theorem setPixel_records (hf : s.fault = 0x00) (hsize : s.n.toNat ≤ s.cfg.maxPixels) (index : Index) (r g b : Byte) :
    Records s (setPixel index r g b s)
      (if index.toNat < s.n.toNat ∧ s.eng.state ≠ .idle then 0x06 else 0x00) := by
  by_cases hi : index.toNat < s.n.toNat
  · by_cases hs : s.eng.state = .idle
    · rw [setPixel_of_idle hsize hi hs, if_neg fun h => h.2 hs]
      exact records_none hf rfl
    · rw [setPixel_of_in_flight hi hs, if_pos ⟨hi, hs⟩]
      exact records_raise hf .bufferWriteInFlight
  · rw [setPixel_of_out_of_range (Nat.not_lt.1 hi), if_neg fun h => hi h.1]
    exact records_none hf rfl

/-- GETPIX only responds. -/
theorem execGetpix_records (hf : s.fault = 0x00) (hsize : s.n.toNat ≤ s.cfg.maxPixels) (index : Index) :
    Records s (execGetpix index s) 0x00 := by
  by_cases hi : index.toNat < s.n.toNat
  · rw [execGetpix_of_in_range hsize hi]
    exact records_none hf rfl
  · rw [execGetpix_of_out_of_range (Nat.not_lt.1 hi)]
    exact records_none hf rfl

theorem faultOfTable_clear (s : State) :
    faultOfTable .clear s = if s.n ≠ 0 ∧ s.eng.state ≠ .idle then 0x06 else 0x00 := rfl

/-- CLEAR in flight raises the fault except on an empty strip (R124). -/
theorem execClear_records (hf : s.fault = 0x00) (hsize : s.n.toNat ≤ s.cfg.maxPixels) :
    Records s (execClear s) (faultOfTable .clear s) := by
  rw [faultOfTable_clear]
  by_cases hn : s.n = 0
  · rw [execClear_of_empty hn, if_neg fun h => h.1 hn]
    exact records_none hf rfl
  · by_cases hs : s.eng.state = .idle
    · rw [execClear_of_idle hsize hn hs, if_neg fun h => h.2 hs]
      exact records_none hf rfl
    · rw [execClear_of_in_flight hn hs, if_pos ⟨hn, hs⟩]
      exact records_raise hf .bufferWriteInFlight

/-- The factor determines the stored brightness (R58). -/
theorem feff_injective : Function.Injective feff := by
  have hpred (b : Byte) : feff b = (b - 1).toNat + 1 := by
    rw [← feff_storedLevel, storedLevel, BitVec.sub_add_cancel]
  intro b c h
  rw [hpred, hpred, Nat.add_right_cancel_iff, BitVec.toNat_inj] at h
  exact sub_left_injective h

/-- SETBRT's test "the level is in force" (R72), as the table of R145 states it. -/
theorem level_in_force_iff {level b : Byte} : level.toNat + 1 = feff b ↔ storedLevel level = b := by
  rw [← feff_storedLevel, feff_injective.eq_iff]

theorem faultOfTable_setbrt (level : Byte) (s : State) : faultOfTable (.setbrt level) s =
    if storedLevel level = s.brt then 0x00
    else if s.n ≠ 0 ∧ s.eng.state ≠ .idle then 0x06 else 0x00 := by
  simp only [faultOfTable, level_in_force_iff]

/-- SETBRT in flight raises the fault except for the level in force and on an empty strip (R124). -/
theorem execSetbrt_records (hf : s.fault = 0x00) (hsize : s.n.toNat ≤ s.cfg.maxPixels) (level : Byte) :
    Records s (execSetbrt level s) (faultOfTable (.setbrt level) s) := by
  rw [faultOfTable_setbrt]
  by_cases hl : storedLevel level = s.brt
  · rw [execSetbrt_of_same hl, if_pos hl]
    exact records_none hf rfl
  · rw [if_neg hl]
    by_cases hw : s.n ≠ 0 ∧ s.eng.state ≠ .idle
    · rw [execSetbrt_of_in_flight hl hw.1 hw.2, if_pos hw]
      exact records_raise hf .bufferWriteInFlight
    · have hidle : s.n = 0 ∨ s.eng.state = .idle := by tauto
      rw [execSetbrt_of_idle hsize hl hidle, if_neg hw]
      exact records_none hf rfl

/-- Settles O37: each command by its own conditions, in the order of R139. -/
theorem faultOfEachCommand : Obligations.FaultOfEachCommand := by
  unfold Obligations.FaultOfEachCommand
  intro i s hf hsize
  show Records s (exec i s) (faultOfTable i s)
  cases i with
  | strip n tf => exact records_of_begun hf .reconfigAfterBegin (resize_fault _ n)
  | ulen n => exact records_of_begun hf .reconfigAfterBegin (resize_fault s n)
  | utype tf => exact records_of_begun hf .reconfigAfterBegin rfl
  | begin_ => exact records_of_begun hf .beginTwice rfl
  | show_ => exact execShow_records hf
  | poll => exact records_none hf rfl
  | numpix => exact records_none hf rfl
  | setrgb index r g b => exact setPixel_records hf hsize index r g b
  | setpk index c => exact setPixel_records hf hsize index _ _ _
  | getpix index => exact execGetpix_records hf hsize index
  | clear => exact execClear_records hf hsize
  | setbrt level => exact execSetbrt_records hf hsize level

/-! ### The discarded TICK (R125) -/

/-- The new count equals `TIM.CCR1` and is not 0: the TICK raises CC1 (R82). -/
theorem timerEvent_advance_cc1 (hz : nextCount s.tim ≠ 0) (hc : nextCount s.tim = s.tim.ccr1) :
    timerEvent (advance s).tim = .cc1 :=
  (if_neg hz).trans (if_pos hc)

/-- A clock edge in which a model fault is raised leaves the state before the TICK with the code in FAULT (R118). -/
theorem clockEdge_of_raised {f : ModelFault} (hrun : s.tim.run = true) (ht : tick s = .error (.raised f)) :
    clockEdge s = .next (s.raise f) := by
  rw [clockEdge, if_pos hrun, ht]
  rfl

/-- From a state that meets the invariants a clock edge raises nothing (R63, R125). -/
theorem Inv.clockEdge_fault (h : Inv s) (he : Machine.clockEdge s = .next u) : u.fault = s.fault := by
  rcases clockEdge_next h he with ⟨-, rfl⟩ | ⟨-, ht⟩
  · rfl
  · exact (TickFrame.tick ht).fault

/-- Settles O47: CC1 requests stream `D`, whose read raises the fault before the write and the count; under the
invariants every byte it reads is binary (R63). -/
theorem nonBinaryByteDiscardsTheTick : Obligations.NonBinaryByteDiscardsTheTick := by
  unfold Obligations.NonBinaryByteDiscardsTheTick
  refine ⟨fun s hf hrun hz hc hcc1 hen hcnt hsrc hbyte => ?_, fun s h => ?_⟩
  · have hreq : dmaReq .d (advance s) = .error (.raised .nonBinaryBufferByte) :=
      dmaReq_d_raises (Stream.not_drops_iff.2 ⟨hen, hcnt⟩) hsrc hbyte
    have htick : tick s = .error (.raised .nonBinaryBufferByte) := by
      rw [tick_cc1 (timerEvent_advance_cc1 hz hc), cc1Event_of_enabled (s := advance s) hcc1, hreq]
    rw [clockEdge_of_raised hrun htick, raise_of_no_fault hf]
    rfl
  · obtain ⟨t, ht, -⟩ := clockEdge_keeps_inv h
    exact ⟨t, ht, h.clockEdge_fault ht⟩

end Sys2Proof.Machine
end

section
/-! Proofs about reset (R141, R142): what a reset edge leaves, and the start of the model as such a state. -/

namespace Sys2Proof.Machine

variable {s t : State}

/-- A reset edge is taken in any state, one with a recorded fault included (R141). -/
theorem step_rst (hn : s.nextEvent = .rst) : step s = .next (resetEdge s.takeEvent) := by
  unfold step
  rw [hn]
  rfl

/-- The start of the model is a state a reset edge leaves: its memory and schedule are the ones it had. -/
theorem resetEdge_resetWith (cfg : Config) : resetEdge (State.resetWith cfg) = State.resetWith cfg := rfl

/-- The start of the model and the state after a scheduled reset are both what a reset edge leaves (R141). -/
theorem eq_resetEdge_of_reset
    (h : (s.nextEvent = .rst ∧ step s = .next t) ∨ ∃ cfg, t = State.resetWith cfg) :
    ∃ u, t = resetEdge u := by
  rcases h with ⟨hn, hstep⟩ | ⟨cfg, rfl⟩
  · cases (step_rst hn).symm.trans hstep
    exact ⟨s.takeEvent, rfl⟩
  · exact ⟨State.resetWith cfg, (resetEdge_resetWith cfg).symm⟩

/-- Settles O12: in both cases the state is `resetEdge u`, whose registers and pins have the listed values by
definition, whatever `u` held. -/
theorem resetValues : Obligations.ResetValues := by
  unfold Obligations.ResetValues
  intro s t h
  obtain ⟨u, rfl⟩ := eq_resetEdge_of_reset h
  and_intros <;> rfl

end Sys2Proof.Machine
end

section
/-! Proofs about the command word as a whole: its fields (R45), the opcode table as a decision procedure (R47), and
the two round trips between words and commands. -/

namespace Sys2Proof.Machine

/-- Settles O2: each cut of the word is a quotient or a remainder by a power of two. -/
theorem fieldsOfTheCommandWord : Obligations.FieldsOfTheCommandWord := by
  unfold Obligations.FieldsOfTheCommandWord
  exact fun w => ⟨fieldOpc_toNat w, fieldA_toNat w, fieldV_toNat w⟩

/-- Settles O4: each command's fields come back from its word. -/
theorem decodeOfEncode : Obligations.DecodeOfEncode := by
  unfold Obligations.DecodeOfEncode
  exact fun i h => decode_encode h

/-- Settles O5: each row of the decoder fixes every bit of the word that the command does not carry. -/
theorem encodeOfDecode : Obligations.EncodeOfDecode := by
  unfold Obligations.EncodeOfDecode
  exact fun w i h => wf_and_encode_of_decode h

/-- Settles O1: each word written out is the encoding of its command. -/
theorem specWordsDecode : Obligations.SpecWordsDecode := by
  unfold Obligations.SpecWordsDecode
  and_intros <;> rfl

/-! ### Matching a row is decoding (R47) -/

/-- A row whose must-be-zero bits lie together: a word that matches it has them zero, so it decodes. -/
theorem decodes_of_match {w mask pat : CmdWord} (lo k : Nat) {i : Instr} (hmatch : w &&& mask = pat)
    (hdec : decode w = needZero (w.extractLsb' lo k) i)
    (hmask : mask.extractLsb' lo k = BitVec.allOnes k := by decide)
    (hpat : pat.extractLsb' lo k = 0 := by decide) : ∃ j, decode w = .ok j :=
  ⟨i, by rw [hdec, bits_eq_of_match lo k hmask hmatch, hpat, needZero_zero]⟩

/-- STRIP's must-be-zero bits, cut from the whole word. -/
theorem fieldV_bits (w : CmdWord) : (fieldV w).extractLsb' 2 22 = w.extractLsb' 2 22 := by
  refine BitVec.eq_of_getLsbD_eq fun i hi => ?_
  simp [fieldV, hi]

/-- A word that matches a row decodes: its opcode selects the row's arm, and the arm's must-be-zero bits are zero. -/
theorem decodes_of_matches_row {w : CmdWord} {row : CmdWord × CmdWord} (hrow : row ∈ specTable)
    (h : w &&& row.2 = row.1) : ∃ j, decode w = .ok j := by
  have ho := fieldOpc_eq_of_match hrow h
  simp only [specTable, List.mem_cons, List.not_mem_nil, or_false] at hrow
  -- the rows in the order of R47; SETRGB and SETPK have no must-be-zero bits
  rcases hrow with rfl | rfl | rfl | rfl | rfl | rfl | rfl | rfl | rfl | rfl | rfl | rfl
  · exact decodes_of_match 2 22 h (by rw [← fieldV_bits, decode, ho]; rfl)
  · exact decodes_of_match 0 24 h (by rw [decode, ho]; rfl)
  · exact decodes_of_match 2 38 h (by rw [decode, ho]; rfl)
  · exact decodes_of_match 0 40 h (by rw [decode, ho]; rfl)
  · exact decodes_of_match 0 40 h (by rw [decode, ho]; rfl)
  · exact decodes_of_match 0 40 h (by rw [decode, ho]; rfl)
  · exact decodes_of_match 0 40 h (by rw [decode, ho]; rfl)
  · exact ⟨_, by rw [decode, ho]; rfl⟩
  · exact ⟨_, by rw [decode, ho]; rfl⟩
  · exact decodes_of_match 0 24 h (by rw [decode, ho]; rfl)
  · exact decodes_of_match 0 40 h (by rw [decode, ho]; rfl)
  · exact decodes_of_match 8 32 h (by rw [decode, ho]; rfl)

/-- The opcode names the row (R47). -/
theorem row_eq_of_opcode_eq : ∀ row ∈ specTable, ∀ row' ∈ specTable,
    fieldOpc row.1 = fieldOpc row'.1 → row = row' := by
  simp [specTable, fieldOpc]

/-- Settles O3: a matched row's must-be-zero bits are the decoder's, and `OPC`, inside every mask, keeps the rows
apart. -/
theorem decodeFollowsTheOpcodeTable : Obligations.DecodeFollowsTheOpcodeTable := by
  unfold Obligations.DecodeFollowsTheOpcodeTable
  refine ⟨fun w => ⟨?_, ?_⟩, fun w row hrow row' hrow' h h' => ?_,
    fun w i h => ⟨matches_row_of_decode h, opRow_mem_specTable i⟩⟩
  · rintro ⟨i, h⟩
    exact ⟨_, opRow_mem_specTable i, matches_row_of_decode h⟩
  · rintro ⟨row, hrow, h⟩
    exact decodes_of_matches_row hrow h
  · exact row_eq_of_opcode_eq row hrow row' hrow'
      ((fieldOpc_eq_of_match hrow h).symm.trans (fieldOpc_eq_of_match hrow' h'))

end Sys2Proof.Machine
end

section
/-! Proofs about the commands of construction (R65 to R67, R110): what `resize` leaves, and STRIP, ULEN and UTYPE before
and after BEGIN. -/

namespace Sys2Proof.Machine

variable {s : State} {n : Index}

/-! ### `resize` (R65) -/

theorem resize_of_gt (h : s.cfg.maxPixels < n.toNat) : resize n s = { s with n := 0 } := if_pos h

theorem resize_of_le (h : n.toNat ≤ s.cfg.maxPixels) :
    resize n s = { s with n := n, buf := s.buf.zeroBelow (24 * n.toNat) } :=
  if_neg (Nat.not_lt.2 h)

/-- The new valid region reads zero, and every byte above it as before (R65; log 6). -/
theorem reads_zeroBelow (m : Memory) (len : Nat) :
    (∀ a < len, (m.zeroBelow len).read a = 0x00) ∧ ∀ a, len ≤ a → (m.zeroBelow len).read a = m.read a :=
  ⟨fun a ha => (Memory.read_zeroBelow m len a).trans (if_pos ha),
    fun a ha => (Memory.read_zeroBelow m len a).trans (if_neg (Nat.not_lt.2 ha))⟩

/-- Settles O22: the two branches of `resize`; of two resizes the second zeroes its whole region. -/
theorem resizeZeroesOrFails : Obligations.ResizeZeroesOrFails := by
  unfold Obligations.ResizeZeroesOrFails
  refine ⟨fun n s h => resize_of_gt h, fun n s h => ?_, fun s h => ?_⟩
  · obtain ⟨hzero, hkept⟩ := reads_zeroBelow s.buf (24 * n.toNat)
    rw [resize_of_le h]
    exact ⟨rfl, hzero, hkept, rfl⟩
  · have h20 : (20 : Index).toNat ≤ (resize 5 s).cfg.maxPixels := by
      rw [resize_cfg]
      exact h
    rw [resize_of_le h20]
    exact ⟨rfl, (reads_zeroBelow _ 480).1⟩

/-! ### STRIP (R110) -/

theorem flags_ok_iff_high_bits_zero {tf : Byte} :
    (speedClassOk tf && flagsReservedOk tf) = true ↔ tf.extractLsb' 2 6 = 0 := by
  have := tf.isLt
  rw [flagsOk_iff, extractLsb'_eq_zero_iff]
  omega

/-- A word with an index and the lowest byte alone (R45, R46). -/
theorem append_index_low_byte_eq_formatC (o : BitVec 8) (a : Index) (l : Byte) :
    (o ++ a ++ 0x0000#16 ++ l : CmdWord) = formatC o a (packColour 0 0 l) := by
  rw [← BitVec.toNat_inj, formatC_toNat, packColour_zero_toNat]
  simp only [toNat_append_add, BitVec.toNat_ofNat]
  omega

/-- A command that is legal before BEGIN only, after BEGIN: the fault is recorded and nothing else (R122). -/
theorem reconfig_of_begun {u : State} (hb : s.begun = true) (hf : s.fault = 0x00) :
    (if s.begun then .next (s.raise .reconfigAfterBegin) else .next u : Result) = .next { s with fault := 0x04 } := by
  rw [if_pos hb, raise_of_no_fault hf]
  rfl

theorem execStrip_of_too_long (hb : s.begun = false) (h : s.cfg.maxPixels < n.toNat) (tf : Byte) :
    exec (.strip n tf) s = .next { s with order := orderOfFlags tf, brt := 0, n := 0 } :=
  (execStrip_of_not_begun hb n tf).trans (congrArg _ (resize_of_gt (s := { s with order := _, brt := 0 }) h))

theorem execStrip_of_fits (hb : s.begun = false) (h : n.toNat ≤ s.cfg.maxPixels) (tf : Byte) :
    exec (.strip n tf) s = .next { s with
      order := orderOfFlags tf, brt := 0, n := n, buf := s.buf.zeroBelow (24 * n.toNat) } :=
  (execStrip_of_not_begun hb n tf).trans (congrArg _ (resize_of_le (s := { s with order := _, brt := 0 }) h))

/-- Settles O23: STRIP writes the order and the brightness, then resizes. -/
theorem stripConstructs : Obligations.StripConstructs := by
  unfold Obligations.StripConstructs
  refine ⟨fun w n tf => ?_, fun s n tf hb hf => reconfig_of_begun hb hf,
    fun s n tf hb h => execStrip_of_too_long hb h tf, fun s n tf hb h => ?_⟩
  · rw [decode_eq_ok_iff, append_index_low_byte_eq_formatC]
    exact and_congr_left fun _ => flags_ok_iff_high_bits_zero
  · obtain ⟨hzero, hkept⟩ := reads_zeroBelow s.buf (24 * n.toNat)
    exact ⟨_, execStrip_of_fits hb h tf, rfl, code_ofCode _, rfl, hzero, hkept, rfl⟩

/-! ### ULEN (R66) -/

theorem execUlen_of_not_begun (hb : s.begun = false) (n : Index) : execUlen n s = .next (resize n s) :=
  if_neg (by simp [hb])

/-- Settles O24: ULEN is the resize alone. -/
theorem ulenResizes : Obligations.UlenResizes := by
  unfold Obligations.UlenResizes
  refine ⟨fun w n => decode_eq_ok_iff_of_wf rfl, fun s n hb hf => reconfig_of_begun hb hf, fun s n hb h => ?_,
    fun s n hb h => ?_⟩
  · exact (execUlen_of_not_begun hb n).trans (congrArg _ (resize_of_gt h))
  · obtain ⟨hzero, hkept⟩ := reads_zeroBelow s.buf (24 * n.toNat)
    exact ⟨_, (execUlen_of_not_begun hb n).trans (congrArg _ (resize_of_le h)), rfl, hzero, hkept, rfl⟩

/-! ### UTYPE (R67) -/

/-- Settles O25: UTYPE writes `ORDER` from `tf[1:0]`. -/
theorem utypeSetsTheOrder : Obligations.UtypeSetsTheOrder := by
  unfold Obligations.UtypeSetsTheOrder
  refine ⟨fun w tf => ?_, fun s tf hb hf => reconfig_of_begun hb hf,
    fun s tf hb => ⟨_, execUtype_of_not_begun hb tf, code_ofCode _, rfl⟩⟩
  rw [decode_eq_ok_iff, append_index_low_byte_eq_formatC]
  exact and_congr_left fun _ => flags_ok_iff_high_bits_zero

end Sys2Proof.Machine
end

section
/-! Proofs about one step (R5, R118, R141): which part of the model runs at each event, and what the state after reset
answers to each command (R144). -/

namespace Sys2Proof.Machine

variable {s u : State}

/-! ### The event that is next -/

/-- With no fault recorded, a command word that is next and decodes is executed on the state without its event. -/
theorem step_cmd {w : CmdWord} {i : Instr} (hf : s.fault = 0) (hn : s.nextEvent = .cmd w) (hd : decode w = .ok i) :
    step s = exec i s.takeEvent := by
  unfold step
  rw [hn]
  refine (if_pos hf).trans ?_
  rw [acceptWord, hd]

/-- Settles O9: the word in front of the schedule is the next event, whoever put it there. -/
theorem stepRunsTheDecodedCommand : Obligations.StepRunsTheDecodedCommand := by
  unfold Obligations.StepRunsTheDecodedCommand
  refine ⟨fun s w rest i hs hf hd => ?_, fun s w i hf hd => ?_⟩
  · rw [step_cmd hf (nextEvent_cons hs) hd, State.takeEvent, hs]
    rfl
  · have hw : BitVec.ofNat 48 (w.toNat % 2 ^ 48) = w := by
      rw [Nat.mod_eq_of_lt w.isLt, BitVec.ofNat_toNat, BitVec.setWidth_eq]
    rw [State.withFetchWord, hw]
    exact step_cmd (s := s.presentWord w) hf rfl hd

theorem nextEvent_eq_clk (h : s.schedule = [] ∨ ∃ rest, s.schedule = .clk :: rest) : s.nextEvent = .clk := by
  rcases h with h | ⟨rest, h⟩
  · exact nextEvent_nil h
  · exact nextEvent_cons h

/-- Settles O10: an empty schedule and a scheduled edge are the same event, and a clock edge by the outcome of its
TICK. -/
theorem stepAtAClockEdge : Obligations.StepAtAClockEdge := by
  unfold Obligations.StepAtAClockEdge
  intro s u hf hn hu
  have hstep : step s = clockEdge u := by
    rw [hu]
    exact step_clk hf (nextEvent_eq_clk hn)
  have hrun : u.tim.run = s.tim.run := by rw [hu]
  have hfault : u.fault = 0x00 := by rw [hu, hf]
  rw [hstep, ← hrun]
  refine ⟨clockEdge_stopped, fun _ => rfl, fun t => clockEdge_running, fun f hr ht => ?_⟩
  rw [clockEdge_of_raised hr ht, raise_of_no_fault hfault]

/-- A recorded fault stops every event but a reset edge (R118). -/
theorem step_stopped (hf : s.fault ≠ 0) (hn : s.nextEvent ≠ .rst) : step s = .fault (.stopped s.fault) := by
  rcases step_cases s with ⟨hr, -⟩ | ⟨-, -, he⟩ | ⟨w, -, h0, -⟩ | ⟨-, h0, -⟩
  · exact absurd hr hn
  · exact he
  · exact absurd h0 hf
  · exact absurd h0 hf

/-- Settles O11: `raise` by the two cases of its test, the stop by the cases of a step, the codes by definition. -/
theorem faultRecordIsWrittenOnceAndStops : Obligations.FaultRecordIsWrittenOnceAndStops := by
  unfold Obligations.FaultRecordIsWrittenOnceAndStops
  exact ⟨fun s f h => raise_of_no_fault h f, fun s f h => if_neg h, fun s hf hn => step_stopped hf hn,
    rfl, rfl, rfl, rfl, rfl, rfl, rfl⟩

/-! ### Reset -/

/-- Settles O13: the test of FAULT does not stand before a reset edge. -/
theorem resetEdgeInAnyState : Obligations.ResetEdgeInAnyState := by
  unfold Obligations.ResetEdgeInAnyState
  intro s rest hs
  rw [step_rst (nextEvent_cons hs), resetEdge, takeEvent_schedule, hs]
  rfl

/-- The start of the model meets the invariants: an absent buffer, an idle engine, nothing left to transfer. -/
theorem resetWith_inv (cfg : Config) : Inv (State.resetWith cfg) where
  buffer := {
    size := Nat.zero_le _
    canonical := Memory.wf_nil
    inside := by simp [State.resetWith]
    binary := by simp [State.resetWith, State.validBytes]
    channel := by simp [State.resetWith] }
  engine := EngineInv.of_idle rfl rfl rfl ⟨rfl, rfl, rfl⟩ ⟨rfl, rfl, rfl⟩ rfl rfl rfl rfl rfl
    (fun hb => by cases hb)
  frame := FrameInv.of_idle rfl ⟨rfl, rfl, rfl⟩

/-- Settles O49. -/
theorem resetMeetsTheInvariants : Obligations.ResetMeetsTheInvariants := by
  unfold Obligations.ResetMeetsTheInvariants
  exact resetWith_inv

/-! ### The reset state as the host sees it (R144) -/

theorem resetWith_size (cfg : Config) : (State.resetWith cfg).n.toNat ≤ (State.resetWith cfg).cfg.maxPixels :=
  Nat.zero_le _

/-- On the empty strip SETBRT has no channel value to rescale: only BRT changes. -/
theorem execSetbrt_resetWith (cfg : Config) (level : Byte) :
    execSetbrt level (State.resetWith cfg) = .next { State.resetWith cfg with brt := level + 1 } := by
  by_cases hl : storedLevel level = (State.resetWith cfg).brt
  · rw [execSetbrt_of_same hl]
    exact congrArg (fun b => Host.Outcome.next { State.resetWith cfg with brt := b }) hl.symm
  · rw [execSetbrt_of_idle (resetWith_size cfg) hl (.inl rfl)]
    rfl

/-- STRIP 0, GRB writes the values that reset left. -/
theorem execStrip_resetWith (cfg : Config) :
    exec (.strip 0 0x00) (State.resetWith cfg) = .next (State.resetWith cfg) := by
  rw [execStrip_of_fits rfl (Nat.zero_le _)]
  rfl

/-- Settles O14: with `N = 0` every index is out of range, and the writing commands have nothing to write. -/
theorem resetStateAsTheHostSeesIt : Obligations.ResetStateAsTheHostSeesIt := by
  unfold Obligations.ResetStateAsTheHostSeesIt
  intro cfg index r g b c level
  have hout : (State.resetWith cfg).n.toNat ≤ index.toNat := Nat.zero_le _
  exact ⟨rfl, rfl, execGetpix_of_out_of_range hout, execShow_of_empty rfl, setPixel_of_out_of_range hout r g b,
    setPixel_of_out_of_range hout (redOf c) (greenOf c) (blueOf c), execClear_of_empty rfl,
    execSetbrt_resetWith cfg level, execStrip_resetWith cfg⟩

/-! ### Accesses to addresses that do not exist (R31) -/

theorem withRange_of_gt {base len : Nat} (k : Result) (h : s.cfg.bufBytes < base + len) :
    s.withRange base len k = .fault .noSuchBufferAddress :=
  if_neg (Nat.not_le.2 h)

theorem execGetpix_outside {index : Index} (hi : index.toNat < s.n.toNat)
    (hout : s.cfg.bufBytes < slotBase index + 24) : execGetpix index s = .fault .noSuchBufferAddress := by
  rw [execGetpix, if_pos (by simpa [State.inRange] using hi), withRange_of_gt _ hout]

theorem setPixel_outside {index : Index} (hi : index.toNat < s.n.toNat) (hs : s.eng.state = .idle)
    (hout : s.cfg.bufBytes < slotBase index + 24) (r g b : Byte) :
    setPixel index r g b s = .fault .noSuchBufferAddress := by
  rcases setPixel_cases index r g b s with ⟨ho, -⟩ | ⟨-, hf, -⟩ | ⟨-, -, -, he⟩ | ⟨-, -, hin, -⟩
  · omega
  · exact absurd hs hf
  · exact he
  · omega

theorem execClear_outside (hn : s.n ≠ 0) (hs : s.eng.state = .idle) (hout : s.cfg.bufBytes < s.validBytes) :
    execClear s = .fault .noSuchBufferAddress := by
  rw [execClear, if_neg hn, if_neg (not_not.2 hs), withRange_of_gt _ (by omega)]

theorem execSetbrt_outside {level : Byte} (hl : storedLevel level ≠ s.brt) (hs : s.eng.state = .idle)
    (hout : s.cfg.bufBytes < s.validBytes) : execSetbrt level s = .fault .noSuchBufferAddress := by
  simp only [execSetbrt, if_neg hl, if_neg (show ¬(s.n ≠ 0 ∧ s.eng.state ≠ .idle) from fun h => h.2 hs)]
  exact withRange_of_gt _ (by omega)

/-- Stream `D` reads no address that does not exist: the whole TICK stops (R31; log 8). -/
theorem dmaReq_d_outside (h : s.dma.d.drops = false) (hout : s.cfg.bufBytes ≤ s.dma.src.toNat) :
    dmaReq .d s = .error .outside := by
  simp only [dmaReq, Dma.stream, h, transfer, transferD, if_neg (Nat.not_lt.2 hout), Bool.false_eq_true, if_false]

theorem clockEdge_of_outside (hrun : s.tim.run = true) (ht : tick s = .error .outside) :
    clockEdge s = .fault .noSuchBufferAddress := by
  rw [clockEdge, if_pos hrun, ht]
  rfl

/-- Settles O15: the range test of each access fails. -/
theorem accessOutsideTheBufferStops : Obligations.AccessOutsideTheBufferStops := by
  unfold Obligations.AccessOutsideTheBufferStops
  refine ⟨fun s index r g b c level => ⟨fun hi hout => ?_, fun hout hs => ?_⟩,
    fun s hrun hz hc hcc1 hen hcnt hsrc => ?_⟩
  · exact ⟨execGetpix_outside hi hout, fun hs => ⟨setPixel_outside hi hs hout r g b,
      setPixel_outside hi hs hout (redOf c) (greenOf c) (blueOf c)⟩⟩
  · have hn : s.n ≠ 0 := fun h0 => by simp [h0] at hout
    exact ⟨execClear_outside hn hs hout, fun hl => execSetbrt_outside hl hs hout⟩
  · have hreq : dmaReq .d (advance s) = .error .outside :=
      dmaReq_d_outside (Stream.not_drops_iff.2 ⟨hen, hcnt⟩) hsrc
    refine clockEdge_of_outside hrun ?_
    rw [tick_cc1 (timerEvent_advance_cc1 hz hc), cc1Event_of_enabled (s := advance s) hcc1, hreq]

end Sys2Proof.Machine
end

section
/-! Proofs about what the commands leave unchanged: the registers each one writes (R13), and a frame in flight, which no
command and no clock edge changes but for the engine's own progress (R43, R95 (g)). -/

namespace Sys2Proof.Machine

variable {s t : State}

/-! ### Which commands write which registers (R13) -/

/-- The column "written by" of R13 for one command that completes. -/
structure ExecFrame (i : Instr) (s t : State) : Prop where
  n : t.n ≠ s.n → (∃ n tf, i = .strip n tf) ∨ ∃ n, i = .ulen n
  order : t.order ≠ s.order → (∃ n tf, i = .strip n tf) ∨ ∃ tf, i = .utype tf
  brt : t.brt ≠ s.brt → (∃ n tf, i = .strip n tf) ∨ ∃ level, i = .setbrt level
  buf : t.buf ≠ s.buf → (∃ n tf, i = .strip n tf) ∨ (∃ n, i = .ulen n) ∨
    (∃ index r g b, i = .setrgb index r g b) ∨ (∃ index c, i = .setpk index c) ∨ i = .clear ∨ ∃ level, i = .setbrt level
  begun : t.begun ≠ s.begun → i = .begin_ ∧ t.begun = true
  gpio : t.gpio ≠ s.gpio → i = .begin_
  dma : t.dma ≠ s.dma → i = .show_
  tim : t.tim ≠ s.tim → i = .begin_ ∨ i = .show_
  eng : t.eng ≠ s.eng → i = .begin_ ∨ i = .show_
  cfg : t.cfg = s.cfg
  schedule : t.schedule = s.schedule

/-- A command that leaves every register but FAULT and the response port alone. -/
theorem ExecFrame.refl (i : Instr) (s : State) : ExecFrame i s s := by constructor <;> simp

theorem ExecFrame.raise (i : Instr) (s : State) (f : ModelFault) : ExecFrame i s (s.raise f) := by
  constructor <;> simp

theorem ExecFrame.respond (i : Instr) (s : State) (v : Colour) : ExecFrame i s (s.respond v) := by
  constructor <;> simp

/-- Each command by its next states. -/
theorem exec_frame {i : Instr} (h : exec i s = .next t) : ExecFrame i s t := by
  cases i with
  | strip n tf =>
    rcases execStrip_next h with ⟨-, rfl⟩ | ⟨-, rfl⟩
    · exact .raise _ s _
    · constructor <;> simp
  | ulen n =>
    rcases execUlen_next h with ⟨-, rfl⟩ | ⟨-, rfl⟩
    · exact .raise _ s _
    · constructor <;> simp
  | utype tf =>
    rcases execUtype_next h with ⟨-, rfl⟩ | ⟨-, rfl⟩
    · exact .raise _ s _
    · constructor <;> simp
  | begin_ =>
    rcases execBegin_next h with ⟨-, rfl⟩ | ⟨-, rfl⟩
    · exact .raise _ s _
    · constructor <;> simp
  | show_ =>
    rcases execShow_next h with ⟨-, rfl⟩ | ⟨-, -, rfl⟩ | ⟨-, -, -, rfl⟩ | ⟨-, -, -, rfl⟩
    · exact .refl _ t
    · exact .raise _ s _
    · exact .raise _ s _
    · constructor <;> simp
  | poll =>
    cases h
    exact .respond _ s _
  | numpix =>
    cases h
    exact .respond _ s _
  | setrgb index r g b =>
    rcases setPixel_next h with ⟨-, rfl⟩ | ⟨-, -, rfl⟩ | ⟨-, -, -, rfl⟩
    · exact .refl _ t
    · exact .raise _ s _
    · constructor <;> simp
  | setpk index c =>
    rcases setPixel_next h with ⟨-, rfl⟩ | ⟨-, -, rfl⟩ | ⟨-, -, -, rfl⟩
    · exact .refl _ t
    · exact .raise _ s _
    · constructor <;> simp
  | getpix index =>
    rcases execGetpix_next h with ⟨-, -, rfl⟩ | ⟨-, rfl⟩
    · exact .respond _ s _
    · exact .respond _ s _
  | clear =>
    rcases execClear_next h with ⟨-, rfl⟩ | ⟨-, -, rfl⟩ | ⟨-, -, -, rfl⟩
    · exact .refl _ t
    · exact .raise _ s _
    · constructor <;> simp
  | setbrt level =>
    rcases execSetbrt_next h with ⟨-, rfl⟩ | ⟨-, -, rfl⟩ | ⟨-, -, -, rfl⟩
    · exact .refl _ t
    · exact .raise _ s _
    · constructor <;> simp

/-- Settles O36: the frame of each command, register by register. -/
theorem writtenOnlyByItsCommands : Obligations.WrittenOnlyByItsCommands := by
  unfold Obligations.WrittenOnlyByItsCommands
  intro i s t h
  have hfr := exec_frame h
  exact ⟨hfr.n, hfr.order, hfr.brt, hfr.buf, hfr.begun, hfr.gpio, hfr.dma, hfr.tim, hfr.eng, hfr.cfg, hfr.schedule⟩

/-- No command raises the line: the GPIO driver is written by BEGIN alone, which drives it low (R78). -/
theorem exec_line {i : Instr} (h : exec i s = .next t) (hout : t.gpio.out = true) : s.gpio.out = true := by
  by_cases hg : t.gpio = s.gpio
  · rw [← hg, hout]
  · obtain rfl := (exec_frame h).gpio hg
    rcases execBegin_next h with ⟨-, rfl⟩ | ⟨-, rfl⟩
    · exact absurd (raise_gpio s _) hg
    · cases hout

/-! ### A frame in flight (R43, R95 (g)) -/

/-- `t` is `s` but for FAULT, the response port and the events to come. -/
def SameBlock (s t : State) : Prop := ∃ f r es, t = { s with fault := f, rsp := r, schedule := es }

theorem SameBlock.refl (s : State) : SameBlock s s := ⟨_, _, _, rfl⟩

theorem SameBlock.raise (s : State) (f : ModelFault) : SameBlock s (s.raise f) := by
  unfold State.raise
  split
  · exact ⟨_, _, _, rfl⟩
  · exact .refl s

theorem SameBlock.respond (s : State) (v : Colour) : SameBlock s (s.respond v) := ⟨_, _, _, rfl⟩

theorem SameBlock.of_takeEvent (h : SameBlock s.takeEvent t) : SameBlock s t := by
  obtain ⟨f, r, es, rfl⟩ := h
  exact ⟨f, r, es, rfl⟩

theorem setPixel_in_flight (hf : s.eng.state ≠ .idle) {index : Index} {r g b : Byte}
    (h : setPixel index r g b s = .next t) : SameBlock s t := by
  rcases setPixel_next h with ⟨-, rfl⟩ | ⟨-, -, rfl⟩ | ⟨-, hidle, -, -⟩
  · exact .refl t
  · exact .raise s _
  · exact absurd hidle hf

/-- In flight the strip is begun and not empty, so a command answers, does nothing, or records a fault (R145). -/
theorem exec_in_flight (h : EngineInv s) (hf : s.eng.state ≠ .idle) {i : Instr} (he : exec i s = .next t) :
    SameBlock s t := by
  obtain ⟨hb, hn, -⟩ := h.frame hf
  have hnb : s.begun ≠ false := by simp [hb]
  cases i with
  | strip n tf =>
    rcases execStrip_next he with ⟨-, rfl⟩ | ⟨hb', -⟩
    · exact .raise s _
    · exact absurd hb' hnb
  | ulen n =>
    rcases execUlen_next he with ⟨-, rfl⟩ | ⟨hb', -⟩
    · exact .raise s _
    · exact absurd hb' hnb
  | utype tf =>
    rcases execUtype_next he with ⟨-, rfl⟩ | ⟨hb', -⟩
    · exact .raise s _
    · exact absurd hb' hnb
  | begin_ =>
    rcases execBegin_next he with ⟨-, rfl⟩ | ⟨hb', -⟩
    · exact .raise s _
    · exact absurd hb' hnb
  | show_ =>
    rcases execShow_next he with ⟨-, rfl⟩ | ⟨-, -, rfl⟩ | ⟨-, -, -, rfl⟩ | ⟨-, -, hidle, -⟩
    · exact .refl t
    · exact .raise s _
    · exact .raise s _
    · exact absurd hidle hf
  | poll =>
    cases he
    exact .respond s _
  | numpix =>
    cases he
    exact .respond s _
  | setrgb index r g b => exact setPixel_in_flight hf he
  | setpk index c => exact setPixel_in_flight hf he
  | getpix index =>
    rcases execGetpix_next he with ⟨-, -, rfl⟩ | ⟨-, rfl⟩
    · exact .respond s _
    · exact .respond s _
  | clear =>
    rcases execClear_next he with ⟨-, rfl⟩ | ⟨-, -, rfl⟩ | ⟨-, hidle, -, -⟩
    · exact .refl t
    · exact .raise s _
    · exact absurd hidle hf
  | setbrt level =>
    rcases execSetbrt_next he with ⟨-, rfl⟩ | ⟨-, -, rfl⟩ | ⟨-, hidle, -, -⟩
    · exact .refl t
    · exact .raise s _
    · exact absurd ⟨hn, hf⟩ hidle

/-- Where an accepted word completes, the block executes a command or records that the word is reserved. -/
theorem acceptWord_next {w : CmdWord} (h : acceptWord w s = .next t) :
    (∃ i, decode w = .ok i ∧ exec i s = .next t) ∨ t = s.raise .illegalCommand := by
  rcases acceptWord_cases w s with ⟨i, hd, ha⟩ | ⟨-, ha⟩
  · exact .inl ⟨i, hd, ha.symm.trans h⟩
  · cases ha.symm.trans h
    exact .inr rfl

/-- A step that completes, by its event. -/
theorem step_next (h : step s = .next t) :
    (s.nextEvent = .rst ∧ t = resetEdge s.takeEvent) ∨
    (s.fault = 0 ∧ ∃ w, s.nextEvent = .cmd w ∧ acceptWord w s.takeEvent = .next t) ∨
    (s.fault = 0 ∧ s.nextEvent = .clk ∧ clockEdge s.takeEvent = .next t) := by
  rcases step_cases s with ⟨hn, he⟩ | ⟨-, -, he⟩ | ⟨w, hn, hf, he⟩ | ⟨hn, hf, he⟩
  · cases he.symm.trans h
    exact .inl ⟨hn, rfl⟩
  · cases he.symm.trans h
  · exact .inr (.inl ⟨hf, w, hn, he.symm.trans h⟩)
  · exact .inr (.inr ⟨hf, hn, he.symm.trans h⟩)

/-- Everything a step in flight does, reset apart: a TICK, or nothing to the block but to FAULT and the port. -/
theorem step_in_flight (h : Inv s) (hf : s.eng.state ≠ .idle) (hne : s.nextEvent ≠ .rst)
    (hstep : step s = .next t) :
    (s.nextEvent = .clk ∧ tick s.takeEvent = .ok t) ∨ (s.nextEvent ≠ .clk ∧ SameBlock s t) := by
  rcases step_next hstep with ⟨hn, -⟩ | ⟨-, w, hn, ha⟩ | ⟨-, hn, hc⟩
  · exact absurd hn hne
  · refine .inr ⟨by simp [hn], .of_takeEvent ?_⟩
    rcases acceptWord_next ha with ⟨i, -, he⟩ | rfl
    · exact exec_in_flight h.takeEvent.engine hf he
    · exact .raise _ _
  · rcases clockEdge_next h.takeEvent hc with ⟨hidle, -⟩ | ⟨-, ht⟩
    · exact absurd hidle hf
    · exact .inl ⟨hn, ht⟩

/-- In flight no step but a reset edge changes the buffer, the strip's registers or the frame's view. -/
theorem step_in_flight_frame (h : Inv s) (hf : s.eng.state ≠ .idle) (hne : s.nextEvent ≠ .rst)
    (hstep : step s = .next t) :
    t.buf = s.buf ∧ t.n = s.n ∧ t.brt = s.brt ∧ t.order = s.order ∧ t.begun = s.begun ∧ t.eng.ptr = s.eng.ptr ∧
    t.eng.len = s.eng.len := by
  rcases step_in_flight h hf hne hstep with ⟨-, ht⟩ | ⟨-, f, r, es, rfl⟩
  · have hfr := TickFrame.tick ht
    exact ⟨hfr.buf, hfr.n, hfr.brt, hfr.order, hfr.begun, hfr.ptr, hfr.len⟩
  · exact ⟨rfl, rfl, rfl, rfl, rfl, rfl, rfl⟩

/-- Settles O55: the frame of a TICK, and the commands in flight. -/
theorem bufferIsStableInFlight : Obligations.BufferIsStableInFlight := by
  unfold Obligations.BufferIsStableInFlight
  exact fun s t h hf hne hstep => step_in_flight_frame h hf hne hstep

end Sys2Proof.Machine
end

section
/-! Proofs about pairs of commands of the pixel buffer: what GETPIX reads right after SETRGB (R75), and dimming before
and after writing (U7, V42). -/

namespace Sys2Proof.Machine

variable {m : Memory}

/-! ### Reading back what was written (R75) -/

/-- Without scaling the three logical bytes of a written slot read back as green, red and blue. -/
theorem readRole_writeSlot_unscaled (h : m.wf) (base : Nat) (r g b : Byte) :
    readRole (writeSlot m base 0 r g b) base 0 0 = g ∧ readRole (writeSlot m base 0 r g b) base 1 0 = r ∧
    readRole (writeSlot m base 0 r g b) base 2 0 = b := by
  obtain ⟨hg, hr, hb⟩ := collapse8_writeSlot h base 0 r g b
  simp only [readRole, Nat.mul_zero, Nat.add_zero, Nat.mul_one, Nat.reduceMul, hg, hr, hb, scaleIn_zero,
    scaleOut_zero, and_self]

/-- Settles O38: SETRGB stores the roles, GETPIX reads the same slot, and each order picks the roles by its offsets. -/
theorem readBackPermutesTheRoles : Obligations.ReadBackPermutesTheRoles := by
  unfold Obligations.ReadBackPermutesTheRoles
  intro s index r g b hwf hsize hbrt hi hs
  obtain ⟨hg, hr, hb⟩ := readRole_writeSlot_unscaled hwf (slotBase index) r g b
  refine ⟨_, _, setPixel_of_idle hsize hi hs r g b,
    execGetpix_of_in_range (s := { s with buf := writeSlot s.buf (slotBase index) s.brt r g b }) hsize hi, ?_⟩
  dsimp only [respond_rsp]
  rw [hbrt]
  cases s.order <;> simp only [readSlot, rOff, gOff, bOff, hg, hr, hb]

/-! ### Dimming and writing (R59, R61, R68, R72) -/

/-- From the unscaled state the multiplier is the new factor, so rescaling is the scaling of the write side. -/
theorem rescale_from_unscaled {b : Byte} (hb : b ≠ 0) (c : Byte) : rescale c (rescaleFactor 0 b) = scaleIn c b := by
  have hlt : c.toNat < feff 0 := c.isLt
  refine BitVec.eq_of_toNat_eq ?_
  rw [rescale_toNat b hlt, rescaleFactor_from_zero hb, scaleIn_toNat]

/-- SETBRT's loops on one region of eight bytes. -/
theorem read_rescaleAll_region (h : m.wf) (factor : Nat) {n base a : Nat} (hbase : 8 ∣ base)
    (hn : base + 8 ≤ 24 * n) (ha : base ≤ a ∧ a < base + 8) :
    (rescaleAll factor m n).read a = bitByte (rescale (collapse8 m base) factor) (a - base) := by
  rw [read_rescaleAll h, if_pos (by omega), show 8 * (a / 8) = base by omega, show a % 8 = a - base by omega]

/-- Dimming a slot written without scaling leaves the slot as it is written after dimming. -/
theorem rescaleAll_writeSlot (h : m.wf) {b : Byte} (hb : b ≠ 0) {n p : Nat} (hp : p < n) (r g bl : Byte) :
    rescaleAll (rescaleFactor 0 b) (writeSlot m (24 * p) 0 r g bl) n =
      writeSlot (rescaleAll (rescaleFactor 0 b) m n) (24 * p) b r g bl := by
  have hw := wf_writeSlot h (24 * p) 0 r g bl
  have hr := wf_rescaleAll h (rescaleFactor 0 b) n
  obtain ⟨hg, hrd, hbl⟩ := collapse8_writeSlot h (24 * p) 0 r g bl
  refine Memory.ext_of_wf (wf_rescaleAll hw _ n) (wf_writeSlot hr _ _ _ _ _) fun a => ?_
  rw [read_writeSlot hr]
  split_ifs with h0 h1 h2
  · rw [read_rescaleAll_region hw _ (by omega) (by omega) h0, hg, scaleIn_zero, rescale_from_unscaled hb]
  · rw [read_rescaleAll_region hw _ (by omega) (by omega) h1, hrd, scaleIn_zero, rescale_from_unscaled hb]
  · rw [read_rescaleAll_region hw _ (by omega) (by omega) h2, hbl, scaleIn_zero, rescale_from_unscaled hb]
  · rw [read_rescaleAll hw, read_rescaleAll h, collapse8_writeSlot_of_disjoint h _ _ _ _ (by omega),
      read_writeSlot h, if_neg h0, if_neg h1, if_neg h2]

/-- Settles O39: out of range SETRGB does nothing, at level 255 SETBRT does nothing, and otherwise the slot and the
loops commute. -/
theorem dimmingCommutesWithWriting : Obligations.DimmingCommutesWithWriting := by
  unfold Obligations.DimmingCommutesWithWriting
  intro s index r g b level h hbrt hs
  by_cases hi : index.toNat < s.n.toNat
  · by_cases hl : storedLevel level = s.brt
    · exact ⟨_, s, _, setPixel_of_idle h.size hi hs r g b, execSetbrt_of_same hl, execSetbrt_of_same hl,
        setPixel_of_idle h.size hi hs r g b⟩
    · refine ⟨_, _, _, setPixel_of_idle h.size hi hs r g b,
        execSetbrt_of_idle (s := { s with buf := writeSlot s.buf (slotBase index) s.brt r g b }) h.size hl (.inr hs),
        execSetbrt_of_idle h.size hl (.inr hs), ?_⟩
      refine (setPixel_of_idle (s := { s with
        buf := rescaleAll (rescaleFactor s.brt (storedLevel level)) s.buf s.n.toNat
        brt := storedLevel level }) h.size hi hs r g b).trans ?_
      have hb : storedLevel level ≠ 0 := hbrt ▸ hl
      dsimp only
      rw [hbrt, slotBase, rescaleAll_writeSlot h.canonical hb hi]
  · obtain ⟨u, hu, hn⟩ : ∃ u, exec (.setbrt level) s = .next u ∧ u.n = s.n := by
      by_cases hl : storedLevel level = s.brt
      · exact ⟨s, execSetbrt_of_same hl, rfl⟩
      · exact ⟨_, execSetbrt_of_idle h.size hl (.inr hs), rfl⟩
    have hout : s.n.toNat ≤ index.toNat := Nat.not_lt.1 hi
    exact ⟨s, u, u, setPixel_of_out_of_range hout r g b, hu, hu, setPixel_of_out_of_range (hn ▸ hout) r g b⟩

end Sys2Proof.Machine
end

section
/-! Proofs about the choice of the event of a TICK (R82). -/

namespace Sys2Proof.Machine

variable {s : State}

theorem clockEdge_of_running (hrun : s.tim.run = true) : clockEdge s = settle s (tick s) := if_pos hrun

theorem timerEvent_update {x : Timer} (h0 : x.cnt = 0) : timerEvent x = .update := if_pos h0

theorem timerEvent_cc1 {x : Timer} (h0 : x.cnt ≠ 0) (h1 : x.cnt = x.ccr1) : timerEvent x = .cc1 :=
  (if_neg h0).trans (if_pos h1)

theorem timerEvent_cc2 {x : Timer} (h0 : x.cnt ≠ 0) (h1 : x.cnt ≠ x.ccr1) (h2 : x.cnt = x.ccr2) :
    timerEvent x = .cc2 :=
  (if_neg h0).trans ((if_neg h1).trans (if_pos h2))

theorem timerEvent_none {x : Timer} (h0 : x.cnt ≠ 0) (h1 : x.cnt ≠ x.ccr1) (h2 : x.cnt ≠ x.ccr2) :
    timerEvent x = .none :=
  (if_neg h0).trans ((if_neg h1).trans (if_neg h2))

/-- A count within the reload value advances modulo the period (R82). -/
theorem nextCount_toNat_mod {x : Timer} (h : x.cnt ≤ x.arr) :
    (nextCount x).toNat = (x.cnt.toNat + 1) % (x.arr.toNat + 1) := by
  have hle : x.cnt.toNat ≤ x.arr.toNat := h
  have harr := x.arr.isLt
  rw [nextCount_toNat (p := x.arr.toNat + 1) (by omega) rfl (by omega)]
  split_ifs with heq
  · rw [heq, Nat.mod_self]
  · rw [Nat.mod_eq_of_lt (by omega)]

/-- Settles O41: the advanced state is `advance s`, and its event the first of the three tests that holds. -/
theorem tickRaisesAtMostOneEvent : Obligations.TickRaisesAtMostOneEvent := by
  unfold Obligations.TickRaisesAtMostOneEvent
  intro s a hrun ha
  have hadv : a = advance s := ha
  subst hadv
  rw [clockEdge_of_running hrun]
  refine ⟨fun h0 => ?_, fun h0 h1 => ?_, fun h0 h1 h2 => ?_, fun h0 h1 h2 => ?_, nextCount_toNat_mod⟩
  · rw [tick_update (timerEvent_update h0)]
  · rw [tick_cc1 (timerEvent_cc1 h0 h1)]
  · rw [tick_cc2 (timerEvent_cc2 h0 h1 h2)]
  · rw [tick_none (timerEvent_none h0 h1 h2)]
    rfl

end Sys2Proof.Machine
end

section
/-! Proofs about every step and every run: the invariants are kept (R62 to R64, R95), a step completes where no fault is
recorded, and what follows of the states a run from reset reaches (R95, R98) and of a host that keeps the contract
(R146). -/

namespace Sys2Proof.Machine

variable {s t : State}

/-! ### One step -/

theorem Inv.clockEdge_frame (h : Inv s) (ht : Machine.clockEdge s = .next t) : TickFrame s t := by
  rcases clockEdge_next h ht with ⟨-, rfl⟩ | ⟨-, htick⟩
  · exact .refl t
  · exact .tick htick

theorem Inv.acceptWord {w : CmdWord} (h : Inv s) (ha : Machine.acceptWord w s = .next t) :
    Inv t ∧ t.cfg = s.cfg ∧ t.schedule = s.schedule := by
  rcases acceptWord_next ha with ⟨i, -, he⟩ | rfl
  · exact ⟨h.exec he, (exec_frame he).cfg, (exec_frame he).schedule⟩
  · exact ⟨h.raise _, raise_cfg s _, raise_schedule s _⟩

/-- Every step keeps the invariants and the parameters, and takes one event. -/
theorem Inv.step (h : Inv s) (hstep : Machine.step s = .next t) :
    Inv t ∧ t.cfg = s.cfg ∧ t.schedule = s.schedule.tail := by
  rcases step_next hstep with ⟨-, rfl⟩ | ⟨-, w, -, ha⟩ | ⟨-, -, hc⟩
  · exact ⟨resetEdge_inv h.takeEvent, rfl, rfl⟩
  · exact h.takeEvent.acceptWord ha
  · have hfr := h.takeEvent.clockEdge_frame hc
    exact ⟨h.takeEvent.clockEdge hc, hfr.cfg, hfr.schedule⟩

/-- Settles O50: a reset edge, an accepted word and a clock edge each keep the invariants. -/
theorem stepKeepsTheInvariants : Obligations.StepKeepsTheInvariants := by
  unfold Obligations.StepKeepsTheInvariants
  exact fun s t h hstep => h.step hstep

theorem acceptWord_completes (h : Inv s) (w : CmdWord) : ∃ t, acceptWord w s = .next t := by
  rcases acceptWord_cases w s with ⟨i, -, ha⟩ | ⟨-, ha⟩
  · obtain ⟨t, ht, -⟩ := exec_keeps_inv h i
    exact ⟨t, ha.trans ht⟩
  · exact ⟨_, ha⟩

/-- With FAULT 0 no event is stopped, and what each event runs completes under the invariants (R138). -/
theorem step_completes (h : Inv s) (hf : s.fault = 0x00) : ∃ t, step s = .next t := by
  rcases step_cases s with ⟨-, he⟩ | ⟨-, hf', -⟩ | ⟨w, -, -, he⟩ | ⟨-, -, he⟩
  · exact ⟨_, he⟩
  · exact absurd hf hf'
  · obtain ⟨t, ht⟩ := acceptWord_completes h.takeEvent w
    exact ⟨t, he.trans ht⟩
  · obtain ⟨t, ht, -⟩ := clockEdge_keeps_inv h.takeEvent
    exact ⟨t, he.trans ht⟩

/-- Settles O51: a reset edge always completes, a word and a clock edge do where FAULT is 0. -/
theorem stepsAlwaysComplete : Obligations.StepsAlwaysComplete := by
  unfold Obligations.StepsAlwaysComplete
  exact fun s h hf => step_completes h hf

/-! ### Runs -/

theorem runSteps_one (h : step s = .next t) : runSteps 1 s = .next t := by
  rw [runSteps_succ_of_step h, runSteps_zero]

/-- A run that completes, by its first step. -/
theorem runSteps_first {k : Nat} (h : runSteps (k + 1) s = .next t) :
    ∃ u, step s = .next u ∧ runSteps k u = .next t := by
  cases hs : step s with
  | next u => exact ⟨u, rfl, (runSteps_succ_of_step hs).symm.trans h⟩
  | fault r =>
    rw [runSteps_succ, hs] at h
    cases h
  | refused r =>
    rw [runSteps_succ, hs] at h
    cases h

/-- A run that completes, by its last step. -/
theorem runSteps_last {k : Nat} (h : runSteps (k + 1) s = .next t) :
    ∃ u, runSteps k s = .next u ∧ step u = .next t := by
  induction k generalizing s with
  | zero =>
    obtain ⟨u, hs, hu⟩ := runSteps_first h
    cases hu
    exact ⟨s, runSteps_zero s, hs⟩
  | succ k ih =>
    obtain ⟨v, hs, hv⟩ := runSteps_first h
    obtain ⟨u, hu, hlast⟩ := ih hv
    exact ⟨u, (runSteps_succ_of_step hs).trans hu, hlast⟩

/-- A run that is extended by a step. -/
theorem runSteps_snoc {k : Nat} {u : State} (hk : runSteps k s = .next u) (hstep : step u = .next t) :
    runSteps (k + 1) s = .next t := by
  rw [runSteps_add hk, runSteps_one hstep]

/-- A run keeps the invariants and the parameters, and takes one event per step. -/
theorem Inv.runSteps (h : Inv s) {k : Nat} (hr : Machine.runSteps k s = .next t) :
    Inv t ∧ t.cfg = s.cfg ∧ t.schedule = s.schedule.drop k := by
  induction k generalizing t with
  | zero =>
    cases hr
    exact ⟨h, rfl, rfl⟩
  | succ k ih =>
    obtain ⟨u, hu, hlast⟩ := runSteps_last hr
    obtain ⟨hi, hcfg, hsch⟩ := ih hu
    obtain ⟨hi', hcfg', hsch'⟩ := hi.step hlast
    exact ⟨hi', hcfg'.trans hcfg, by rw [hsch', hsch, List.tail_drop]⟩

/-- The start of the model with a program: a state that meets the invariants. -/
theorem start_inv (cfg : Config) (events : List Event) : Inv { State.resetWith cfg with schedule := events } :=
  (resetWith_inv cfg).congr rfl rfl rfl rfl rfl rfl rfl rfl rfl

theorem reachable_inv {cfg : Config} {events : List Event} {k : Nat}
    (hr : runSteps k { State.resetWith cfg with schedule := events } = .next t) : Inv t ∧ t.cfg = cfg := by
  obtain ⟨h, hcfg, -⟩ := (start_inv cfg events).runSteps hr
  exact ⟨h, hcfg⟩

/-- Settles O52: the buffer's invariants along a run from reset. -/
theorem reachableBuffers : Obligations.ReachableBuffers := by
  unfold Obligations.ReachableBuffers
  intro cfg events k t hr
  obtain ⟨h, rfl⟩ := reachable_inv hr
  exact ⟨rfl, h.buffer.canonical, h.buffer.size, h.buffer.binary,
    fun p hp k hk => Nat.le_sub_one_of_lt (h.buffer.channel p hp k hk)⟩

/-- The pin shows the latch exactly after BEGIN (R26, R95 (j)). -/
theorem EngineInv.dout_eq (h : EngineInv s) : s.dout = if s.begun then some s.gpio.out else none := by
  rw [State.dout, h.mode]

/-- Settles O54: the pin's mode follows BEGUN, and the latch is low outside Transmitting. -/
theorem pinOutsideAFrame : Obligations.PinOutsideAFrame := by
  unfold Obligations.PinOutsideAFrame
  intro cfg events k t hr
  obtain ⟨h, -⟩ := reachable_inv hr
  rw [h.engine.dout_eq]
  refine ⟨fun hb => ?_, fun hb => ?_, fun hb hs => ?_⟩
  · rw [hb]
    rfl
  · rw [hb]
    rfl
  · rw [hb, h.engine.low hs]
    rfl

/-! ### The frame in flight (R95 (g)) -/

/-- The frame in flight after `k` steps from `s` began with a SHOW that was accepted in Idle, and neither `N` nor the
memory has changed since. -/
def StartedByShow (s : State) (k : Nat) (t : State) : Prop :=
  ∃ j u, j < k ∧ runSteps j s = .next u ∧ u.eng.state = .idle ∧
    (∃ w, u.nextEvent = .cmd w ∧ decode w = .ok .show_) ∧ t.n = u.n ∧ t.buf = u.buf ∧
    ∀ m v, j < m → m ≤ k → runSteps m s = .next v → v.eng.state ≠ .idle ∧ v.n = u.n ∧ v.buf = u.buf

/-- A step from Idle into flight is a SHOW, which leaves `N` and the memory alone. -/
theorem step_leaves_idle (h : Inv s) (hs : s.eng.state = .idle) (hstep : step s = .next t)
    (hf : t.eng.state ≠ .idle) :
    (∃ w, s.nextEvent = .cmd w ∧ decode w = .ok .show_) ∧ t.n = s.n ∧ t.buf = s.buf := by
  rcases step_next hstep with ⟨-, rfl⟩ | ⟨-, w, hn, ha⟩ | ⟨-, -, hc⟩
  · exact absurd rfl hf
  · have hne : t.eng.state ≠ s.takeEvent.eng.state := fun he => hf (he.trans hs)
    obtain ⟨hd, -⟩ := acceptWord_changes_state ha hne
    rcases acceptWord_next ha with ⟨i, hi, he⟩ | rfl
    · cases hd.symm.trans hi
      refine ⟨⟨w, hn, hd⟩, ?_, ?_⟩
      · exact not_not.1 fun hn' => by simpa using (exec_frame he).n hn'
      · exact not_not.1 fun hb' => by simpa using (exec_frame he).buf hb'
    · exact absurd (raise_state _ _) hne
  · rcases clockEdge_next h.takeEvent hc with ⟨-, rfl⟩ | ⟨hf', -⟩
    · exact absurd hs hf
    · exact absurd hs hf'

/-- From an idle start, every frame in flight began with a SHOW. -/
theorem started_by_show (h : Inv s) (hs : s.eng.state = .idle) {k : Nat} (hr : runSteps k s = .next t)
    (hf : t.eng.state ≠ .idle) : StartedByShow s k t := by
  induction k generalizing t with
  | zero =>
    cases hr
    exact absurd hs hf
  | succ k ih =>
    obtain ⟨u, hu, hlast⟩ := runSteps_last hr
    have hinv := (h.runSteps hu).1
    by_cases hidle : u.eng.state = .idle
    · obtain ⟨hshow, hn, hbuf⟩ := step_leaves_idle hinv hidle hlast hf
      refine ⟨k, u, Nat.lt_succ_self k, hu, hidle, hshow, hn, hbuf, fun m v hjm hmk hv => ?_⟩
      obtain rfl : m = k + 1 := by omega
      cases hr.symm.trans hv
      exact ⟨hf, hn, hbuf⟩
    · have hne : u.nextEvent ≠ .rst := fun hn => by
        cases (step_rst hn).symm.trans hlast
        exact hf rfl
      obtain ⟨hbuf, hn, -⟩ := step_in_flight_frame hinv hidle hne hlast
      obtain ⟨j, w, hj, hw, hwidle, hshow, hnw, hbufw, hbetween⟩ := ih hu hidle
      refine ⟨j, w, by omega, hw, hwidle, hshow, hn.trans hnw, hbuf.trans hbufw, fun m v hjm hmk hv => ?_⟩
      by_cases hm : m = k + 1
      · subst hm
        cases hr.symm.trans hv
        exact ⟨hf, hn.trans hnw, hbuf.trans hbufw⟩
      · exact hbetween m v hjm (by omega) hv

/-- R95 (c): the six enables are one. -/
theorem EngineInv.enables_agree (h : EngineInv s) :
    s.tim.ude = s.tim.cc1de ∧ s.tim.cc1de = s.tim.cc2de ∧ s.tim.cc2de = s.dma.h.en ∧
      s.dma.h.en = s.dma.d.en ∧ s.dma.d.en = s.dma.l.en := by
  obtain ⟨hude, hcc1, hcc2⟩ := h.lines
  obtain ⟨henh, hend, henl⟩ := h.enables
  simp only [Bool.eq_iff_iff, hude, hcc1, hcc2, henh, hend, henl, and_self]

/-- R95 (f) in the order of the events (log 12). -/
theorem Inv.counts_ordered (h : Inv s) (hs : s.eng.state = .transmitting) :
    1 ≤ s.dma.l.cnt.toNat ∧ s.dma.h.cnt.toNat ≤ s.dma.d.cnt.toNat ∧ s.dma.d.cnt.toNat ≤ s.dma.l.cnt.toNat ∧
    s.dma.l.cnt.toNat ≤ s.dma.h.cnt.toNat + 1 ∧ s.dma.l.cnt.toNat ≤ s.eng.len.toNat ∧
    (s.tim.cnt.toNat < s.cfg.c2Ticks → s.dma.l.cnt.toNat = s.dma.h.cnt.toNat + 1) ∧
    (s.cfg.c2Ticks ≤ s.tim.cnt.toNat → s.dma.l.cnt = s.dma.d.cnt ∧ s.dma.d.cnt = s.dma.h.cnt) := by
  obtain ⟨hleft, hlen⟩ := h.frame.left hs
  rcases Nat.lt_or_ge s.tim.cnt.toNat s.cfg.c1Ticks with h1 | h1
  · obtain ⟨hh, hd, -⟩ := h.frame.early hs h1
    have := s.cfg.c1Ticks_lt
    rw [hd]
    exact ⟨hleft, by omega, by omega, by omega, hlen, fun _ => by omega, fun _ => by omega⟩
  · rcases Nat.lt_or_ge s.tim.cnt.toNat s.cfg.c2Ticks with h2 | h2
    · obtain ⟨hh, hd, -⟩ := h.frame.middle hs h1 h2
      rw [hd]
      exact ⟨hleft, by omega, by omega, by omega, hlen, fun _ => by omega, fun _ => by omega⟩
    · obtain ⟨hh, hd, -⟩ := h.frame.late hs h2
      rw [hh, hd]
      exact ⟨hleft, by omega, by omega, by omega, hlen, fun _ => by omega, fun _ => ⟨rfl, rfl⟩⟩

/-- R95 (f): `DMA[D].SRC = ENG.PTR + ENG.LEN - DMA[D].CNT`, in numbers. -/
theorem Inv.src_eq (h : Inv s) (hf : s.eng.state ≠ .idle) :
    s.dma.src.toNat = s.eng.ptr.toNat + s.eng.len.toNat - s.dma.d.cnt.toNat := by
  have hsrc := h.frame.src hf
  have hptr : s.eng.ptr.toNat = 0 := eq_zero_iff_toNat.1 h.engine.ptr
  omega

/-- Settles O53: the engine's and the frame's invariants along a run from reset, and the SHOW that started the frame. -/
theorem reachableEngines : Obligations.ReachableEngines := by
  unfold Obligations.ReachableEngines
  intro cfg events k s t hs hr
  subst hs
  obtain ⟨h, rfl⟩ := reachable_inv hr
  have heng := h.engine
  obtain ⟨hude, hcc1, hcc2, henh, hend⟩ := heng.enables_agree
  refine ⟨heng.tc, heng.run, ⟨hude, hcc1, hcc2, henh, hend, heng.lines.1⟩, heng.uie, heng.ovf, heng.ovfLt,
    fun ht => ?_, fun hf => ?_, fun ht hd => (h.src_lt ht hd).1, heng.low, fun hb => ?_,
    started_by_show (start_inv t.cfg events) rfl hr⟩
  · obtain ⟨h1, h2, h3, h4, h5, h6, h7⟩ := h.counts_ordered ht
    exact ⟨h1, h2, h3, h4, h5, h6, h7, h.src_eq (by simp [ht])⟩
  · obtain ⟨hb, hn, hlen⟩ := heng.frame hf
    exact ⟨hb, hn, heng.ptr, hlen⟩
  · exact ⟨h.idle_of_not_begun hb, heng.mode.trans hb⟩

/-! ### The contract of the host (R145, R146) -/

theorem faultOfTable_takeEvent (i : Instr) (s : State) : faultOfTable i s.takeEvent = faultOfTable i s := by
  cases i <;> rfl

/-- A step whose event keeps the contract raises nothing. -/
theorem step_keeps_contract (h : Inv s) (hf : s.fault = 0x00) (hk : keepsContract s.nextEvent s) :
    ∃ t, step s = .next t ∧ t.fault = 0x00 ∧ Inv t := by
  obtain ⟨t, ht⟩ := step_completes h hf
  refine ⟨t, ht, ?_, (h.step ht).1⟩
  rcases step_next ht with ⟨-, rfl⟩ | ⟨-, w, hn, ha⟩ | ⟨-, -, hc⟩
  · rfl
  · rw [hn] at hk
    obtain ⟨i, hd, htable⟩ := hk
    obtain ⟨u, hu, hcode, -⟩ := faultOfEachCommand i s.takeEvent hf h.buffer.size
    rw [faultOfTable_takeEvent, htable] at hcode
    rw [acceptWord, hd] at ha
    cases hu.symm.trans ha
    exact hcode
  · exact (h.takeEvent.clockEdge_fault hc).trans hf

/-- Settles O56: step by step, by induction on the length of the run. -/
theorem contractHostNeverFaults : Obligations.ContractHostNeverFaults := by
  unfold Obligations.ContractHostNeverFaults
  intro s k h hf hk
  induction k with
  | zero => exact ⟨s, runSteps_zero s, hf, h⟩
  | succ k ih =>
    obtain ⟨u, hu, hfu, hiu⟩ := ih fun j hj => hk j (by omega)
    obtain ⟨t, ht, hft, hit⟩ := step_keeps_contract hiu hfu (hk k (by omega) u hu)
    exact ⟨t, runSteps_snoc hu ht, hft, hit⟩

end Sys2Proof.Machine
end

section
/-! Proofs that channel order affects read-back only (R67, R153): from two states that differ in ORDER every command
takes the same branch, the engine does the same, and only STRIP, UTYPE and GETPIX say what ORDER has to do with it. -/

namespace Sys2Proof.Machine

variable {p : Prop}

/-- The same state with another channel order. -/
def State.withOrder (s : State) (o : Order) : State := { s with order := o }

/-- What R153 asks of the answers from two states that differ in ORDER alone: the same end, and next states that differ
in ORDER, and in the response where `reads`. -/
def Alike (reads : Prop) (r r' : Result) : Prop :=
  (∀ t, r = .next t → ∃ t', r' = .next t' ∧ { t' with order := t.order, rsp := t.rsp } = t ∧
    (t'.rsp ≠ t.rsp → reads)) ∧
  ∀ f, r = .fault f → r' = .fault f

theorem Alike.refl (p : Prop) (r : Result) : Alike p r r :=
  ⟨fun t h => ⟨t, h, rfl, fun hne => absurd rfl hne⟩, fun _ h => h⟩

/-- Next states that differ in ORDER alone. -/
theorem Alike.withOrder (p : Prop) (t : State) (o : Order) : Alike p (.next t) (.next (t.withOrder o)) :=
  ⟨fun u hu => by
    cases hu
    exact ⟨_, rfl, rfl, fun hne => absurd rfl hne⟩, fun f hf => by cases hf⟩

/-- Next states that differ in ORDER and the response. -/
theorem Alike.respond (hp : p) (s : State) (o : Order) (v v' : Colour) :
    Alike p (.next (s.respond v)) (.next ((s.withOrder o).respond v')) :=
  ⟨fun u hu => by
    cases hu
    exact ⟨_, rfl, rfl, fun _ => hp⟩, fun f hf => by cases hf⟩

/-- A test that does not see ORDER takes the same branch. -/
theorem Alike.ite {c : Prop} [Decidable c] {a a' b b' : Result} (ha : Alike p a a') (hb : Alike p b b') :
    Alike p (if c then a else b) (if c then a' else b') := by
  split
  · exact ha
  · exact hb

theorem Alike.weaken {q : Prop} {r r' : Result} (hpq : p → q) (h : Alike p r r') : Alike q r r' :=
  ⟨fun t ht => by
    obtain ⟨t', ht', heq, hrsp⟩ := h.1 t ht
    exact ⟨t', ht', heq, fun hne => hpq (hrsp hne)⟩, h.2⟩

theorem raise_withOrder (s : State) (o : Order) (f : ModelFault) : (s.raise f).withOrder o = (s.withOrder o).raise f :=
  apply_ite (State.withOrder · o) (s.fault = 0) _ s

theorem resize_withOrder (s : State) (o : Order) (n : Index) : (resize n s).withOrder o = resize n (s.withOrder o) :=
  apply_ite (State.withOrder · o) (s.cfg.maxPixels < n.toNat) _ _

theorem Alike.raise (p : Prop) (s : State) (o : Order) (f : ModelFault) :
    Alike p (.next (s.raise f)) (.next ((s.withOrder o).raise f)) := by
  rw [← raise_withOrder]
  exact .withOrder p _ o

/-! ### The commands -/

/-- The two states write the same bytes. -/
theorem Alike.withBuf (p : Prop) (s : State) (o : Order) (m : Memory) :
    Alike p (.next { s with buf := m }) (.next { s.withOrder o with buf := m }) :=
  .withOrder p { s with buf := m } o

theorem setPixel_alike (p : Prop) (index : Index) (r g b : Byte) (s : State) (o : Order) :
    Alike p (setPixel index r g b s) (setPixel index r g b (s.withOrder o)) :=
  .ite (.ite (.raise p s o _) (.ite (.withBuf p s o _) (.refl p _))) (.withOrder p s o)

/-- One command: the tests of R139 are on registers other than ORDER, so each branch by what it answers. -/
theorem exec_alike (i : Instr) (s : State) (o : Order) :
    Alike (∃ index, i = .getpix index) (exec i s) (exec i (s.withOrder o)) := by
  cases i with
  | strip n tf => exact .ite (.raise _ s o _) (.refl _ _)
  | ulen n =>
    refine .ite (.raise _ s o _) ?_
    rw [← resize_withOrder]
    exact .withOrder _ _ o
  | utype tf => exact .ite (.raise _ s o _) (.refl _ _)
  | begin_ => exact .ite (.raise _ s o _) (.withOrder _ _ o)
  | show_ =>
    exact .ite (.withOrder _ s o) (.ite (.raise _ s o _)
      (.ite (.withOrder _ s o) (.ite (.raise _ s o _) (.withOrder _ _ o))))
  | poll => exact .withOrder _ _ o
  | numpix => exact .withOrder _ _ o
  | setrgb index r g b => exact setPixel_alike _ index r g b s o
  | setpk index c => exact setPixel_alike _ index _ _ _ s o
  | getpix index =>
    exact .ite (.ite (.respond ⟨index, rfl⟩ s o _ _) (.refl _ _)) (.respond ⟨index, rfl⟩ s o _ _)
  | clear =>
    exact .ite (.withOrder _ s o) (.ite (.raise _ s o _) (.ite (.withBuf _ s o _) (.refl _ _)))
  | setbrt level =>
    exact .ite (.withOrder _ s o) (.ite (.raise _ s o _) (.ite (.withOrder _ _ o) (.refl _ _)))

/-! ### The engine -/

/-- What an event inside a TICK answers, with another channel order. -/
def Effect.withOrder (e : Effect) (o : Order) : Effect := e.map (·.withOrder o)

theorem Effect.ite_withOrder {c : Prop} [Decidable c] (a b : Effect) (o : Order) :
    (if c then a else b : Effect).withOrder o = if c then a.withOrder o else b.withOrder o :=
  apply_ite (Effect.withOrder · o) c a b

theorem transfer_withOrder (i : StreamId) (s : State) (o : Order) :
    (transfer i s).withOrder o = transfer i (s.withOrder o) := by
  cases i with
  | h => rfl
  | d =>
    simp only [transfer, transferD, Effect.ite_withOrder]
    rfl
  | l => rfl

theorem countTransfer_withOrder (i : StreamId) (s : State) (o : Order) :
    (countTransfer i s).withOrder o = countTransfer i (s.withOrder o) :=
  apply_ite (State.withOrder · o) (((countStream i s).dma.stream i).cnt = 0 ∧ i = .l) _ _

theorem dmaReq_withOrder (i : StreamId) (s : State) (o : Order) :
    (dmaReq i s).withOrder o = dmaReq i (s.withOrder o) := by
  by_cases hd : (s.dma.stream i).drops = true
  · rw [dmaReq_drops hd, dmaReq_drops (s := s.withOrder o) hd]
    rfl
  · rw [dmaReq, dmaReq, if_neg hd, if_neg (show ¬((s.withOrder o).dma.stream i).drops = true from hd),
      ← transfer_withOrder]
    cases transfer i s with
    | ok t => exact congrArg Except.ok (countTransfer_withOrder i t o)
    | error e => rfl

theorem irqOvf_withOrder (s : State) (o : Order) : (irqOvf s).withOrder o = irqOvf (s.withOrder o) :=
  apply_ite (State.withOrder · o) ((countOverflow s).eng.ovf.toNat = s.cfg.deadOverflows) _ _

theorem overflow_withOrder (s : State) (o : Order) : (overflow s).withOrder o = overflow (s.withOrder o) := by
  cases hu : s.tim.uie with
  | true => rw [overflow_of_uie hu, overflow_of_uie (s := s.withOrder o) hu, irqOvf_withOrder]
  | false => rw [overflow_of_not_uie hu, overflow_of_not_uie (s := s.withOrder o) hu]

theorem updateEvent_withOrder (s : State) (o : Order) :
    (updateEvent s).withOrder o = updateEvent (s.withOrder o) := by
  cases hd : s.tim.ude with
  | true =>
    obtain ⟨t, ht, -⟩ := dmaReq_h_answers s
    have ht' : dmaReq .h (s.withOrder o) = .ok (t.withOrder o) := by
      rw [← dmaReq_withOrder, ht]
      rfl
    rw [updateEvent_of_ude hd ht, updateEvent_of_ude (s := s.withOrder o) hd ht', ← overflow_withOrder]
    rfl
  | false =>
    rw [updateEvent_of_not_ude hd, updateEvent_of_not_ude (s := s.withOrder o) hd, ← overflow_withOrder]
    rfl

theorem cc1Event_withOrder (s : State) (o : Order) : (cc1Event s).withOrder o = cc1Event (s.withOrder o) := by
  rw [cc1Event, Effect.ite_withOrder, dmaReq_withOrder]
  rfl

theorem cc2Event_withOrder (s : State) (o : Order) : (cc2Event s).withOrder o = cc2Event (s.withOrder o) := by
  rw [cc2Event, Effect.ite_withOrder, dmaReq_withOrder]
  rfl

theorem tick_withOrder (s : State) (o : Order) : (tick s).withOrder o = tick (s.withOrder o) := by
  cases he : timerEvent (advance s).tim with
  | update =>
    rw [tick_update he, tick_update (s := s.withOrder o) he]
    exact updateEvent_withOrder (advance s) o
  | cc1 =>
    rw [tick_cc1 he, tick_cc1 (s := s.withOrder o) he]
    exact cc1Event_withOrder (advance s) o
  | cc2 =>
    rw [tick_cc2 he, tick_cc2 (s := s.withOrder o) he]
    exact cc2Event_withOrder (advance s) o
  | none =>
    rw [tick_none he, tick_none (s := s.withOrder o) he]
    rfl

theorem clockEdge_alike (p : Prop) (s : State) (o : Order) :
    Alike p (clockEdge s) (clockEdge (s.withOrder o)) := by
  refine .ite ?_ (.withOrder p s o)
  rw [← tick_withOrder]
  cases tick s with
  | ok t => exact .withOrder p t o
  | error e =>
    cases e with
    | raised f => exact .raise p s o f
    | outside => exact .refl p _

/-! ### One step -/

theorem acceptWord_alike (w : CmdWord) (s : State) (o : Order) :
    Alike (∃ index, decode w = .ok (.getpix index)) (acceptWord w s) (acceptWord w (s.withOrder o)) := by
  unfold acceptWord
  cases hd : decode w with
  | ok i =>
    refine (exec_alike i s o).weaken ?_
    rintro ⟨index, rfl⟩
    exact ⟨index, rfl⟩
  | error e => exact .raise _ s o _

/-- One event. A reset edge writes ORDER, so there the next states are the same. -/
theorem handleEvent_alike (e : Event) (s : State) (o : Order) :
    Alike (∃ w index, e = .cmd w ∧ decode w = .ok (.getpix index)) (handleEvent e s)
      (handleEvent e (s.withOrder o)) := by
  cases e with
  | cmd w =>
    refine .ite ((acceptWord_alike w s o).weaken ?_) (.refl _ _)
    rintro ⟨index, hd⟩
    exact ⟨w, index, rfl, hd⟩
  | clk => exact .ite (clockEdge_alike _ s o) (.refl _ _)
  | rst => exact .refl _ _

/-- Settles O40: the event and the state it finds do not depend on ORDER. -/
theorem orderAffectsOnlyReadBack : Obligations.OrderAffectsOnlyReadBack := by
  unfold Obligations.OrderAffectsOnlyReadBack
  exact fun s o => handleEvent_alike s.nextEvent s.takeEvent o

end Sys2Proof.Machine
end

section
/-! Proofs about a whole frame and its dead time (R77, R93, R94, R104 to R106): from SHOW along the schedule of R94
while the host waits and reads, and the dead time against every host. -/

namespace Sys2Proof.Machine

variable {s t u : State}

/-! ### From SHOW along the schedule (R80, R94) -/

/-- The state an effective SHOW leaves, the events after it still to come. -/
def shown (s : State) : State := hardwareSend 0 (BitVec.ofNat 21 s.validBytes) s.takeEvent

/-- What the statements about a whole frame start from: an idle, begun, non-empty strip, and a SHOW that is next. -/
structure AtShow (s : State) (events : List Event) : Prop where
  inv : Inv s
  fault : s.fault = 0x00
  begun : s.begun = true
  nonempty : s.n ≠ 0
  idle : s.eng.state = .idle
  schedule : s.schedule = .cmd 0x050000000000 :: events
  reads : ∀ e ∈ events, readsOnly e

namespace AtShow

variable {events : List Event}

theorem step (h : AtShow s events) : Machine.step s = .next (shown s) :=
  (step_cmd h.fault (nextEvent_cons h.schedule) (i := .show_) rfl).trans
    (execShow_of_idle (s := s.takeEvent) h.nonempty h.begun h.idle)

/-- SHOW does not touch the latch, which is low in Idle (R95 (i)). -/
theorem dout_shown (h : AtShow s events) : (shown s).dout = some false := by
  have hlow := h.inv.engine.low (by simp [h.idle])
  have hmode : s.gpio.mode = true := h.inv.engine.mode.trans h.begun
  show (if s.gpio.mode then some s.gpio.out else none) = some false
  rw [hmode, hlow]
  rfl

theorem onSchedule (h : AtShow s events) : OnSchedule (shown s) 0 (shown s) := by
  have hinv : Inv (shown s) := hardwareSend_inv h.inv.takeEvent h.nonempty h.begun h.idle
  refine onSchedule_start hinv rfl rfl ?_
  have harr := (h.inv.engine.config h.begun).1
  have hp := s.cfg.periodTicks_ge
  show s.tim.arr.toNat + 1 = s.cfg.periodTicks
  omega

theorem frameBits_pos (h : AtShow s events) : 1 ≤ frameBits (shown s) :=
  (h.onSchedule.inv.len_eq (by simp [shown])).2

/-- `m` steps after SHOW the engine is where `clockEdges events m` TICKs lead. -/
theorem run (h : AtShow s events) (m : Nat) :
    ∃ t, runSteps (1 + m) s = .next t ∧ OnSchedule (shown s) (clockEdges events m) t := by
  have hsch : (shown s).schedule = events := by
    show s.schedule.tail = events
    rw [h.schedule]
    rfl
  have hreads : ∀ e ∈ (shown s).schedule, readsOnly e := by
    rw [hsch]
    exact h.reads
  obtain ⟨t, ht, -, hon⟩ := h.onSchedule.run (u := shown s) h.fault h.frameBits_pos hreads m
  rw [hsch, Nat.zero_add] at hon
  exact ⟨t, (runSteps_add (runSteps_one h.step)).trans ht, hon⟩

end AtShow

/-- Settles O57: the run stays on the schedule of R94, whose places fix the level of the line. -/
theorem frameWaveform : Obligations.FrameWaveform := by
  unfold Obligations.FrameWaveform
  intro s events hinv hf hb hn hs hsch hreads
  have h : AtShow s events := ⟨hinv, hf, hb, hn, hs, hsch, hreads⟩
  refine ⟨⟨shown s, runSteps_one h.step, h.dout_shown⟩, fun m k hk j hj hedges => ?_⟩
  obtain ⟨t, ht, hon⟩ := h.run m
  rw [hedges] at hon
  exact ⟨t, ht, hon.level (u := shown s) hk hj⟩

/-! ### The counts along the schedule (R94, R95 (f)) -/

/-- The transfers left of the three streams in bit period `k` of `bits`, `j` TICKs after its UPDATE. -/
structure CountsAt (c : Config) (bits k j : Nat) (s : State) : Prop where
  cnt : s.tim.cnt.toNat = j
  h : s.dma.h.cnt.toNat = bits - k - 1
  d : s.dma.d.cnt.toNat = if j < c.c1Ticks then bits - k else bits - k - 1
  l : s.dma.l.cnt.toNat = if j < c.c2Ticks then bits - k else bits - k - 1

/-- In Transmitting the place in the schedule gives the counter and all three counts. -/
theorem Inv.countsAt (h : Inv s) (hs : s.eng.state = .transmitting) {k j : Nat}
    (hnum : tickNumber s = 1 + k * s.cfg.periodTicks + j) (hj : j < s.cfg.periodTicks) :
    CountsAt s.cfg s.eng.len.toNat k j s := by
  obtain ⟨hcnt, hbefore, hafter⟩ := h.place hs hnum hj
  have h1 := s.cfg.c1Ticks_lt
  rcases Nat.lt_or_ge j s.cfg.c1Ticks with hj1 | hj1
  · obtain ⟨hh, hd, -⟩ := h.frame.early hs (by omega)
    have := hbefore (by omega)
    exact ⟨hcnt, by omega, by rw [hd, if_pos hj1]; omega, by rw [if_pos (by omega)]; omega⟩
  · rcases Nat.lt_or_ge j s.cfg.c2Ticks with hj2 | hj2
    · obtain ⟨hh, hd, -⟩ := h.frame.middle hs (by omega) (by omega)
      have := hbefore hj2
      exact ⟨hcnt, by omega, by rw [hd, if_neg (by omega)]; omega, by rw [if_pos hj2]; omega⟩
    · obtain ⟨hh, hd, -⟩ := h.frame.late hs (by omega)
      have := hafter hj2
      exact ⟨hcnt, by rw [hh]; omega, by rw [hd, if_neg (by omega)]; omega, by rw [if_neg (by omega)]; omega⟩

/-- In DeadTime the place in the schedule gives the overflows counted and the counter (R103). -/
theorem Inv.deadTime_place (h : Inv s) (hs : s.eng.state = .deadTime) {m j : Nat}
    (hnum : tickNumber s = 1 + (frameBits s - 1 + m) * s.cfg.periodTicks + j) (hj : j < s.cfg.periodTicks) :
    s.eng.ovf.toNat = m ∧ s.tim.cnt.toNat = j := by
  have hf : s.eng.state ≠ .idle := by simp [hs]
  rw [tickNumber_deadTime hs, (h.len_eq hf).1] at hnum
  obtain ⟨hm, hcnt⟩ := period_unique (p := s.cfg.periodTicks) (a := frameBits s - 1 + s.eng.ovf.toNat)
    (c := frameBits s - 1 + m) (by omega) (h.frame.count hf) hj
  exact ⟨by omega, hcnt⟩

/-- The last bit's place after CC2 lies in DeadTime, before the first overflow is counted. -/
theorem last_bit_place {k j : Nat} (hk : k < frameBits u) (hj : j < u.cfg.periodTicks)
    (hlast : lastBitTick u ≤ 1 + k * u.cfg.periodTicks + j) :
    k = frameBits u - 1 ∧ u.cfg.c2Ticks ≤ j ∧ 1 + k * u.cfg.periodTicks + j < idleTick u := by
  have h2 := u.cfg.c2Ticks_lt
  have hd := u.cfg.deadOverflows_pos
  unfold lastBitTick at hlast
  unfold idleTick
  have hke : k = frameBits u - 1 := by
    by_contra hne
    have := Nat.mul_le_mul_right u.cfg.periodTicks (show k + 1 ≤ frameBits u - 1 by omega)
    rw [Nat.add_mul] at this
    omega
  subst hke
  have := Nat.mul_le_mul_right u.cfg.periodTicks
    (show frameBits u - 1 + 1 ≤ frameBits u + u.cfg.deadOverflows - 1 by omega)
  rw [Nat.add_mul] at this
  exact ⟨rfl, by omega, by omega⟩

/-- The counts of the streams at every place of every bit period. -/
theorem OnSchedule.countsAt {k j : Nat} (h : OnSchedule u (1 + k * u.cfg.periodTicks + j) s) (hk : k < frameBits u)
    (hj : j < u.cfg.periodTicks) : CountsAt u.cfg (frameBits u) k j s := by
  have hcfg : s.cfg = u.cfg := h.frame.cfg
  have hbits : frameBits s = frameBits u := h.frame.schedule_numbers.2.2
  rcases Nat.lt_or_ge (1 + k * u.cfg.periodTicks + j) (lastBitTick u) with hlt | hge
  · obtain ⟨hs, hnum⟩ := h.transmitting hlt
    rw [← hcfg] at hnum hj
    have hcounts := h.inv.countsAt hs hnum hj
    rwa [(h.inv.len_eq (by simp [hs])).1, hbits, hcfg] at hcounts
  · obtain ⟨rfl, hj2, hidle⟩ := last_bit_place hk hj hge
    obtain ⟨hs, hnum⟩ := h.deadTime hge hidle
    have h1 := u.cfg.c1Ticks_lt
    obtain ⟨hh, hd, hl⟩ := h.inv.frame.done (by simp [hs])
    rw [← hcfg] at hnum hj
    obtain ⟨-, hcnt⟩ := h.inv.deadTime_place hs (m := 0) (by rw [hbits]; exact hnum) hj
    refine ⟨hcnt, ?_, ?_, ?_⟩
    · rw [hh]
      simp
      omega
    · rw [hd, if_neg (by omega)]
      simp
      omega
    · rw [hl, if_neg (by omega)]
      simp
      omega

/-- In DeadTime along the schedule the flag is 0 and the line is low. -/
theorem Inv.deadTime_pins (h : Inv s) (hs : s.eng.state = .deadTime) : s.eng.tc = false ∧ s.dout = some false := by
  have hf : s.eng.state ≠ .idle := by simp [hs]
  rw [h.dout_inFlight hf, h.engine.low (by simp [hs])]
  exact ⟨h.engine.tc_eq_false hf, rfl⟩

/-- Settles O58: the three parts of the schedule of R94, and the counts at every place of every bit. -/
theorem frameSchedule : Obligations.FrameSchedule := by
  unfold Obligations.FrameSchedule
  intro s events hinv hf hb hn hs hsch hreads m edges hedges
  have h : AtShow s events := ⟨hinv, hf, hb, hn, hs, hsch, hreads⟩
  obtain ⟨t, ht, hon⟩ := h.run m
  rw [← hedges] at hon
  have hbits : frameBits t = 24 * s.n.toNat := hon.frame.schedule_numbers.2.2
  have hcfg : t.cfg = s.cfg := hon.frame.cfg
  refine ⟨t, ht, hon.frame.buf, hon.frame.n, hon.frame.fault.trans hf, fun hlt => ?_, fun hge hlt => ?_, fun hge => ?_,
    fun k hk j hj he => ?_⟩
  · obtain ⟨hst, -⟩ := hon.transmitting hlt
    exact ⟨hst, hon.inv.engine.tc_eq_false (by simp [hst])⟩
  · obtain ⟨hst, hnum⟩ := hon.deadTime hge hlt
    obtain ⟨htc, hdout⟩ := hon.inv.deadTime_pins hst
    refine ⟨hst, htc, hdout, fun m j hj he => hon.inv.deadTime_place hst ?_ (by rw [hcfg]; exact hj)⟩
    rw [hnum, he, hbits, hcfg]
  · have hrest := hon.idle hge
    obtain ⟨hh, hd, hl⟩ := hrest.counts
    obtain ⟨hfh, hfd, hfl⟩ := hrest.flags
    exact ⟨hrest.state, hrest.tc, hrest.run, hrest.uie, hrest.ovf, hrest.cnt, hrest.out, hrest.ptr,
      hrest.len.trans hbits, hh, hd, hl, hfh, hfd, hfl, hrest.src, execPoll_eq_one_iff.2 hrest.tc⟩
  · rw [he] at hon
    have hcounts := hon.countsAt (u := shown s) hk hj
    exact ⟨hcounts.cnt, hcounts.h, hcounts.d, hcounts.l⟩

/-! ### The length of the dead time (R105) -/

/-- The TICKs of the dead time, from the last falling edge to the return to Idle (R105). -/
def deadTicks (c : Config) : Nat := c.periodTicks - c.c2Ticks + (c.deadOverflows - 1) * c.periodTicks

theorem lastBitTick_add_deadTicks (h : 1 ≤ frameBits s) : lastBitTick s + deadTicks s.cfg = idleTick s := by
  have h2 := s.cfg.c2Ticks_lt
  have hd := s.cfg.deadOverflows_pos
  have hmul : (frameBits s + s.cfg.deadOverflows - 1) * s.cfg.periodTicks = (frameBits s - 1) * s.cfg.periodTicks +
      s.cfg.periodTicks + (s.cfg.deadOverflows - 1) * s.cfg.periodTicks := by
    rw [← Nat.succ_mul, ← Nat.add_mul]
    congr 1
    omega
  unfold lastBitTick deadTicks idleTick
  omega

/-- The state after the last bit of a frame stands on its own schedule, at the TICK that ended the frame. -/
theorem onSchedule_deadTime (h : Inv s) (hs : s.eng.state = .deadTime) (hcnt : s.tim.cnt.toNat = s.cfg.c2Ticks)
    (hovf : s.eng.ovf = 0) : OnSchedule s (lastBitTick s) s := by
  have hf : s.eng.state ≠ .idle := by simp [hs]
  obtain ⟨hlen, hpos⟩ := h.len_eq hf
  have hnum : tickNumber s = lastBitTick s := by
    rw [tickNumber_deadTime hs, hlen, hovf, hcnt]
    rfl
  have hlt := lastBitTick_lt_idleTick hpos
  exact ⟨h, .refl s, fun hk => absurd hk (lt_irrefl _), fun _ _ => ⟨hs, hnum⟩, fun hk => by omega⟩

/-- Settles O60: the run continues the frame's own schedule from the TICK that ended the frame. -/
theorem deadTimeLength : Obligations.DeadTimeLength := by
  unfold Obligations.DeadTimeLength
  intro s h hf hreads hs hcnt hovf m k hk
  have hfl : s.eng.state ≠ .idle := by simp [hs]
  have hpos := (h.len_eq hfl).2
  have hend := lastBitTick_add_deadTicks hpos
  obtain ⟨t, ht, -, hon⟩ := (onSchedule_deadTime h hs hcnt hovf).run hf hpos hreads m
  rw [← hk] at hon
  have hbegun : t.begun = true := hon.frame.begun.trans (h.engine.frame hfl).1
  show ∃ t, runSteps m s = .next t ∧ t.dout = some false ∧
    (k < deadTicks s.cfg → t.eng.state = .deadTime ∧ t.eng.tc = false) ∧
    (deadTicks s.cfg ≤ k → t.eng.state = .idle ∧ t.eng.tc = true)
  refine ⟨t, ht, ?_⟩
  rcases Nat.lt_or_ge k (deadTicks s.cfg) with hlt | hge
  · obtain ⟨hst, -⟩ := hon.deadTime (by omega) (by omega)
    obtain ⟨htc, hdout⟩ := hon.inv.deadTime_pins hst
    exact ⟨hdout, fun _ => ⟨hst, htc⟩, fun _ => by omega⟩
  · have hrest := hon.idle (by omega)
    refine ⟨?_, fun _ => by omega, fun _ => ⟨hrest.state, hrest.tc⟩⟩
    rw [hon.inv.engine.dout_eq, hbegun, hrest.out]
    rfl

/-! ### The dead time against every host (R106) -/

/-- What holds after `edges` clock edges since the last falling edge of a frame, whatever the host did: DeadTime with as
many TICKs counted, or the dead time is over, and one more edge has passed before the line is high again. -/
def DeadTimeKept (edges : Nat) (s : State) : Prop :=
  (s.eng.state = .deadTime ∧ s.eng.ovf.toNat * s.cfg.periodTicks + s.tim.cnt.toNat = s.cfg.c2Ticks + edges) ∨
  (deadTicks s.cfg ≤ edges ∧ (s.gpio.out = true → deadTicks s.cfg + 1 ≤ edges))

/-- One TICK of the dead time: it counts on, or it is the last one. -/
theorem tick_keeps_deadTime (h : Inv s) (hs : s.eng.state = .deadTime) (ht : tick s = .ok t) {edges : Nat}
    (hcount : s.eng.ovf.toNat * s.cfg.periodTicks + s.tim.cnt.toNat = s.cfg.c2Ticks + edges) :
    DeadTimeKept (edges + 1) t := by
  have h2 := s.cfg.c2Ticks_lt
  have hadd := toNat_ovf_add_one h.engine.ovfLt
  have hlow := h.engine.low (by simp [hs])
  rcases tick_deadTime h hs with ⟨hwrap, hn, hr⟩ | ⟨-, hn, hr⟩
  · have hmul : (s.eng.ovf.toNat + 1) * s.cfg.periodTicks =
        s.eng.ovf.toNat * s.cfg.periodTicks + s.cfg.periodTicks := Nat.succ_mul _ _
    rcases irqOvf_cases (advance s) with ⟨-, hi⟩ | ⟨hlast, hi⟩ <;> (rw [hr, hi] at ht; cases ht)
    · refine .inl ⟨hs, ?_⟩
      show (s.eng.ovf + 1).toNat * s.cfg.periodTicks + (nextCount s.tim).toNat = s.cfg.c2Ticks + (edges + 1)
      rw [hadd]
      omega
    · have hlast' : (s.eng.ovf + 1).toNat = s.cfg.deadOverflows := hlast
      refine .inr ⟨?_, fun (hout : s.gpio.out = true) => absurd (hlow.symm.trans hout) (by simp)⟩
      show s.cfg.periodTicks - s.cfg.c2Ticks + (s.cfg.deadOverflows - 1) * s.cfg.periodTicks ≤ edges + 1
      rw [← hlast', hadd, Nat.add_sub_cancel]
      omega
  · cases hr.symm.trans ht
    refine .inl ⟨hs, ?_⟩
    show s.eng.ovf.toNat * s.cfg.periodTicks + (nextCount s.tim).toNat = s.cfg.c2Ticks + (edges + 1)
    omega

theorem acceptWord_line {w : CmdWord} (h : acceptWord w s = .next t) (hout : t.gpio.out = true) :
    s.gpio.out = true := by
  rcases acceptWord_next h with ⟨i, -, he⟩ | rfl
  · exact exec_line he hout
  · rwa [raise_gpio] at hout

/-- One step of any host but for reset: in DeadTime no command touches the engine, after it no command raises the
line. -/
theorem step_keeps_deadTime (h : Inv s) (hne : s.nextEvent ≠ .rst) (hstep : step s = .next t) {edges : Nat}
    (hk : DeadTimeKept edges s) : DeadTimeKept (edges + if s.nextEvent = .clk then 1 else 0) t := by
  rcases hk with ⟨hs, hcount⟩ | ⟨hover, hline⟩
  · rcases step_in_flight h (by simp [hs]) hne hstep with ⟨hn, ht⟩ | ⟨hn, f, r, es, rfl⟩
    · rw [if_pos hn]
      exact tick_keeps_deadTime h.takeEvent hs ht hcount
    · rw [if_neg hn]
      exact .inl ⟨hs, hcount⟩
  · have hcfg : t.cfg = s.cfg := (h.step hstep).2.1
    rw [DeadTimeKept, hcfg]
    refine .inr ⟨by omega, fun hout => ?_⟩
    rcases step_next hstep with ⟨hn, -⟩ | ⟨-, w, -, ha⟩ | ⟨-, hn, -⟩
    · exact absurd hn hne
    · have := hline (acceptWord_line (s := s.takeEvent) ha hout)
      omega
    · rw [if_pos hn]
      omega

/-- The next event of a run, from the schedule it started with. -/
theorem nextEvent_of_drop {es : List Event} {k : Nat} (h : s.schedule = es.drop k) :
    s.nextEvent = es[k]?.getD .clk := by
  rw [State.nextEvent, h]
  cases hd : es.drop k with
  | nil =>
    rw [List.getElem?_eq_none (List.drop_eq_nil_iff.1 hd)]
    rfl
  | cons e rest =>
    have he : es[k]? = some e := by rw [← List.head?_drop, hd, List.head?_cons]
    rw [he]
    rfl

theorem clockEdges_succ_of_nextEvent {es : List Event} {k : Nat} (h : s.schedule = es.drop k) :
    clockEdges es (k + 1) = clockEdges es k + if s.nextEvent = .clk then 1 else 0 := by
  rw [clockEdges_succ, nextEvent_of_drop h]
  cases es[k]? <;> simp

/-- The dead time is kept along every run without a reset edge. -/
theorem runSteps_keeps_deadTime (h : Inv s) (hstart : DeadTimeKept 0 s) (hnr : .rst ∉ s.schedule) {k : Nat}
    (hr : runSteps k s = .next t) : DeadTimeKept (clockEdges s.schedule k) t := by
  induction k generalizing t with
  | zero =>
    cases hr
    simpa [clockEdges] using hstart
  | succ k ih =>
    obtain ⟨v, hv, hlast⟩ := runSteps_last hr
    obtain ⟨hinv, -, hsch⟩ := h.runSteps hv
    have hne : v.nextEvent ≠ .rst := fun hn => by
      rw [nextEvent_of_drop hsch] at hn
      cases he : s.schedule[k]? with
      | none => simp [he] at hn
      | some e =>
        rw [he] at hn
        exact hnr (hn ▸ List.mem_of_getElem? he)
    rw [clockEdges_succ_of_nextEvent hsch]
    exact step_keeps_deadTime hinv hne hlast (ih hv)

/-- Settles O59: the line is low in DeadTime, and after it the line rises only at a clock edge. -/
theorem deadTimeIsGuaranteed : Obligations.DeadTimeIsGuaranteed := by
  unfold Obligations.DeadTimeIsGuaranteed
  intro s t k h hs hcnt hovf hnr hr hout
  obtain ⟨hinv, hcfg, -⟩ := h.runSteps hr
  have hstart : DeadTimeKept 0 s := .inl ⟨hs, by simp [hovf, hcnt]⟩
  rcases runSteps_keeps_deadTime h hstart hnr hr with ⟨hst, -⟩ | ⟨-, hline⟩
  · cases (hinv.engine.low (by simp [hst])).symm.trans hout
  · have := hline hout
    rwa [hcfg] at this

end Sys2Proof.Machine
end
